-- ==== Sys2Proof/Word.lean ====
section
/-!
DEFINITION. The word type of the block and its plainest arithmetic.

Every operand, register address, chip answer and frame byte of NTAG-RDB is one byte (rule R14).
-/

namespace Sys2Proof

/-- A byte: 8 bits, bit 0 the least significant (rule R14). -/
abbrev Byte := BitVec 8

/-- A non-zero 8-bit mask, the constraint rule R13 puts on `M_CRCDONE` and `M_FLUSH`: one bit that is
certainly set and any further bits. -/
structure Mask where
  /-- A bit of the mask that is set. -/
  bit : Fin 8
  /-- The other bits of the mask, any. -/
  others : Byte
  deriving DecidableEq, Repr, Inhabited

/-- The mask as the byte it is. -/
def Mask.byte (m : Mask) : Byte := (1#8 <<< m.bit.val) ||| m.others

end Sys2Proof
end

