-- ==== Sys2Proof/Config.lean ====
section
/-!
DEFINITION. The constants the source fixes (rule R12), the configuration record `Cfg` of the parameters
it leaves open (rule R13), the block's own configuration, and the free values: the bytes the reader chip
returns (rules R8 and R33).
-/

namespace Sys2Proof

/-! ## Constants the source fixes (rule R12) -/

/-- `N_CRCPOLL`: the ceiling of the CRC poll loop, in reads. -/
abbrev nCrcPoll : Nat := 255
/-- `N_TRXPOLL`: the ceiling of the transceive poll loop, in reads. -/
abbrev nTrxPoll : Nat := 2000
/-- `RECV_CAP`: the most bytes read out of the FIFO in one exchange. -/
abbrev recvCap : Nat := 16
/-- `M_RXDONE`: the polled bit of the communication-interrupt register. -/
abbrev mRxDone : Byte := 0x01#8
/-- `M_ERR`: the error mask applied to the error-status register. -/
abbrev mErr : Byte := 0x1B#8
/-- `M_START`: the start-transmission bit of the bit-framing register. -/
abbrev mStart : Byte := 0x80#8
/-- `V_FRAME7`: the bit-framing value for a 7-bit final byte. -/
abbrev vFrame7 : Byte := 0x07#8
/-- `V_FRAME8`: the bit-framing value for full bytes. -/
abbrev vFrame8 : Byte := 0x00#8
/-- `M_LASTBITS`: the low 3 bits of the control register. -/
abbrev mLastBits : Byte := 0x07#8
/-- `CMD_SOFTRESET`: the command code INIT writes. -/
abbrev cmdSoftReset : Byte := 0x0F#8
/-- `AIR_REQIDLE`: the over-the-air request-idle code. -/
abbrev airReqIdle : Byte := 0x26#8
/-- `AIR_ANTICOLL`: the over-the-air anticollision frame. -/
abbrev airAnticoll : List Byte := [0x93#8, 0x20#8]
/-- `AIR_READ`: the over-the-air read-page op-code. -/
abbrev airRead : Byte := 0x30#8
/-- `AIR_WRITE`: the over-the-air write-page op-code. -/
abbrev airWrite : Byte := 0xA2#8
/-- `STATUS_OK`: the transceive status of a success. -/
abbrev statusOk : BitVec 2 := 0#2
/-- `STATUS_ERR`: the transceive status of a time-out or an error. -/
abbrev statusErr : BitVec 2 := 2#2
/-- `PAGE_FIRST`: the first page of the data window. -/
abbrev pageFirst : Byte := 4#8
/-- `PAGE_LAST_READ`: the last page of a read session. -/
abbrev pageLastRead : Byte := 7#8
/-- `PAGE_BYTES`: the bytes of a tag page. -/
abbrev pageBytes : Nat := 4
/-- `PAD`: the space character that pads a written text. -/
abbrev padByte : Byte := 32#8
/-- `TEXT_MAX`: the largest text length WRTEXT accepts (decision D20). -/
abbrev textMax : Nat := 1008
/-- The capacity of `SEND`, the largest length byte of CRCCALC and TRANSCV (rules R25 and R78). -/
abbrev sendCap : Nat := 255

/-! ## Parameters the source leaves open (rule R13) -/

/-- The configuration record `Cfg` of rule R13: the eleven register addresses, the three command codes
the source names without a value, the masks, the interrupt-enable value and the address-byte scheme. -/
structure Cfg where
  /-- `A_COMMAND`, the command register. -/
  aCommand : Byte
  /-- `A_COMIEN`, the interrupt-enable register. -/
  aComIEn : Byte
  /-- `A_COMIRQ`, the communication-interrupt register. -/
  aComIrq : Byte
  /-- `A_DIVIRQ`, the status register that holds the CRC-done bit. -/
  aDivIrq : Byte
  /-- `A_ERROR`, the error-status register. -/
  aError : Byte
  /-- `A_FIFODATA`, the data-FIFO register. -/
  aFifoData : Byte
  /-- `A_FIFOLEVEL`, the FIFO level register. -/
  aFifoLevel : Byte
  /-- `A_CONTROL`, the control register. -/
  aControl : Byte
  /-- `A_BITFRAMING`, the bit-framing register. -/
  aBitFraming : Byte
  /-- `A_CRCRESULT_H`, the CRC result register of the high byte. -/
  aCrcResultH : Byte
  /-- `A_CRCRESULT_L`, the CRC result register of the low byte. -/
  aCrcResultL : Byte
  /-- `CMD_IDLE`, a command code. -/
  cmdIdle : Byte
  /-- `CMD_CALCCRC`, a command code. -/
  cmdCalcCrc : Byte
  /-- `CMD_TRANSCEIVE`, a command code. -/
  cmdTransceive : Byte
  /-- `M_CRCDONE`, the CRC-done mask, not zero. -/
  mCrcDone : Mask
  /-- `M_FLUSH`, the FIFO flush mask, not zero. -/
  mFlush : Mask
  /-- `V_IRQEN`, the fixed interrupt mask. -/
  vIrqEn : Byte
  /-- `WADDR`, the address byte of a write. -/
  waddr : Byte → Byte
  /-- `RADDR`, the address byte of a read. -/
  raddr : Byte → Byte
  /-- `DUMMY`, the byte clocked out while a read's answer is clocked in. -/
  dummy : Byte
  deriving Inhabited

/-- The default column of rule R13. PRESUMED (general knowledge, not the source's: log entry 2); no
meaning uses it, the tests replay the vectors of 95_test_vectors.md under it. -/
def Cfg.defaults : Cfg where
  aCommand := 0x01#8
  aComIEn := 0x02#8
  aComIrq := 0x04#8
  aDivIrq := 0x05#8
  aError := 0x06#8
  aFifoData := 0x09#8
  aFifoLevel := 0x0A#8
  aControl := 0x0C#8
  aBitFraming := 0x0D#8
  aCrcResultH := 0x21#8
  aCrcResultL := 0x22#8
  cmdIdle := 0x00#8
  cmdCalcCrc := 0x03#8
  cmdTransceive := 0x0C#8
  mCrcDone := { bit := 2, others := 0#8 }
  mFlush := { bit := 7, others := 0#8 }
  vIrqEn := 0xF7#8
  waddr := fun a => (a <<< 1) &&& 0x7E#8
  raddr := fun a => ((a <<< 1) &&& 0x7E#8) ||| 0x80#8
  dummy := 0x00#8

/-- The block's own parameter values, open in the source (U14): no proof can see them, so a claim about
the machine holds for every `Cfg` (log entry 1). -/
opaque Config.cfg : Cfg

/-- The bytes the reader chip returns beyond those the state lists, a free value for each read (rules R8,
R33 and R37, decision D31): applied to `State.drawn`, the count of such bytes used so far (log entry 3). -/
opaque Config.draw : Nat → Byte

end Sys2Proof
end

