-- ==== Sys2Proof/Syntax.lean ====
section
/-!
DEFINITION. The eleven operations of NTAG-RDB (rule R76) with their operands (rule R78), the
pseudo-operations of rule R95 and the textual form of a request (rule R94).
-/

namespace Sys2Proof

/-- The operation set: one constructor per row of spec/opcode_table.json, in the table's order. -/
inductive Instr where
  /-- INIT: soft-reset the chip (rule R165). -/
  | init
  /-- WRREG `addr`, `value`: write one chip register (rule R100). -/
  | wrreg (addr value : Byte)
  /-- RDREG `addr`: read one chip register (rule R101). -/
  | rdreg (addr : Byte)
  /-- CRCCALC `data`: drive the chip's CRC unit (rule R110). -/
  | crccalc (data : List Byte)
  /-- TRANSCV `cmd`, `send`: one send-then-receive exchange (rule R120). -/
  | transcv (cmd : Byte) (frame : List Byte)
  /-- REQPRES `mode`: detect a tag (rule R140). -/
  | reqpres (mode : Byte)
  /-- ANTICOLL: send the fixed anticollision probe (rule R142). -/
  | anticoll
  /-- RDPAGE `page`: read one tag page (rule R150). -/
  | rdpage (page : Byte)
  /-- WRPAGE `page`, `b0`, `b1`, `b2`, `b3`: write one tag page (rule R152). -/
  | wrpage (page b0 b1 b2 b3 : Byte)
  /-- RDTEXT: read four pages into a text (rule R161). -/
  | rdtext
  /-- WRTEXT `text`: write a text across successive pages (rule R164). -/
  | wrtext (text : List Byte)
  deriving DecidableEq, Repr

/-- The pseudo-operation REQA of rule R95. -/
abbrev Instr.reqa : Instr := .reqpres airReqIdle

/-- The pseudo-operation SOFTRESET of rule R95, under the configuration `c`. -/
abbrev Instr.softReset (c : Cfg) : Instr := .wrreg c.aCommand cmdSoftReset

/-! ## Textual form (rule R94) -/

/-- One hexadecimal digit. -/
def hexDigit (n : Nat) : Char := (['0', '1', '2', '3', '4', '5', '6', '7', '8', '9', 'A', 'B', 'C', 'D', 'E', 'F']).getD n '?'

/-- A byte in C syntax. -/
def hexByte (b : Byte) : List Char := ['0', 'x', hexDigit (b.toNat / 16), hexDigit (b.toNat % 16)]

/-- Operands with the comma of rule R94 between them. -/
def commaSep : List (List Char) → List Char
  | [] => []
  | [x] => x
  | x :: xs => x ++ [',', ' '] ++ commaSep xs

/-- A byte sequence in brackets. -/
def bracketed (bs : List Byte) : List Char := ['['] ++ commaSep (bs.map hexByte) ++ [']']

/-- The textual form of a request (rule R94): the mnemonic, then the operands. -/
def Instr.chars : Instr → List Char
  | .init => ['I', 'N', 'I', 'T']
  | .wrreg a v => ['W', 'R', 'R', 'E', 'G', ' '] ++ commaSep [hexByte a, hexByte v]
  | .rdreg a => ['R', 'D', 'R', 'E', 'G', ' '] ++ hexByte a
  | .crccalc d => ['C', 'R', 'C', 'C', 'A', 'L', 'C', ' '] ++ bracketed d
  | .transcv c d => ['T', 'R', 'A', 'N', 'S', 'C', 'V', ' '] ++ commaSep [hexByte c, bracketed d]
  | .reqpres m => ['R', 'E', 'Q', 'P', 'R', 'E', 'S', ' '] ++ hexByte m
  | .anticoll => ['A', 'N', 'T', 'I', 'C', 'O', 'L', 'L']
  | .rdpage p => ['R', 'D', 'P', 'A', 'G', 'E', ' '] ++ hexByte p
  | .wrpage p b0 b1 b2 b3 => ['W', 'R', 'P', 'A', 'G', 'E', ' '] ++ commaSep ([p, b0, b1, b2, b3].map hexByte)
  | .rdtext => ['R', 'D', 'T', 'E', 'X', 'T']
  | .wrtext t => ['W', 'R', 'T', 'E', 'X', 'T', ' ', '"'] ++ t.map (fun b => Char.ofNat b.toNat) ++ ['"']

/-- The textual form as a string. -/
def Instr.text (i : Instr) : String := String.ofList i.chars

end Sys2Proof
end

