-- ==== Sys2Proof/WellFormed.lean ====
section
/-!
DEFINITION. Which instructions a request descriptor can carry: the length bounds of rule R78 on the three
operands that are byte sequences. No operand byte has reserved values (rule R93).
-/

namespace Sys2Proof

/-- The bounds of rules R78 and R91: at most 255 data bytes for CRCCALC and TRANSCV, at most
`TEXT_MAX` text bytes for WRTEXT; every other operand is a byte and may have any value. -/
def Instr.wellFormed : Instr → Bool
  | .init => true
  | .wrreg _ _ => true
  | .rdreg _ => true
  | .crccalc data => decide (data.length ≤ sendCap)
  | .transcv _ frame => decide (frame.length ≤ sendCap)
  | .reqpres _ => true
  | .anticoll => true
  | .rdpage _ => true
  | .wrpage _ _ _ _ _ => true
  | .rdtext => true
  | .wrtext text => decide (text.length ≤ textMax)

end Sys2Proof
end

