-- ==== Sys2Proof/Decode.lean ====
section
/-!
DEFINITION. The decoder of request descriptors (rules R75, R78, R81 and R91), total and refusing by name;
then the encoder, written from the same table; then the host's view of a row of spec/opcode_table.json.
-/

namespace Sys2Proof

/-- Why a descriptor is malformed (rule R91). -/
inductive DecodeError where
  /-- The descriptor has no opcode byte. -/
  | noOpcode
  /-- The opcode byte is one of 0x0B to 0xFF. -/
  | reservedOpcode (opcode : Byte)
  /-- The descriptor is shorter than rule R78 gives. -/
  | tooShort
  /-- The descriptor is longer than rule R78 gives. -/
  | tooLong
  /-- The text length of WRTEXT exceeds `TEXT_MAX`. -/
  | textTooLong (length : Nat)
  deriving DecidableEq, Repr

/-- The name of a wrong length: `want` bytes are given by rule R78, `got` are there. -/
def lengthError (want got : Nat) : DecodeError := if got < want then .tooShort else .tooLong

/-- The operands of a descriptor whose opcode byte is `op` (rule R78). -/
def decodeOperands (op : Byte) (rest : List Byte) : Except DecodeError Instr :=
  match op.toNat with
  | 0 =>
    match rest with
    | [] => .ok .init
    | _ => .error .tooLong
  | 1 =>
    match rest with
    | [addr, value] => .ok (.wrreg addr value)
    | _ => .error (lengthError 2 rest.length)
  | 2 =>
    match rest with
    | [addr] => .ok (.rdreg addr)
    | _ => .error (lengthError 1 rest.length)
  | 3 =>
    match rest with
    | len :: data =>
      if data.length = len.toNat then .ok (.crccalc data) else .error (lengthError len.toNat data.length)
    | _ => .error .tooShort
  | 4 =>
    match rest with
    | cmd :: len :: frame =>
      if frame.length = len.toNat then .ok (.transcv cmd frame) else .error (lengthError len.toNat frame.length)
    | _ => .error .tooShort
  | 5 =>
    match rest with
    | [mode] => .ok (.reqpres mode)
    | _ => .error (lengthError 1 rest.length)
  | 6 =>
    match rest with
    | [] => .ok .anticoll
    | _ => .error .tooLong
  | 7 =>
    match rest with
    | [page] => .ok (.rdpage page)
    | _ => .error (lengthError 1 rest.length)
  | 8 =>
    match rest with
    | [page, b0, b1, b2, b3] => .ok (.wrpage page b0 b1 b2 b3)
    | _ => .error (lengthError 5 rest.length)
  | 9 =>
    match rest with
    | [] => .ok .rdtext
    | _ => .error .tooLong
  | 10 =>
    match rest with
    | lenLo :: lenHi :: text =>
      -- rule R80: the text length is 16-bit little-endian
      let len := lenLo.toNat + 256 * lenHi.toNat
      if textMax < len then .error (.textTooLong len)
      else if text.length = len then .ok (.wrtext text)
      else .error (lengthError len text.length)
    | _ => .error .tooShort
  | _ => .error (.reservedOpcode op)

/-- A request descriptor as the instruction it carries, or the reason it is malformed (rules R81, R91). -/
def decode : List Byte → Except DecodeError Instr
  | [] => .error .noOpcode
  | op :: rest => decodeOperands op rest

/-- The opcode byte of an operation (rule R76). -/
def Instr.opcode : Instr → Byte
  | .init => 0x00#8
  | .wrreg _ _ => 0x01#8
  | .rdreg _ => 0x02#8
  | .crccalc _ => 0x03#8
  | .transcv _ _ => 0x04#8
  | .reqpres _ => 0x05#8
  | .anticoll => 0x06#8
  | .rdpage _ => 0x07#8
  | .wrpage _ _ _ _ _ => 0x08#8
  | .rdtext => 0x09#8
  | .wrtext _ => 0x0A#8

/-- The bytes that follow the opcode byte (rule R78). -/
def Instr.operandBytes : Instr → List Byte
  | .init => []
  | .wrreg addr value => [addr, value]
  | .rdreg addr => [addr]
  | .crccalc data => BitVec.ofNat 8 data.length :: data
  | .transcv cmd frame => cmd :: BitVec.ofNat 8 frame.length :: frame
  | .reqpres mode => [mode]
  | .anticoll => []
  | .rdpage page => [page]
  | .wrpage page b0 b1 b2 b3 => [page, b0, b1, b2, b3]
  | .rdtext => []
  | .wrtext text => BitVec.ofNat 8 (text.length % 256) :: BitVec.ofNat 8 (text.length / 256) :: text

/-- The request descriptor of a well-formed instruction (rule R78). -/
def encode (i : Instr) : List Byte := i.opcode :: i.operandBytes

/-! ## A row of the opcode table -/

/-- The `k` low bytes of `w`, the least significant first. -/
def littleEndianBytes : Nat → Nat → List Byte
  | 0, _ => []
  | k + 1, w => BitVec.ofNat 8 (w % 256) :: littleEndianBytes k (w / 256)

/-- The whole length of a descriptor that begins with `bs`, by rule R78, its length field read from `bs`
with zero bytes after it; none for a reserved opcode. -/
def descriptorLength (bs : List Byte) : Option Nat :=
  match (bs.getD 0 0#8).toNat with
  | 0 => some 1
  | 1 => some 3
  | 2 => some 2
  | 3 => some (2 + (bs.getD 1 0#8).toNat)
  | 4 => some (3 + (bs.getD 2 0#8).toNat)
  | 5 => some 2
  | 6 => some 1
  | 7 => some 2
  | 8 => some 6
  | 9 => some 1
  | 10 => some (3 + ((bs.getD 1 0#8).toNat + 256 * (bs.getD 2 0#8).toNat))
  | _ => none

/-- The descriptor whose first `nbits` bits are `w`, first byte lowest, with zero bytes up to the length
rule R78 gives it. -/
def tableDescriptor (nbits w : Nat) : List Byte :=
  let bs := littleEndianBytes (nbits / 8) w
  match descriptorLength bs with
  | some n => bs ++ List.replicate (n - bs.length) 0#8
  | none => bs

/-- The instruction the decoder reads from the descriptor whose bits are `w`. -/
def decodeTableWord (nbits w : Nat) : Option Instr :=
  match decode (tableDescriptor nbits w) with
  | .ok i => some i
  | .error _ => none

end Sys2Proof
end

