-- ==== Sys2Proof/Machine/State.lean ====
section
/-!
DEFINITION. The state of the block: its working registers (rule R20), its buffers (rule R25), the sequencer
phase (rule R27), the host port (rules R75 and R79), the transport (rules R82 and R10) and the chip's
answers (rules R8 and R33); and the state after reset (rules R36 to R38).
-/

namespace Sys2Proof.Machine

/-! ## Transport -/

/-- One use of the three transport primitives (rules R6, R15 and R82). -/
inductive BusEvent where
  /-- `CsAssert()`. -/
  | csAssert
  /-- `Xfer(out)`; `taken` is the byte received where the block takes it as a result, none where the
  block discards it (rule R82). -/
  | xfer (out : Byte) (taken : Option Byte)
  /-- `CsRelease()`. -/
  | csRelease
  deriving DecidableEq, Repr

/-- One transport transaction, in the notation of rule R16. -/
inductive Xact where
  /-- `W addr<-value`: a write transaction. -/
  | write (addr value : Byte)
  /-- `R addr=value`: a read transaction that returned `value`. -/
  | read (addr value : Byte)
  deriving DecidableEq, Repr

/-- What one transaction is on the bus (rule R82). -/
def Xact.wire (c : Cfg) : Xact → List BusEvent
  | .write a v => [.csAssert, .xfer (c.waddr a) none, .xfer v none, .csRelease]
  | .read a v => [.csAssert, .xfer (c.raddr a) none, .xfer c.dummy (some v), .csRelease]

/-- What a trace is on the bus: its transactions, one after the other (rule R70). -/
def wires (c : Cfg) (xs : List Xact) : List BusEvent := xs.flatMap (Xact.wire c)

/-! ## Host port -/

/-- The four bytes of a tag page (rule R151). -/
structure PageData where
  b0 : Byte
  b1 : Byte
  b2 : Byte
  b3 : Byte
  deriving DecidableEq, Repr

/-- The `kind` field of a response record (rule R79). -/
inductive Kind where
  | done
  | null
  | refused
  deriving DecidableEq, Repr

/-- The response records of rule R79; the length field of a byte sequence is the length of the list. -/
inductive Response where
  /-- `DONE` with no further field: INIT, WRREG, WRPAGE. -/
  | done
  /-- RDREG: `value`. -/
  | value (value : Byte)
  /-- CRCCALC: `crc[0]`, `crc[1]`. -/
  | crc (low high : Byte)
  /-- TRANSCV: `status`, `recv`, `vbc`. -/
  | exchange (status : BitVec 2) (recv : List Byte) (vbc : Int)
  /-- REQPRES: `status`, `vbc`. -/
  | presence (status : BitVec 2) (vbc : Int)
  /-- ANTICOLL: `status`, `recv`. -/
  | identifier (status : BitVec 2) (recv : List Byte)
  /-- RDPAGE: `status`, `recv`, and `data`, which is there exactly when `ok` = 1. -/
  | page (status : BitVec 2) (recv : List Byte) (data : Option PageData)
  /-- RDTEXT: `out`. -/
  | text (out : List Byte)
  /-- WRTEXT: `success`. -/
  | written (success : BitVec 1)
  /-- `NULL`: a session whose gate failed. -/
  | null
  /-- `REFUSED`: a malformed descriptor (rule R92). -/
  | refused
  deriving DecidableEq, Repr

/-- The `kind` field, which every response has (rule R79). -/
def Response.kind : Response → Kind
  | .done => .done
  | .value _ => .done
  | .crc _ _ => .done
  | .exchange _ _ _ => .done
  | .presence _ _ => .done
  | .identifier _ _ => .done
  | .page _ _ _ => .done
  | .text _ => .done
  | .written _ => .done
  | .null => .null
  | .refused => .refused

/-! ## Sequencer phase (rules R27 and R28) -/

/-- The steps of CRCCALC (rule R110), one transaction each. -/
inductive CrcStep where
  /-- S1, the read of CLRBITS. -/
  | clearRead
  /-- S1, the write of CLRBITS. -/
  | clearWrite
  /-- S2, the read of SETBITS. -/
  | flushRead
  /-- S2, the write of SETBITS. -/
  | flushWrite
  /-- S3, one byte of the load loop. -/
  | load
  /-- S4. -/
  | command
  /-- S5, one read of the poll loop. -/
  | poll
  /-- S6, the low byte. -/
  | resultLow
  /-- S6, the high byte. -/
  | resultHigh
  deriving DecidableEq, Repr

/-- The steps of TRANSCV (rule R120), one transaction each. -/
inductive TrxStep where
  /-- S1. -/
  | enable
  /-- S2. -/
  | idle
  /-- S3, the read of SETBITS. -/
  | flushRead
  /-- S3, the write of SETBITS. -/
  | flushWrite
  /-- S4, one byte of the load loop. -/
  | load
  /-- S5. -/
  | command
  /-- S6, the read of SETBITS. -/
  | startRead
  /-- S6, the write of SETBITS. -/
  | startWrite
  /-- S7, one read of the poll loop. -/
  | poll
  /-- S8, the read of CLRBITS. -/
  | stopRead
  /-- S8, the write of CLRBITS. -/
  | stopWrite
  /-- S10. -/
  | error
  /-- S12, the FIFO level register. -/
  | level
  /-- S12, the control register. -/
  | control
  /-- S13, one byte of the harvest loop. -/
  | harvest
  deriving DecidableEq, Repr

/-- Which use of TRANSCV is in flight (rule R27: nested operations are expanded in place). -/
inductive Exchange where
  /-- A host-issued TRANSCV. -/
  | host
  /-- Step S2 of REQPRES. -/
  | request
  /-- Step S2 of ANTICOLL. -/
  | anticoll
  /-- Step S2 of RDPAGE or WRPAGE. -/
  | page
  deriving DecidableEq, Repr

/-- `PHASE`: the next transaction of the operation in flight, meaningful while `BUSY` = 1 (rule R27). -/
inductive Phase where
  /-- No operation in flight. -/
  | idle
  /-- INIT, step S2. -/
  | softReset
  /-- WRREG. -/
  | regWrite
  /-- RDREG. -/
  | regRead
  /-- REQPRES, step S1. -/
  | framing7
  /-- ANTICOLL, step S1. -/
  | framing8
  /-- CRCCALC, or step S1 of RDPAGE or WRPAGE. -/
  | crc (step : CrcStep)
  /-- TRANSCV, or its use in another operation. -/
  | trx (use : Exchange) (step : TrxStep)
  deriving DecidableEq, Repr

/-! ## The state -/

/-- The state of the block. A buffer with its length register is one list, whose length is the length
register (rule R25). -/
structure State where
  /-- `BUSY`: an operation is in flight (rule R20). -/
  busy : Bool
  /-- `PHASE` (rule R27). -/
  phase : Phase
  /-- `OPC`, the opcode of the operation in flight. -/
  opc : Byte
  /-- `ARG_A`, the first byte operand. -/
  argA : Byte
  /-- `ARG_V`, the value operand of WRREG. -/
  argV : Byte
  /-- `TMP`, the byte of the last register read of a SETBITS, CLRBITS or poll loop. -/
  tmp : Byte
  /-- `POLLC`, the reads done by the CRC poll loop. -/
  pollC : BitVec 8
  /-- `POLLT`, the reads done by the transceive poll loop. -/
  pollT : BitVec 11
  /-- `SEEN`, a transceive poll read returned bit 0 set. -/
  seen : Bool
  /-- `CRCLO`, the low byte of the CRC read back. -/
  crcLo : Byte
  /-- `CRCHI`, the high byte of the CRC read back. -/
  crcHi : Byte
  /-- `STATUS`, the transceive status. -/
  status : BitVec 2
  /-- `ERR`, the byte read from the error-status register. -/
  err : Byte
  /-- `N`, the byte read from the FIFO level register. -/
  n : Byte
  /-- `REM`, the low 3 bits of the control register. -/
  rem : BitVec 3
  /-- `VBC`, the valid-bit count, two's complement (rule R24). -/
  vbc : BitVec 12
  /-- `PAGE`, the page counter of a session. -/
  page : Byte
  /-- `IDX`, the byte or chunk index of a loop. -/
  idx : BitVec 11
  /-- `SEND[0..SLEN-1]`, at most 255 bytes. -/
  send : List Byte
  /-- `RECV[0..RLEN-1]`, at most 16 bytes. -/
  recv : List Byte
  /-- `OUT[0..OLEN-1]`, at most 16 bytes. -/
  out : List Byte
  /-- `TEXT[0..TLEN-1]`, at most 1008 bytes before and after padding. -/
  text : List Byte
  /-- The response record of the host port: the last one written, none before the first (rule R79). -/
  response : Option Response
  /-- The request descriptors the host holds at its port, the one presented first (rules R75 and R77). -/
  requests : List (List Byte)
  /-- Chip-select is asserted (rules R36 and R82). -/
  cs : Bool
  /-- MODEL'S OWN. What the transport has carried since reset, oldest first: the observable of rule R10. -/
  bus : List BusEvent
  /-- MODEL'S OWN. The bytes the chip will return to the next register reads, first the next (rule R8). -/
  answers : List Byte
  /-- MODEL'S OWN. How many free bytes `Config.draw` has given for reads beyond `answers` (rule R33). -/
  drawn : Nat
  deriving DecidableEq, Repr

/-- `SLEN`, 8 bits (rule R25). -/
def State.slen (s : State) : BitVec 8 := BitVec.ofNat 8 s.send.length
/-- `RLEN`, 5 bits (rule R25). -/
def State.rlen (s : State) : BitVec 5 := BitVec.ofNat 5 s.recv.length
/-- `OLEN`, 5 bits (rule R25). -/
def State.olen (s : State) : BitVec 5 := BitVec.ofNat 5 s.out.length
/-- `TLEN`, 10 bits (rule R25). -/
def State.tlen (s : State) : BitVec 10 := BitVec.ofNat 10 s.text.length

/-- The block right after reset (rules R36 to R38 and R210): idle, chip-select released, no transaction, no
request and no response; the registers and buffers rule R36 calls unspecified are zero and empty
(DESIGN CHOICE, log entry 4). -/
def State.reset : State where
  busy := false
  phase := .idle
  opc := 0
  argA := 0
  argV := 0
  tmp := 0
  pollC := 0
  pollT := 0
  seen := false
  crcLo := 0
  crcHi := 0
  status := 0
  err := 0
  n := 0
  rem := 0
  vbc := 0
  page := 0
  idx := 0
  send := []
  recv := []
  out := []
  text := []
  response := none
  requests := []
  cs := false
  bus := []
  answers := []
  drawn := 0

/-- The faults of the machine: none. "The block raises no exception, trap or fault, ever" (rule R180), so
nothing raises one (safe). -/
inductive Fault where
  deriving DecidableEq, Repr

/-- The refusals of the machine. -/
inductive Refusal where
  /-- An instruction that has no meaning yet; raised by no arm of `exec`, since every one has its meaning
  (safe). A malformed descriptor is no refusal of the model: the block answers it REFUSED (rule R92). -/
  | notModelled (mnemonic : String)
  deriving DecidableEq, Repr

end Sys2Proof.Machine
end

