-- ==== Sys2Proof/Machine/Ops.lean ====
section
/-!
DEFINITION. The named operations over the state: the chip's answers (rules R8, R33), the transport
primitives and transactions (rules R82, R100, R101), the micro-operations (rules R102, R103), the FIFO load
(rules R111, R123) and the host port (rules R77, R29, R92).

The block takes no exception and returns from none (rules R180, R190, R193): there is no trap entry here.
-/

namespace Sys2Proof.Machine

/-! ## The chip's answers -/

/-- The `k`-th byte, from 0, the chip returns when it is to give `answers` and has given `drawn` free bytes: one of
`answers`, and after these a free value of its own for each read (rules R8 and R33). -/
def answerOf (answers : List Byte) (drawn k : Nat) : Byte :=
  match answers[k]? with
  | some b => b
  | none => Config.draw (drawn + (k - answers.length))

/-- The `k`-th byte, from 0, the chip returns from `s` on. -/
def State.answer (s : State) (k : Nat) : Byte := answerOf s.answers s.drawn k

/-- The state once the chip has given `k` answers. -/
def State.afterAnswers (s : State) (k : Nat) : State :=
  { s with answers := s.answers.drop k, drawn := s.drawn + (k - s.answers.length) }

/-! ## The transport primitives (rules R15 and R82) -/

/-- `CsAssert()`. -/
def csAssert (s : State) : State := { s with cs := true, bus := s.bus ++ [.csAssert] }

/-- `CsRelease()`. -/
def csRelease (s : State) : State := { s with cs := false, bus := s.bus ++ [.csRelease] }

/-- `Xfer(b)` whose received byte is discarded. -/
def xferDiscard (b : Byte) (s : State) : State := { s with bus := s.bus ++ [.xfer b none] }

/-- `Xfer(b)` whose received byte, the chip's next answer, is the result. -/
def xfer (b : Byte) (s : State) : Byte × State :=
  let v := s.answer 0
  (v, { s.afterAnswers 1 with bus := s.bus ++ [.xfer b (some v)] })

/-! ## Transactions (rules R100 and R101) -/

/-- WRREG `a`, `v`: one write transaction (rule R100). -/
def wrReg (c : Cfg) (a v : Byte) (s : State) : State :=
  csRelease (xferDiscard v (xferDiscard (c.waddr a) (csAssert s)))

/-- RDREG `a`: one read transaction and the byte it returns (rule R101). -/
def rdReg (c : Cfg) (a : Byte) (s : State) : Byte × State :=
  let r := xfer c.dummy (xferDiscard (c.raddr a) (csAssert s))
  (r.1, csRelease r.2)

/-- `x[TMP] <- RDREG(a)`. -/
def readTmp (c : Cfg) (a : Byte) (s : State) : State :=
  let r := rdReg c a s
  { r.2 with tmp := r.1 }

/-! ## Micro-operations (rules R102 and R103) -/

/-- The write of SETBITS: `WRREG(a, x[TMP] | m)`. -/
def writeSet (c : Cfg) (a m : Byte) (s : State) : State := wrReg c a (s.tmp ||| m) s

/-- The write of CLRBITS: `WRREG(a, x[TMP] & ~m)`. -/
def writeClear (c : Cfg) (a m : Byte) (s : State) : State := wrReg c a (s.tmp &&& ~~~m) s

/-- SETBITS `a`, `m` (rule R102). -/
def setBits (c : Cfg) (a m : Byte) (s : State) : State := writeSet c a m (readTmp c a s)

/-- CLRBITS `a`, `m` (rule R103). -/
def clrBits (c : Cfg) (a m : Byte) (s : State) : State := writeClear c a m (readTmp c a s)

/-! ## FIFO load (rules R111 and R123) -/

/-- `IDX <- 0`, where a loop starts. -/
def clearIdx (s : State) : State := { s with idx := 0 }

/-- One iteration: `WRREG(A_FIFODATA, SEND[IDX])`, and the index moves on. -/
def loadOne (c : Cfg) (s : State) : State :=
  { wrReg c c.aFifoData (s.send.getD s.idx.toNat 0) s with idx := s.idx + 1 }

/-- `k` iterations of the load loop. -/
def loadLoop (c : Cfg) : Nat → State → State
  | 0, s => s
  | k + 1, s => loadLoop c k (loadOne c s)

/-- Every byte of `SEND`, in index order, from index 0. -/
def loadFifo (c : Cfg) (s : State) : State := loadLoop c s.send.length (clearIdx s)

/-! ## The host port (rules R77, R29 and R92) -/

/-- The first step of an operation: its first transaction. -/
def Phase.first : Instr → Phase
  | .init => .softReset
  | .wrreg _ _ => .regWrite
  | .rdreg _ => .regRead
  | .crccalc _ => .crc .clearRead
  | .transcv _ _ => .trx .host .enable
  | .reqpres _ => .framing7
  | .anticoll => .framing8
  | .rdpage _ => .crc .clearRead
  | .wrpage _ _ _ _ _ => .crc .clearRead
  | .rdtext => .framing7
  | .wrtext _ => .framing7

/-- Where the operands of a descriptor land (rule R78, last column). For WRPAGE `SEND[0..1]` keep what they
hold: rule R152 writes them before anything reads them. -/
def landOperands (i : Instr) (s : State) : State :=
  match i with
  | .init => s
  | .wrreg addr value => { s with argA := addr, argV := value }
  | .rdreg addr => { s with argA := addr }
  | .crccalc data => { s with send := data }
  | .transcv cmd frame => { s with argA := cmd, send := frame }
  | .reqpres mode => { s with argA := mode }
  | .anticoll => s
  | .rdpage page => { s with argA := page }
  | .wrpage page b0 b1 b2 b3 => { s with argA := page, send := (s.send ++ [0, 0]).take 2 ++ [b0, b1, b2, b3] }
  | .rdtext => s
  | .wrtext text => { s with text := text }

/-- Acceptance of a request (rule R77): `BUSY <- 1`, `OPC`, the operands, the first step. -/
def accept (i : Instr) (s : State) : State :=
  landOperands i { s with busy := true, opc := i.opcode, phase := Phase.first i }

/-- The end of an operation (rule R29): the response record is written and `BUSY <- 0`. -/
def finish (r : Response) (s : State) : State :=
  { s with response := some r, busy := false, phase := .idle }

/-- A malformed descriptor (rule R92): no transaction, no register changed, the answer is REFUSED. -/
def refuse (s : State) : State := { s with response := some .refused }

/-- The descriptor presented leaves the port when the block takes it. -/
def takeRequest (s : State) : State := { s with requests := s.requests.tail }

/-- The host presents one more descriptor, ahead of those it holds. -/
def present (d : List Byte) (s : State) : State := { s with requests := d :: s.requests }

/-- A request of operation `i`, whose steps after acceptance are `body`: while `BUSY` = 1 it is not accepted and
has no effect; otherwise it is accepted and runs to its end (rules R77 and R29). -/
def perform (i : Instr) (body : State → State) (s : State) : Host.Outcome State Fault Refusal :=
  if s.busy then .next s else .next (body (accept i s))

end Sys2Proof.Machine
end

