-- ==== Sys2Proof/Machine/Flags.lean ====
section
/-!
DEFINITION. The conditions an operation computes and tests (rule R30): the polled bits, the error test, the
valid-bit count and the page test. The block has no condition-code register.
-/

namespace Sys2Proof.Machine

/-- A CRC poll read shows completion: any bit of `M_CRCDONE` is set (rule R112). -/
def crcDone (c : Cfg) (b : Byte) : Bool := b &&& c.mCrcDone.byte != 0

/-- A transceive poll read shows completion: bit 0 is set (rule R124). -/
def rxDone (b : Byte) : Bool := b &&& mRxDone != 0

/-- The error-status register reports an error: `(ERR & 0x1B) != 0` (rule R127). -/
def hasError (b : Byte) : Bool := b &&& mErr != 0

/-- The number of valid bits in the final byte: the low 3 bits of the control register (rule R129). -/
def lastBits (b : Byte) : BitVec 3 := (b &&& mLastBits).setWidth 3

/-- The valid-bit count as the mathematical integer of rule R129; `n` is not clamped. -/
def validBits (n : Byte) (rem : BitVec 3) : Int :=
  if rem ≠ 0 then ((n.toNat : Int) - 1) * 8 + rem.toNat else (n.toNat : Int) * 8

/-- The bytes to harvest: `min(n, 16)` (rule R130). -/
def harvestCount (n : Byte) : Nat := min n.toNat recvCap

/-- `ok` of a page read and the page's data: status 0 and at least 4 bytes, of which the first 4 are the data
(rule R151). -/
def pageData (status : BitVec 2) (recv : List Byte) : Option PageData :=
  match recv with
  | b0 :: b1 :: b2 :: b3 :: _ => if status = statusOk then some ⟨b0, b1, b2, b3⟩ else none
  | _ => none

end Sys2Proof.Machine
end

