-- ==== Sys2Proof/Machine/Operands.lean ====
section
/-!
DEFINITION. The operand forms: the four frames (rule R87), the padding and the chunks of a written text
(rules R162 and R163), and the text of a read session (rule R161).
-/

namespace Sys2Proof.Machine

/-! ## Frames (rule R87) -/

/-- The request frame `[mode]`. -/
def requestFrame (mode : Byte) (s : State) : State := { s with send := [mode] }

/-- The anticollision frame `[0x93, 0x20]`. -/
def anticollFrame (s : State) : State := { s with send := airAnticoll }

/-- The read-page frame before its CRC, `[0x30, page]` (rule R150). -/
def readFrame (page : Byte) (s : State) : State := { s with send := [airRead, page] }

/-- The write-page frame before its CRC, `[0xA2, page, b0, b1, b2, b3]` (rule R152). -/
def writeFrame (page : Byte) (d : PageData) (s : State) : State :=
  { s with send := [airWrite, page, d.b0, d.b1, d.b2, d.b3] }

/-- The two bytes CRCCALC returned are appended, low byte first (rules R58 and R88). -/
def appendCrc (s : State) : State := { s with send := s.send ++ [s.crcLo, s.crcHi] }

/-! ## The text of a write session (rules R162 and R163) -/

/-- How many pad bytes a text of length `len` takes to a multiple of 4. -/
def padCount (len : Nat) : Nat := (pageBytes - len % pageBytes) % pageBytes

/-- The text right-padded with spaces to the least multiple of 4 (rule R162). -/
def padText (text : List Byte) : List Byte := text ++ List.replicate (padCount text.length) padByte

/-- The four bytes of `bs` from index `k` on. -/
def pageAt (bs : List Byte) (k : Nat) : PageData :=
  ⟨bs.getD k 0, bs.getD (k + 1) 0, bs.getD (k + 2) 0, bs.getD (k + 3) 0⟩

/-- The four data bytes of a host-issued WRPAGE, which landed in `SEND[2..5]` (rule R78). -/
def operandPage (s : State) : PageData := pageAt s.send 2

/-- `TEXT <- ` the padded text, and `PAGE <- 4` (rule R164, S2 and S3). -/
def beginChunks (s : State) : State := { s with text := padText s.text, page := pageFirst }

/-- The index in `TEXT` of the chunk that goes to page `PAGE`: `4 * (PAGE - 4)` (rule R60). -/
def chunkIndex (s : State) : Nat := pageBytes * (s.page.toNat - pageFirst.toNat)

/-- The operands of the next chunk: `IDX <- 4k`, and the frame of `WRPAGE(PAGE, TEXT[IDX..IDX+3])` before its CRC
(rule R163). -/
def chunkFrame (s : State) : State :=
  writeFrame s.page (pageAt s.text (chunkIndex s)) { s with idx := BitVec.ofNat 11 (chunkIndex s) }

/-- `x[PAGE] <- x[PAGE] + 1`. -/
def nextPage (s : State) : State := { s with page := s.page + 1 }

/-! ## The text of a read session (rule R161) -/

/-- The bytes a page read contributes to the text: four, or none when `ok` is false. -/
def PageData.bytes : Option PageData → List Byte
  | some d => [d.b0, d.b1, d.b2, d.b3]
  | none => []

/-- `x[OLEN] <- 0`, the start of the page loop. -/
def clearOut (s : State) : State := { s with out := [] }

/-- `OUT[OLEN..OLEN+3] <- data` when `ok` (rule R161, S2). -/
def appendPage (s : State) : State := { s with out := s.out ++ PageData.bytes (pageData s.status s.recv) }

/-! ## Response records (rule R79) -/

/-- RDREG's response carries the byte read; the others are made from the registers below. -/
def exchangeResponse (s : State) : Response := .exchange s.status s.recv s.vbc.toInt
/-- REQPRES: the received bytes are dropped (rule R141). -/
def presenceResponse (s : State) : Response := .presence s.status s.vbc.toInt
/-- ANTICOLL: `vbc` is dropped (rule R142). -/
def identifierResponse (s : State) : Response := .identifier s.status s.recv
/-- RDPAGE. -/
def pageResponse (s : State) : Response := .page s.status s.recv (pageData s.status s.recv)
/-- CRCCALC: low byte first (rule R113). -/
def crcResponse (s : State) : Response := .crc s.crcLo s.crcHi

end Sys2Proof.Machine
end

