-- ==== Sys2Proof/Machine/Crc.lean ====
section
/-!
DEFINITION. CRCCALC: the CRC coprocessor driver (41_crc.md).
-/

namespace Sys2Proof.Machine

/-- `POLLC <- 0`, where the poll loop starts (rule R112). -/
def clearCrcPoll (s : State) : State := { s with pollC := 0 }

/-- One read of the CRC poll loop (rule R112): `TMP <- RDREG(A_DIVIRQ)`, `POLLC <- POLLC + 1`. -/
def crcPollRead (c : Cfg) (s : State) : State :=
  let s := readTmp c c.aDivIrq s
  { s with pollC := s.pollC + 1 }

/-- At most `k` more reads, the last the first that shows completion (rule R112). -/
def crcPollLoop (c : Cfg) : Nat → State → State
  | 0, s => s
  | k + 1, s =>
    let s := crcPollRead c s
    if crcDone c s.tmp then s else crcPollLoop c k s

/-- Step S5: the poll loop from `POLLC` = 0, at most 255 reads. -/
def crcPoll (c : Cfg) (s : State) : State := crcPollLoop c nCrcPoll (clearCrcPoll s)

/-- Step S6, the low byte: `CRCLO <- RDREG(A_CRCRESULT_L)` (rule R113). -/
def readCrcLow (c : Cfg) (s : State) : State :=
  let r := rdReg c c.aCrcResultL s
  { r.2 with crcLo := r.1 }

/-- Step S6, the high byte: `CRCHI <- RDREG(A_CRCRESULT_H)` (rule R113). -/
def readCrcHigh (c : Cfg) (s : State) : State :=
  let r := rdReg c c.aCrcResultH s
  { r.2 with crcHi := r.1 }

/-- CRCCALC over `SEND` (rule R110); the result stands in `CRCLO` and `CRCHI`. -/
def crcCalc (c : Cfg) (s : State) : State :=
  let s := clrBits c c.aDivIrq c.mCrcDone.byte s       -- S1
  let s := setBits c c.aFifoLevel c.mFlush.byte s      -- S2
  let s := loadFifo c s                                -- S3
  let s := wrReg c c.aCommand c.cmdCalcCrc s           -- S4
  let s := crcPoll c s                                 -- S5
  readCrcHigh c (readCrcLow c s)                       -- S6

/-- CRCCALC after acceptance. -/
def runCrccalc (c : Cfg) (s : State) : State :=
  let s := crcCalc c s
  finish (crcResponse s) s

/-- The meaning of CRCCALC. -/
def execCrccalc (data : List Byte) (s : State) : Host.Outcome State Fault Refusal :=
  perform (.crccalc data) (runCrccalc Config.cfg) s

end Sys2Proof.Machine
end

