-- ==== Sys2Proof/Machine/Transceive.lean ====
section
/-!
DEFINITION. TRANSCV: the transceive-command sequencer with status polling (42_transceive.md).
-/

namespace Sys2Proof.Machine

/-- Step S0 (rule R121): `STATUS <- 2`, `RLEN <- 0`, `VBC <- 0`. -/
def clearResults (s : State) : State := { s with status := statusErr, recv := [], vbc := 0 }

/-- The registers of the poll loop before it starts (rule R124): `POLLT <- 0`, `SEEN <- 0`. -/
def clearPoll (s : State) : State := { s with pollT := 0, seen := false }

/-- One read of the transceive poll loop (rule R124). -/
def trxPollRead (c : Cfg) (s : State) : State :=
  let s := readTmp c c.aComIrq s
  { s with pollT := s.pollT + 1, seen := s.seen || rxDone s.tmp }

/-- At most `k` more reads, the last the first with bit 0 set (rule R124). -/
def trxPollLoop (c : Cfg) : Nat → State → State
  | 0, s => s
  | k + 1, s =>
    let s := trxPollRead c s
    if s.seen then s else trxPollLoop c k s

/-- Step S7: at most 2000 reads. -/
def trxPoll (c : Cfg) (s : State) : State := trxPollLoop c nTrxPoll (clearPoll s)

/-- Step S10, the read: `ERR <- RDREG(A_ERROR)` (rule R127). -/
def readError (c : Cfg) (s : State) : State :=
  let r := rdReg c c.aError s
  { r.2 with err := r.1 }

/-- Step S11: `STATUS <- 0` (rule R128). -/
def succeed (s : State) : State := { s with status := statusOk }

/-- Step S12, the first read: `N <- RDREG(A_FIFOLEVEL)` (rule R129). -/
def readLevel (c : Cfg) (s : State) : State :=
  let r := rdReg c c.aFifoLevel s
  { r.2 with n := r.1 }

/-- Step S12, the second read: `REM <- RDREG(A_CONTROL) & 0x07`, and `VBC` by the formula (rule R129). -/
def readControl (c : Cfg) (s : State) : State :=
  let r := rdReg c c.aControl s
  { r.2 with rem := lastBits r.1, vbc := BitVec.ofInt 12 (validBits s.n (lastBits r.1)) }

/-- One iteration of step S13: `RECV[IDX] <- RDREG(A_FIFODATA)`, and the index moves on (rule R130). -/
def harvestOne (c : Cfg) (s : State) : State :=
  let r := rdReg c c.aFifoData s
  { r.2 with recv := s.recv ++ [r.1], idx := s.idx + 1 }

/-- `k` iterations of the harvest loop. -/
def harvestLoop (c : Cfg) : Nat → State → State
  | 0, s => s
  | k + 1, s => harvestLoop c k (harvestOne c s)

/-- Step S13: `min(N, 16)` bytes (rule R130). -/
def harvest (c : Cfg) (s : State) : State := harvestLoop c (harvestCount s.n) (clearIdx s)

/-- Steps S1 to S8 with the command code `cmd` (rules R122 to R125). -/
def exchange (c : Cfg) (cmd : Byte) (s : State) : State :=
  let s := wrReg c c.aComIEn c.vIrqEn s                -- S1
  let s := wrReg c c.aCommand c.cmdIdle s              -- S2
  let s := setBits c c.aFifoLevel c.mFlush.byte s      -- S3
  let s := loadFifo c s                                -- S4
  let s := wrReg c c.aCommand cmd s                    -- S5
  let s := setBits c c.aBitFraming mStart s            -- S6
  let s := trxPoll c s                                 -- S7
  clrBits c c.aBitFraming mStart s                     -- S8

/-- Steps S11 to S13 (rules R128 to R130). -/
def receive (c : Cfg) (s : State) : State := harvest c (readControl c (readLevel c (succeed s)))

/-- Steps S9 and S10: the three outcomes, in this order (rules R126, R127, R131). -/
def resolve (c : Cfg) (s : State) : State :=
  if s.seen then
    let s := readError c s
    if hasError s.err then s else receive c s
  else s

/-- TRANSCV of the frame in `SEND` with the command code `cmd` (rule R120); the results stand in `STATUS`,
`RECV` and `VBC`. -/
def transceive (c : Cfg) (cmd : Byte) (s : State) : State := resolve c (exchange c cmd (clearResults s))

/-- TRANSCV after acceptance. -/
def runTranscv (c : Cfg) (s : State) : State :=
  let s := transceive c s.argA s
  finish (exchangeResponse s) s

/-- The meaning of TRANSCV. -/
def execTranscv (cmd : Byte) (frame : List Byte) (s : State) : Host.Outcome State Fault Refusal :=
  perform (.transcv cmd frame) (runTranscv Config.cfg) s

end Sys2Proof.Machine
end

