-- ==== Sys2Proof/Machine/Page.lean ====
section
/-!
DEFINITION. RDPAGE and WRPAGE: the page-read and page-write command builder (44_page.md).
-/

namespace Sys2Proof.Machine

/-- The CRC of the frame head in `SEND`, appended to it, and one exchange of the whole (rules R150 and R152). -/
def sendWithCrc (c : Cfg) (s : State) : State := transceive c c.cmdTransceive (appendCrc (crcCalc c s))

/-- RDPAGE of `page` (rule R150). -/
def rdPage (c : Cfg) (page : Byte) (s : State) : State := sendWithCrc c (readFrame page s)

/-- RDPAGE after acceptance. -/
def runRdpage (c : Cfg) (s : State) : State :=
  let s := rdPage c s.argA s
  finish (pageResponse s) s

/-- The meaning of RDPAGE. -/
def execRdpage (page : Byte) (s : State) : Host.Outcome State Fault Refusal :=
  perform (.rdpage page) (runRdpage Config.cfg) s

/-- WRPAGE of the four bytes `d` to `page` (rule R152); its results are dropped by every caller (rule R153). -/
def wrPage (c : Cfg) (page : Byte) (d : PageData) (s : State) : State := sendWithCrc c (writeFrame page d s)

/-- WRPAGE after acceptance. -/
def runWrpage (c : Cfg) (s : State) : State := finish .done (wrPage c s.argA (operandPage s) s)

/-- The meaning of WRPAGE. -/
def execWrpage (page b0 b1 b2 b3 : Byte) (s : State) : Host.Outcome State Fault Refusal :=
  perform (.wrpage page b0 b1 b2 b3) (runWrpage Config.cfg) s

end Sys2Proof.Machine
end

