-- ==== Sys2Proof/Machine/Presence.lean ====
section
/-!
DEFINITION. REQPRES and ANTICOLL: the tag-presence detector and the anticollision framer
(43_presence_anticollision.md).
-/

namespace Sys2Proof.Machine

/-- REQPRES with the request code `mode` (rule R140): the 7-bit framing, then one exchange. -/
def reqPres (c : Cfg) (mode : Byte) (s : State) : State :=
  let s := wrReg c c.aBitFraming vFrame7 s
  transceive c c.cmdTransceive (requestFrame mode s)

/-- REQPRES after acceptance. -/
def runReqpres (c : Cfg) (s : State) : State :=
  let s := reqPres c s.argA s
  finish (presenceResponse s) s

/-- The meaning of REQPRES. -/
def execReqpres (mode : Byte) (s : State) : Host.Outcome State Fault Refusal :=
  perform (.reqpres mode) (runReqpres Config.cfg) s

/-- ANTICOLL (rule R142): the full-byte framing, then one exchange. -/
def antiColl (c : Cfg) (s : State) : State :=
  let s := wrReg c c.aBitFraming vFrame8 s
  transceive c c.cmdTransceive (anticollFrame s)

/-- ANTICOLL after acceptance. -/
def runAnticoll (c : Cfg) (s : State) : State :=
  let s := antiColl c s
  finish (identifierResponse s) s

/-- The meaning of ANTICOLL. -/
def execAnticoll (s : State) : Host.Outcome State Fault Refusal := perform .anticoll (runAnticoll Config.cfg) s

end Sys2Proof.Machine
end

