-- ==== Sys2Proof/Machine/Session.lean ====
section
/-!
DEFINITION. RDTEXT and WRTEXT: the session orchestration (45_session.md).
-/

namespace Sys2Proof.Machine

/-- The gate of a session (rule R160): REQPRES with mode 0x26, then ANTICOLL unless it failed; passed exactly
when `STATUS` is 0 at its end. -/
def gate (c : Cfg) (s : State) : State :=
  let s := reqPres c airReqIdle s
  if s.status = statusOk then antiColl c s else s

/-- A session whose gate failed answers NULL; otherwise `pages` runs (rule R160). -/
def session (c : Cfg) (pages : State → State) (s : State) : State :=
  let s := gate c s
  if s.status = statusOk then pages s else finish .null s

/-! ## RDTEXT (rule R161) -/

/-- The page loop of RDTEXT over the page numbers `ps`. -/
def readPages (c : Cfg) : List Byte → State → State
  | [], s => s
  | p :: ps, s => readPages c ps (appendPage (rdPage c p { s with page := p }))

/-- RDTEXT after a passed gate: pages 4, 5, 6, 7. -/
def readWindow (c : Cfg) (s : State) : State :=
  let s := readPages c [4#8, 5#8, 6#8, 7#8] (clearOut s)
  finish (.text s.out) s

/-- RDTEXT after acceptance. -/
def runRdtext (c : Cfg) (s : State) : State := session c (readWindow c) s

/-- The meaning of RDTEXT. -/
def execRdtext (s : State) : Host.Outcome State Fault Refusal := perform .rdtext (runRdtext Config.cfg) s

/-! ## WRTEXT (rules R162 to R164) -/

/-- WRPAGE of the chunk of page `PAGE` (rule R163). -/
def writeChunk (c : Cfg) (s : State) : State := sendWithCrc c (chunkFrame s)

/-- `k` iterations of the chunk loop. -/
def writeChunks (c : Cfg) : Nat → State → State
  | 0, s => s
  | k + 1, s => writeChunks c k (nextPage (writeChunk c s))

/-- WRTEXT after a passed gate: pad, write every chunk, report success (rule R164). -/
def writeText (c : Cfg) (s : State) : State :=
  let s := beginChunks s
  finish (.written 1) (writeChunks c (s.text.length / pageBytes) s)

/-- WRTEXT after acceptance. -/
def runWrtext (c : Cfg) (s : State) : State := session c (writeText c) s

/-- The meaning of WRTEXT. -/
def execWrtext (text : List Byte) (s : State) : Host.Outcome State Fault Refusal :=
  perform (.wrtext text) (runWrtext Config.cfg) s

end Sys2Proof.Machine
end

