-- ==== Sys2Proof/Machine/Transport.lean ====
section
/-!
DEFINITION. INIT, WRREG and RDREG: the operations of one transaction (40_register_transport.md, and rule R165
of 45_session.md).
-/

namespace Sys2Proof.Machine

/-! ## INIT (rule R165) -/

/-- The soft-reset write: `WRREG(A_COMMAND, 0x0F)`. -/
def softReset (c : Cfg) (s : State) : State := wrReg c c.aCommand cmdSoftReset s

/-- INIT after acceptance. -/
def runInit (c : Cfg) (s : State) : State := finish .done (softReset c s)

/-- The meaning of INIT. -/
def execInit (s : State) : Host.Outcome State Fault Refusal := perform .init (runInit Config.cfg) s

/-! ## WRREG (rule R100) -/

/-- WRREG after acceptance. -/
def runWrreg (c : Cfg) (s : State) : State := finish .done (wrReg c s.argA s.argV s)

/-- The meaning of WRREG. -/
def execWrreg (addr value : Byte) (s : State) : Host.Outcome State Fault Refusal :=
  perform (.wrreg addr value) (runWrreg Config.cfg) s

/-! ## RDREG (rule R101) -/

/-- RDREG after acceptance. -/
def runRdreg (c : Cfg) (s : State) : State :=
  let r := rdReg c s.argA s
  finish (.value r.1) r.2

/-- The meaning of RDREG. -/
def execRdreg (addr : Byte) (s : State) : Host.Outcome State Fault Refusal :=
  perform (.rdreg addr) (runRdreg Config.cfg) s

end Sys2Proof.Machine
end

