-- ==== Sys2Proof/Machine/Dispatch.lean ====
section
/-!
DEFINITION. The dispatch: one arm per constructor of Instr.
-/

namespace Sys2Proof.Machine

/-- The meaning of a request of operation `i` presented in the state `s` (rule R76). -/
def exec (i : Instr) (s : State) : Host.Outcome State Fault Refusal :=
  match i with
  | .init => Sys2Proof.Machine.execInit s
  | .wrreg addr value => Sys2Proof.Machine.execWrreg addr value s
  | .rdreg addr => Sys2Proof.Machine.execRdreg addr s
  | .crccalc data => Sys2Proof.Machine.execCrccalc data s
  | .transcv cmd frame => Sys2Proof.Machine.execTranscv cmd frame s
  | .reqpres mode => Sys2Proof.Machine.execReqpres mode s
  | .anticoll => Sys2Proof.Machine.execAnticoll s
  | .rdpage page => Sys2Proof.Machine.execRdpage page s
  | .wrpage page b0 b1 b2 b3 => Sys2Proof.Machine.execWrpage page b0 b1 b2 b3 s
  | .rdtext => Sys2Proof.Machine.execRdtext s
  | .wrtext text => Sys2Proof.Machine.execWrtext text s

end Sys2Proof.Machine
end

