-- ==== Sys2Proof/Machine/Sequencer.lean ====
section
/-!
DEFINITION. The sequencer at the grain of rule R10: `tick` performs the one transaction `PHASE` stands for and moves
`PHASE` on (rules R27 and R28), nested operations expanded in place; `cycle` adds the acceptance of a request
(rule R77). What a tick does to the registers are the operations of the meanings; this file only orders them.
-/

namespace Sys2Proof.Machine

/-- `PHASE` moves to `p`. -/
def goTo (p : Phase) (s : State) : State := { s with phase := p }

/-- The operation in flight is the one whose opcode byte is that of `i` (rule R20: `OPC`). -/
def State.runs (s : State) (i : Instr) : Bool := s.opc == i.opcode

/-- The first step of CRCCALC. -/
def enterCrc (s : State) : State := goTo (.crc .clearRead) s

/-- Step S0 of TRANSCV, which is no transaction, and its first transaction (rule R121). -/
def enterTrx (x : Exchange) (s : State) : State := goTo (.trx x .enable) (clearResults s)

/-- The load loop is entered at index 0; without bytes to load it is passed over (rules R111, R123). -/
def enterLoad (load command : Phase) (s : State) : State :=
  let s := clearIdx s
  goTo (if s.send = [] then command else load) s

/-- After one iteration of the load loop. -/
def afterLoad (load command : Phase) (s : State) : State :=
  goTo (if s.idx.toNat < s.send.length then load else command) s

/-- The request code of REQPRES: its operand, or 0x26 in a session (rules R140 and R160). -/
def presenceMode (s : State) : Byte := if s.runs (.reqpres 0) then s.argA else airReqIdle

/-- The command code of TRANSCV: its operand when host-issued, else `CMD_TRANSCEIVE` (rule R120). -/
def trxCommand (c : Cfg) (x : Exchange) (s : State) : Byte :=
  match x with
  | .host => s.argA
  | .request => c.cmdTransceive
  | .anticoll => c.cmdTransceive
  | .page => c.cmdTransceive

/-- The end of CRCCALC: its response, or the exchange of a page operation. -/
def afterCrc (s : State) : State :=
  if s.runs (.crccalc []) then finish (crcResponse s) s else enterTrx .page (appendCrc s)

/-- One transaction of CRCCALC (rule R110). -/
def tickCrc (c : Cfg) (k : CrcStep) (s : State) : State :=
  match k with
  | .clearRead => goTo (.crc .clearWrite) (readTmp c c.aDivIrq s)
  | .clearWrite => goTo (.crc .flushRead) (writeClear c c.aDivIrq c.mCrcDone.byte s)
  | .flushRead => goTo (.crc .flushWrite) (readTmp c c.aFifoLevel s)
  | .flushWrite => enterLoad (.crc .load) (.crc .command) (writeSet c c.aFifoLevel c.mFlush.byte s)
  | .load => afterLoad (.crc .load) (.crc .command) (loadOne c s)
  | .command => goTo (.crc .poll) (clearCrcPoll (wrReg c c.aCommand c.cmdCalcCrc s))
  | .poll =>
    let s := crcPollRead c s
    goTo (.crc (if crcDone c s.tmp || s.pollC.toNat == nCrcPoll then .resultLow else .poll)) s
  | .resultLow => goTo (.crc .resultHigh) (readCrcLow c s)
  | .resultHigh => afterCrc (readCrcHigh c s)

/-- The next page of RDTEXT's loop, or its end (rule R161). -/
def afterReadPage (s : State) : State :=
  let s := appendPage s
  if s.page = pageLastRead then finish (.text s.out) s
  else
    let s := nextPage s
    enterCrc (readFrame s.page s)

/-- The next chunk of WRTEXT's loop, or its end (rule R163). -/
def afterWritePage (s : State) : State :=
  if chunkIndex s + pageBytes < s.text.length then enterCrc (chunkFrame (nextPage s))
  else finish (.written 1) (nextPage s)

/-- After a passed gate: the page loop of the session in flight (rules R161 and R164). -/
def enterPages (s : State) : State :=
  if s.runs .rdtext then enterCrc (readFrame pageFirst { clearOut s with page := pageFirst })
  else
    let s := beginChunks s
    if s.text = [] then finish (.written 1) s else enterCrc (chunkFrame s)

/-- The end of an exchange: the response of the operation in flight, or its next step (rules R140, R142, R150,
R152, R160, R161, R163). -/
def afterTrx (x : Exchange) (s : State) : State :=
  match x with
  | .host => finish (exchangeResponse s) s
  | .request =>
    if s.runs (.reqpres 0) then finish (presenceResponse s) s
    else if s.status = statusOk then goTo .framing8 s
    else finish .null s
  | .anticoll =>
    if s.runs .anticoll then finish (identifierResponse s) s
    else if s.status = statusOk then enterPages s
    else finish .null s
  | .page =>
    if s.runs (.rdpage 0) then finish (pageResponse s) s
    else if s.runs (.wrpage 0 0 0 0 0) then finish .done s
    else if s.runs .rdtext then afterReadPage s
    else afterWritePage s

/-- One transaction of TRANSCV (rule R120). -/
def tickTrx (c : Cfg) (x : Exchange) (k : TrxStep) (s : State) : State :=
  match k with
  | .enable => goTo (.trx x .idle) (wrReg c c.aComIEn c.vIrqEn s)
  | .idle => goTo (.trx x .flushRead) (wrReg c c.aCommand c.cmdIdle s)
  | .flushRead => goTo (.trx x .flushWrite) (readTmp c c.aFifoLevel s)
  | .flushWrite => enterLoad (.trx x .load) (.trx x .command) (writeSet c c.aFifoLevel c.mFlush.byte s)
  | .load => afterLoad (.trx x .load) (.trx x .command) (loadOne c s)
  | .command => goTo (.trx x .startRead) (wrReg c c.aCommand (trxCommand c x s) s)
  | .startRead => goTo (.trx x .startWrite) (readTmp c c.aBitFraming s)
  | .startWrite => goTo (.trx x .poll) (clearPoll (writeSet c c.aBitFraming mStart s))
  | .poll =>
    let s := trxPollRead c s
    goTo (.trx x (if s.seen || s.pollT.toNat == nTrxPoll then .stopRead else .poll)) s
  | .stopRead => goTo (.trx x .stopWrite) (readTmp c c.aBitFraming s)
  | .stopWrite =>
    let s := writeClear c c.aBitFraming mStart s
    if s.seen then goTo (.trx x .error) s else afterTrx x s
  | .error =>
    let s := readError c s
    if hasError s.err then afterTrx x s else goTo (.trx x .level) (succeed s)
  | .level => goTo (.trx x .control) (readLevel c s)
  | .control =>
    let s := clearIdx (readControl c s)
    if harvestCount s.n = 0 then afterTrx x s else goTo (.trx x .harvest) s
  | .harvest =>
    let s := harvestOne c s
    if s.idx.toNat < harvestCount s.n then goTo (.trx x .harvest) s else afterTrx x s

/-- One transaction of the operation in flight (rules R28 and R70); nothing where none is. -/
def tick (c : Cfg) (s : State) : State :=
  match s.phase with
  | .idle => s
  | .softReset => finish .done (softReset c s)
  | .regWrite => finish .done (wrReg c s.argA s.argV s)
  | .regRead =>
    let r := rdReg c s.argA s
    finish (.value r.1) r.2
  | .framing7 =>
    let s := wrReg c c.aBitFraming vFrame7 s
    enterTrx .request (requestFrame (presenceMode s) s)
  | .framing8 => enterTrx .anticoll (anticollFrame (wrReg c c.aBitFraming vFrame8 s))
  | .crc k => tickCrc c k s
  | .trx x k => tickTrx c x k s

/-- What an operation does after acceptance and before its first transaction: step S0 of TRANSCV, and the frame heads
of RDPAGE and WRPAGE (rules R121, R150 and R152). -/
def beginSteps (i : Instr) (s : State) : State :=
  match i with
  | .init => s
  | .wrreg _ _ => s
  | .rdreg _ => s
  | .crccalc _ => s
  | .transcv _ _ => clearResults s
  | .reqpres _ => s
  | .anticoll => s
  | .rdpage _ => readFrame s.argA s
  | .wrpage _ _ _ _ _ => writeFrame s.argA (operandPage s) s
  | .rdtext => s
  | .wrtext _ => s

/-- Acceptance, up to the first transaction of operation `i` (rule R77). -/
def startOp (i : Instr) (s : State) : State := beginSteps i (accept i s)

/-- The machine at the grain of rule R10: while `BUSY` = 1 one transaction, and a request waits (rules R77 and
R221); while `BUSY` = 0 the acceptance of the request presented, or its refusal (rules R77 and R92). -/
def cycle (c : Cfg) (s : State) : State :=
  if s.busy then tick c s
  else
    match s.requests with
    | [] => s
    | d :: _ =>
      match decode d with
      | .ok i => startOp i (takeRequest s)
      | .error _ => refuse (takeRequest s)

end Sys2Proof.Machine
end

