-- ==== Sys2Proof/Machine/Step.lean ====
section
/-!
DEFINITION. One step of the machine, and the placing of a request where the next step takes it.
-/

namespace Sys2Proof.Machine

/-- One step. While an operation is in flight it goes on by one transaction and a request waits (rules R77 and
R221). Otherwise the request presented leaves the port, is decoded, and runs to its end, or is answered
REFUSED when malformed (rule R92); with no request the block stays idle (rule R36). -/
def step (s : State) : Host.Outcome State Fault Refusal :=
  if s.busy then .next (cycle Config.cfg s)
  else
    match s.requests with
    | [] => .next s
    | d :: _ =>
      match decode d with
      | .ok i => exec i (takeRequest s)
      | .error _ => .next (refuse (takeRequest s))

/-- `s` with the descriptor whose first `nbits` bits are `w` presented at the host port of an idle block, so
that the next step takes it (log entry 9). -/
def State.withFetchWord (s : State) (nbits w : Nat) : State :=
  present (tableDescriptor nbits w) { s with busy := false, phase := .idle }

end Sys2Proof.Machine
end

