-- ==== Sys2Proof/Safety.lean ====
section
/-!
DEFINITION. The terms claims are stated in: the operations after acceptance under any configuration, the ends of
the poll loops, the traces of CRCCALC and TRANSCV written out, malformed descriptors, the bounds of rule
R227, and the invariant of the block.
-/

namespace Sys2Proof.Machine

/-! ## Running operations -/

/-- Operation `i` from its acceptance to its end, under the configuration `c`; `exec` is this for `Config.cfg`. -/
def operate (c : Cfg) (i : Instr) (s : State) : State :=
  match i with
  | .init => runInit c (accept i s)
  | .wrreg _ _ => runWrreg c (accept i s)
  | .rdreg _ => runRdreg c (accept i s)
  | .crccalc _ => runCrccalc c (accept i s)
  | .transcv _ _ => runTranscv c (accept i s)
  | .reqpres _ => runReqpres c (accept i s)
  | .anticoll => runAnticoll c (accept i s)
  | .rdpage _ => runRdpage c (accept i s)
  | .wrpage _ _ _ _ _ => runWrpage c (accept i s)
  | .rdtext => runRdtext c (accept i s)
  | .wrtext _ => runWrtext c (accept i s)

/-- Requests issued one after the other, each after the one before has ended (rule R73). -/
def execAll : List Instr → State → Host.Outcome State Fault Refusal
  | [], s => .next s
  | i :: is, s =>
    match exec i s with
    | .next t => execAll is t
    | .fault r => .fault r
    | .refused r => .refused r

/-- The outside of the block cannot tell `a` from `b`: the transport has carried the same, and the chip is about
to answer the same. -/
def SameOutside (a b : State) : Prop := a.bus = b.bus ∧ ∀ k, a.answer k = b.answer k

/-! ## Poll loops and traces -/

/-- A poll loop that reads the answers `f 0`, `f 1`, ... and tests `mask` ends after `p` reads: it reads at least
once and at most `ceiling` times, and stops at the first read that shows a bit of `mask` (rules R112, R124). -/
structure PollEnds (ceiling : Nat) (mask : Byte) (f : Nat → Byte) (p : Nat) : Prop where
  atLeastOnce : 1 ≤ p
  atMost : p ≤ ceiling
  notBefore : ∀ j, j + 1 < p → f j &&& mask = 0
  stops : p = ceiling ∨ f (p - 1) &&& mask ≠ 0

/-- The FIFO load: one write per byte, in index order (rules R111 and R123). -/
def loadTrace (c : Cfg) (bytes : List Byte) : List Xact := bytes.map (Xact.write c.aFifoData)

/-- `k` reads of register `a` that return `f 0`, `f 1`, ... -/
def readTrace (a : Byte) (f : Nat → Byte) (k : Nat) : List Xact := (List.range k).map fun j => .read a (f j)

/-- The trace of CRCCALC over `data` when the chip answers `f 0`, `f 1`, ... and the poll makes `p` reads
(rule R110). -/
def crcTrace (c : Cfg) (data : List Byte) (f : Nat → Byte) (p : Nat) : List Xact :=
  [.read c.aDivIrq (f 0), .write c.aDivIrq (f 0 &&& ~~~c.mCrcDone.byte),
    .read c.aFifoLevel (f 1), .write c.aFifoLevel (f 1 ||| c.mFlush.byte)]
  ++ loadTrace c data ++ [.write c.aCommand c.cmdCalcCrc] ++ readTrace c.aDivIrq (fun j => f (2 + j)) p
  ++ [.read c.aCrcResultL (f (2 + p)), .read c.aCrcResultH (f (3 + p))]

/-- The trace of TRANSCV, steps S1 to S8, with command `cmd` and frame `frame` when the chip answers `f 0`, `f 1`,
... and the poll makes `p` reads (rules R120 to R125). -/
def exchangeTrace (c : Cfg) (cmd : Byte) (frame : List Byte) (f : Nat → Byte) (p : Nat) : List Xact :=
  [.write c.aComIEn c.vIrqEn, .write c.aCommand c.cmdIdle,
    .read c.aFifoLevel (f 0), .write c.aFifoLevel (f 0 ||| c.mFlush.byte)]
  ++ loadTrace c frame
  ++ [.write c.aCommand cmd, .read c.aBitFraming (f 1), .write c.aBitFraming (f 1 ||| 0x80#8)]
  ++ readTrace c.aComIrq (fun j => f (2 + j)) p
  ++ [.read c.aBitFraming (f (2 + p)), .write c.aBitFraming (f (2 + p) &&& 0x7F#8)]

/-- The trace of TRANSCV, steps S12 and S13, when the chip answers `f 0`, `f 1`, ... (rules R129 and R130). -/
def receiveTrace (c : Cfg) (f : Nat → Byte) : List Xact :=
  [.read c.aFifoLevel (f 0), .read c.aControl (f 1)]
  ++ readTrace c.aFifoData (fun k => f (2 + k)) (min (f 0).toNat 16)

/-- The valid-bit count of rule R129 from the byte of the FIFO level register and that of the control register. -/
def validBitCount (level control : Byte) : Int :=
  let rem := control.toNat % 8
  if rem ≠ 0 then ((level.toNat : Int) - 1) * 8 + rem else (level.toNat : Int) * 8

/-! ## Sessions -/

/-- The four bytes a page read whose response stands in `s` contributes to a read session's text; nothing
where `ok` is 0 (rule R161). -/
def pageText (s : State) : List Byte :=
  match s.response with
  | some (.page _ _ (some d)) => [d.b0, d.b1, d.b2, d.b3]
  | _ => []

/-- The text of WRTEXT padded as rule R162 says: to the least multiple of 4 that is at least its length, with
the byte 32. -/
def paddedText (text : List Byte) : List Byte :=
  text ++ List.replicate ((text.length + 3) / 4 * 4 - text.length) 32#8

/-- The page writes of a write session (rule R163): chunk `k` goes to page `4 + k`. -/
def pageWrites (text : List Byte) : List Instr :=
  let t := paddedText text
  (List.range (t.length / 4)).map fun k =>
    .wrpage (BitVec.ofNat 8 (4 + k)) (t.getD (4 * k) 0) (t.getD (4 * k + 1) 0) (t.getD (4 * k + 2) 0) (t.getD (4 * k + 3) 0)

/-! ## Descriptors -/

/-- A malformed descriptor (rule R91), said of the bytes alone: a reserved opcode, a length other than rule R78 gives,
or a text length above 1008; and, by the model's deduction (log entry 7, DEDUCED), no opcode byte at all. -/
def Malformed (d : List Byte) : Prop :=
  match d with
  | [] => True
  | op :: rest =>
    match op.toNat with
    | 0 | 6 | 9 => rest.length ≠ 0
    | 2 | 5 | 7 => rest.length ≠ 1
    | 1 => rest.length ≠ 2
    | 8 => rest.length ≠ 5
    | 3 => rest.length < 1 ∨ rest.length ≠ 1 + (rest.getD 0 0).toNat
    | 4 => rest.length < 2 ∨ rest.length ≠ 2 + (rest.getD 1 0).toNat
    | 10 =>
      rest.length < 2 ∨ rest.length ≠ 2 + ((rest.getD 0 0).toNat + 256 * (rest.getD 1 0).toNat) ∨
        1008 < (rest.getD 0 0).toNat + 256 * (rest.getD 1 0).toNat
    | _ => True

/-- Where the operands of `i` stand after acceptance (rule R78, last column). -/
def OperandsLanded (i : Instr) (t : State) : Prop :=
  match i with
  | .init => True
  | .wrreg addr value => t.argA = addr ∧ t.argV = value
  | .rdreg addr => t.argA = addr
  | .crccalc data => t.send = data
  | .transcv cmd frame => t.argA = cmd ∧ t.send = frame
  | .reqpres mode => t.argA = mode
  | .anticoll => True
  | .rdpage page => t.argA = page
  | .wrpage page b0 b1 b2 b3 => t.argA = page ∧ t.send.drop 2 = [b0, b1, b2, b3]
  | .rdtext => True
  | .wrtext text => t.text = text

/-- The response records rule R79 gives each operation, with the ranges it gives their fields. -/
def ResponseFits (i : Instr) (r : Response) : Prop :=
  match i with
  | .init => r = .done
  | .wrreg _ _ => r = .done
  | .rdreg _ => ∃ v, r = .value v
  | .crccalc _ => ∃ low high, r = .crc low high
  | .transcv _ _ => ∃ status recv vbc, r = .exchange status recv vbc ∧ (status = 0 ∨ status = 2) ∧
      recv.length ≤ 16 ∧ -7 ≤ vbc ∧ vbc ≤ 2040
  | .reqpres _ => ∃ status vbc, r = .presence status vbc ∧ (status = 0 ∨ status = 2)
  | .anticoll => ∃ status recv, r = .identifier status recv ∧ (status = 0 ∨ status = 2) ∧ recv.length ≤ 16
  | .rdpage _ => ∃ status recv data, r = .page status recv data ∧ (status = 0 ∨ status = 2) ∧ recv.length ≤ 16
  | .wrpage _ _ _ _ _ => r = .done
  | .rdtext => r = .null ∨ ∃ out, r = .text out ∧ out.length % 4 = 0 ∧ out.length ≤ 16
  | .wrtext _ => r = .null ∨ r = .written 1

/-! ## Accesses (rule R31) -/

/-- The accesses rule R31 lists, one line per register, for the operations that are built on the transport; `cmds` are
the command codes the operation issues (rule R34). The registers are told apart by name: two names may share an
address (rule R13). -/
def AccessListed (c : Cfg) (cmds : List Byte) (x : Xact) : Prop :=
  (∃ cmd ∈ cmds, x = .write c.aCommand cmd) ∨
  x = .write c.aComIEn c.vIrqEn ∨
  (∃ v, x = .read c.aComIrq v) ∨
  (∃ v, x = .read c.aDivIrq v) ∨ (∃ v, x = .write c.aDivIrq (v &&& ~~~c.mCrcDone.byte)) ∨
  (∃ v, x = .read c.aError v) ∨
  (∃ v, x = .write c.aFifoData v) ∨ (∃ v, x = .read c.aFifoData v) ∨
  (∃ v, x = .read c.aFifoLevel v) ∨ (∃ v, x = .write c.aFifoLevel (v ||| c.mFlush.byte)) ∨
  (∃ v, x = .read c.aControl v) ∨
  (∃ v, x = .read c.aBitFraming v) ∨ x = .write c.aBitFraming 0x07#8 ∨ x = .write c.aBitFraming 0x00#8 ∨
  (∃ v, x = .write c.aBitFraming (v ||| 0x80#8)) ∨ (∃ v, x = .write c.aBitFraming (v &&& 0x7F#8)) ∨
  (∃ v, x = .read c.aCrcResultL v) ∨ (∃ v, x = .read c.aCrcResultH v)

/-- The command codes an operation may write to the command register (rule R34): a host-issued TRANSCV its operand
besides `CMD_IDLE`, INIT only the soft reset, and the others the parameters. -/
def commandCodes (c : Cfg) : Instr → List Byte
  | .init => [0x0F#8]
  | .wrreg _ _ => []
  | .rdreg _ => []
  | .crccalc _ => [c.cmdCalcCrc]
  | .transcv cmd _ => [c.cmdIdle, cmd]
  | .reqpres _ => [c.cmdIdle, c.cmdTransceive]
  | .anticoll => [c.cmdIdle, c.cmdTransceive]
  | .rdpage _ => [c.cmdCalcCrc, c.cmdIdle, c.cmdTransceive]
  | .wrpage _ _ _ _ _ => [c.cmdCalcCrc, c.cmdIdle, c.cmdTransceive]
  | .rdtext => [c.cmdCalcCrc, c.cmdIdle, c.cmdTransceive]
  | .wrtext _ => [c.cmdCalcCrc, c.cmdIdle, c.cmdTransceive]

/-! ## Bounds (rule R227) -/

/-- The column "least" of rule R227. -/
def leastXacts : Instr → Nat
  | .init => 1
  | .wrreg _ _ => 1
  | .rdreg _ => 1
  | .crccalc data => data.length + 8
  | .transcv _ frame => frame.length + 11
  | .reqpres _ => 13
  | .anticoll => 14
  | .rdpage _ => 25
  | .wrpage _ _ _ _ _ => 33
  | .rdtext => 13
  | .wrtext _ => 13

/-- The column "most" of rule R227. -/
def mostXacts : Instr → Nat
  | .init => 1
  | .wrreg _ _ => 1
  | .rdreg _ => 1
  | .crccalc data => data.length + 262
  | .transcv _ frame => frame.length + 2028
  | .reqpres _ => 2030
  | .anticoll => 2031
  | .rdpage _ => 2296
  | .wrpage _ _ _ _ _ => 2304
  | .rdtext => 13245
  | .wrtext _ => 584669

/-! ## The invariant -/

/-- The operation in flight, by its opcode, has the step `PHASE` stands for (rules R27 and R28). -/
def phaseFits (opc : Byte) : Phase → Bool
  | .idle => true
  | .softReset => opc == 0x00#8
  | .regWrite => opc == 0x01#8
  | .regRead => opc == 0x02#8
  | .framing7 => opc == 0x05#8 || opc == 0x09#8 || opc == 0x0A#8
  | .framing8 => opc == 0x06#8 || opc == 0x09#8 || opc == 0x0A#8
  | .crc _ => opc == 0x03#8 || opc == 0x07#8 || opc == 0x08#8 || opc == 0x09#8 || opc == 0x0A#8
  | .trx .host _ => opc == 0x04#8
  | .trx .request _ => opc == 0x05#8 || opc == 0x09#8 || opc == 0x0A#8
  | .trx .anticoll _ => opc == 0x06#8 || opc == 0x09#8 || opc == 0x0A#8
  | .trx .page _ => opc == 0x07#8 || opc == 0x08#8 || opc == 0x09#8 || opc == 0x0A#8

/-- The phases of a page access. -/
def inPageAccess : Phase → Bool
  | .crc _ => true
  | .trx .page _ => true
  | _ => false

/-- What holds of the transceive registers at each step of TRANSCV (rules R121 to R130). -/
def trxFits (s : State) : TrxStep → Prop
  | .load => s.status = statusErr ∧ s.recv = [] ∧ s.vbc = 0 ∧ s.idx.toNat < s.send.length
  | .poll => s.status = statusErr ∧ s.recv = [] ∧ s.vbc = 0 ∧ s.seen = false ∧ s.pollT.toNat < nTrxPoll
  | .level => s.status = statusOk ∧ s.recv = [] ∧ s.vbc = 0
  | .control => s.status = statusOk ∧ s.recv = []
  | .harvest => s.status = statusOk ∧ s.recv.length = s.idx.toNat ∧ s.idx.toNat < harvestCount s.n
  | _ => s.status = statusErr ∧ s.recv = [] ∧ s.vbc = 0

/-- What holds of the registers at each phase: the loop indices and counters stay below their bounds, and the
counters of a session stay inside its pages (rules R111, R112, R123, R161, R163). -/
def phaseInv (s : State) : Phase → Prop
  | .crc .load => s.idx.toNat < s.send.length
  | .crc .poll => s.pollC.toNat < nCrcPoll
  | .trx _ k => trxFits s k
  | _ => True

/-- The block's invariant. -/
structure BlockInv (s : State) : Prop where
  /-- Between transactions chip-select is released (rules R36 and R65). -/
  csReleased : s.cs = false
  /-- `PHASE` stands for a step exactly while `BUSY` = 1 (rule R27). -/
  busyPhase : s.busy = true ↔ s.phase ≠ .idle
  /-- The step belongs to the operation in flight. -/
  phaseOwner : phaseFits s.opc s.phase = true
  /-- What the step needs of the registers. -/
  phaseNeeds : phaseInv s s.phase
  /-- `STATUS` is 0 or 2 (rule R22). -/
  statusRange : s.status = statusOk ∨ s.status = statusErr
  /-- Status 2 comes with an empty `RECV` and a zero `VBC` (rule R26). -/
  failedEmpty : s.status = statusErr → s.recv = [] ∧ s.vbc = 0
  /-- `VBC` is in the range of rule R24. -/
  vbcRange : -7 ≤ s.vbc.toInt ∧ s.vbc.toInt ≤ 2040
  /-- `POLLT` does not pass its ceiling (rule R201). -/
  pollRange : s.pollT.toNat ≤ nTrxPoll
  /-- The buffers stay within their capacities (rule R25). -/
  sendFits : s.send.length ≤ sendCap
  recvFits : s.recv.length ≤ recvCap
  outFits : s.out.length ≤ 16 ∧ s.out.length % 4 = 0
  textFits : s.text.length ≤ textMax
  /-- A frame head whose CRC is being taken leaves room for the two CRC bytes (rule R87). -/
  frameHead : (∃ k, s.phase = .crc k) → s.opc ≠ 0x03#8 → s.send.length ≤ 6
  /-- A read session is at a page of its window, and has a page's bytes for each page before it at most (R161). -/
  readWindow : s.opc = 0x09#8 → inPageAccess s.phase = true →
    4 ≤ s.page.toNat ∧ s.page.toNat ≤ 7 ∧ s.out.length ≤ 4 * (s.page.toNat - 4)
  /-- A write session is at a page whose chunk lies in the padded text (rule R163). -/
  writeWindow : s.opc = 0x0A#8 → inPageAccess s.phase = true →
    4 ≤ s.page.toNat ∧ chunkIndex s + 4 ≤ s.text.length ∧ s.text.length % 4 = 0

end Sys2Proof.Machine
end

