-- ==== Sys2Proof/Certificates/Slice0/Obligations.lean ====
section
/-!
DEFINITION. The statements about the machine, each from the numbered rules of spec/.
-/

open Sys2Proof Sys2Proof.Machine

/-! ## Encoding -/

/-- Decoding the descriptor of a well-formed instruction gives it back, with every operand at every value a
descriptor can carry (rules R78 and R80). -/
def Obligations.DecodeOfEncodeIsIdentity : Prop :=
  ∀ i : Instr, i.wellFormed = true → decode (encode i) = .ok i

/-- A descriptor the decoder accepts is the encoding of the instruction it gives, and that is well formed: no byte
of a descriptor is ignored (rules R78 and R81). -/
def Obligations.EncodeOfDecodeIsIdentity : Prop :=
  ∀ (d : List Byte) (i : Instr), decode d = .ok i → i.wellFormed = true ∧ encode i = d

/-- The decoder refuses exactly the malformed descriptors: those of rule R91, and the empty one. That a descriptor with
no opcode byte is malformed is the model's deduction (log entry 7, DEDUCED); rule R91 does not name it. -/
def Obligations.DecoderRefusesExactlyTheMalformed : Prop :=
  ∀ d : List Byte, (∃ e, decode d = .error e) ↔ Malformed d

/-- Descriptors written out in 95_test_vectors.md decode to the requests they stand for, and two malformed ones are
refused by name. The last stands for the head of V-SES-4, without the text bytes, so it is too short as well as too
long a text: which of the two names the decoder gives it is the model's choice (log entry 7), and so are the decoder's
names of errors altogether; the spec says only that both are malformed (rule R91). -/
def Obligations.VectorDescriptorsDecode : Prop :=
  decode [0x00] = .ok .init ∧
  decode [0x01, 0x0D, 0x07] = .ok (.wrreg 0x0D 0x07) ∧
  decode [0x02, 0x06] = .ok (.rdreg 0x06) ∧
  decode [0x03, 0x02, 0x30, 0x04] = .ok (.crccalc [0x30, 0x04]) ∧
  decode [0x04, 0x0C, 0x02, 0x93, 0x20] = .ok (.transcv 0x0C [0x93, 0x20]) ∧
  decode [0x05, 0x26] = .ok (.reqpres 0x26) ∧
  decode [0x06] = .ok .anticoll ∧
  decode [0x07, 0x04] = .ok (.rdpage 0x04) ∧
  decode [0x08, 0x04, 0x41, 0x42, 0x20, 0x20] = .ok (.wrpage 0x04 0x41 0x42 0x20 0x20) ∧
  decode [0x09] = .ok .rdtext ∧
  decode [0x0A, 0x02, 0x00, 0x41, 0x42] = .ok (.wrtext [0x41, 0x42]) ∧
  decode [0x0B] = .error (.reservedOpcode 0x0B) ∧
  decode [0x0A, 0xF1, 0x03] = .error (.textTooLong 1009)

/-! ## The host port and the step -/

/-- When the descriptor presented to an idle block decodes to a well-formed instruction, the step is `exec` of it,
once the descriptor has left the port; the step adds nothing else. Rules R77 and R78 say that the request is accepted
and how it is read. That one step is the whole operation, where decision D1 makes a step one transaction, is the
model's choice (log entry 5, DESIGN CHOICE), and so is that the descriptor leaves the list of those presented (log
entry 6, DESIGN CHOICE). -/
def Obligations.StepRunsTheDecodedRequest : Prop :=
  ∀ (s : State) (d : List Byte) (rest : List (List Byte)) (i : Instr),
    s.busy = false → s.requests = d :: rest → decode d = .ok i → i.wellFormed = true →
      step s = exec i { s with requests := rest }

/-- A malformed descriptor: no transaction, no register changed, the answer REFUSED (rule R92). That this takes one step
in which the transient `BUSY` is not seen, and that the empty descriptor is malformed, are the model's deductions (log
entry 7, DEDUCED); that the descriptor leaves the list of those presented is its choice (log entry 6, DESIGN
CHOICE). -/
def Obligations.MalformedRequestIsRefused : Prop :=
  ∀ (s : State) (d : List Byte) (rest : List (List Byte)),
    s.busy = false → s.requests = d :: rest → Malformed d →
      step s = .next { s with requests := rest, response := some .refused }

/-- A request presented while `BUSY` = 1 is not accepted and has no effect: the step leaves it at the port, and `exec`
changes nothing (rule R77). -/
def Obligations.BusyBlockAcceptsNoRequest : Prop :=
  ∀ s : State, s.busy = true →
    (∃ t, step s = .next t ∧ t.requests = s.requests) ∧ ∀ i : Instr, exec i s = .next s

/-- Acceptance (rules R77 and R78): `BUSY` and `OPC` are set, the operands land in their registers, and no transaction is
made yet. That the descriptor leaves the port at acceptance, the two clauses on `requests`, is the model's choice (log
entry 6, DESIGN CHOICE); no rule says it. -/
def Obligations.AcceptanceLatchesTheOperands : Prop :=
  ∀ (s : State) (d : List Byte) (rest : List (List Byte)) (i : Instr),
    s.busy = false → s.requests = d :: rest → decode d = .ok i →
      ∃ t, t = accept i { s with requests := rest } ∧ t.busy = true ∧ t.opc = d.headD 0 ∧ OperandsLanded i t ∧
        t.requests = rest ∧ t.bus = s.bus ∧ (cycle Config.cfg s).opc = t.opc ∧ (cycle Config.cfg s).busy = true ∧
        (cycle Config.cfg s).bus = s.bus ∧ (cycle Config.cfg s).requests = rest

/-- An idle block with no request does nothing. -/
def Obligations.IdleBlockWaits : Prop :=
  ∀ s : State, s.busy = false → s.requests = [] → step s = .next s

/-- Reset leaves the block idle with chip-select released, and causes no transaction (rule R36). -/
def Obligations.ResetLeavesTheBlockIdle : Prop :=
  State.reset.busy = false ∧ State.reset.phase = .idle ∧ State.reset.cs = false ∧ State.reset.bus = [] ∧ step State.reset = .next State.reset

/-- The block raises nothing: from every state a step, and every operation, answers a next state (rule R180). -/
def Obligations.NothingIsRaised : Prop :=
  (∀ s : State, ∃ t, step s = .next t) ∧ ∀ (i : Instr) (s : State), ∃ t, exec i s = .next t

/-- Every operation that is accepted ends, with `BUSY` = 0 and a response record of the form rule R79 gives it
(rule R29); nothing is refused, and the requests that wait are untouched. -/
def Obligations.EveryOperationAnswers : Prop :=
  ∀ (i : Instr) (s : State), i.wellFormed = true → s.busy = false →
    ∃ t r, exec i s = .next t ∧ t.busy = false ∧ t.phase = .idle ∧ t.cs = false ∧ t.response = some r ∧
      ResponseFits i r ∧ t.requests = s.requests

/-! ## Register transport -/

/-- INIT: one write of 0x0F to the command register, the answer DONE, and nothing else (rule R165). -/
def Obligations.InitWritesTheSoftReset : Prop :=
  ∀ s : State, s.busy = false →
    exec .init s = .next { s with
      busy := false, phase := .idle, opc := 0x00, response := some .done, cs := false,
      bus := s.bus ++ wires Config.cfg [.write Config.cfg.aCommand 0x0F#8] }

/-- WRREG: chip-select, the address byte, the value, release; both received bytes discarded; no register written but
those the acceptance writes (rules R82 and R100). -/
def Obligations.WrregSendsOneWriteTransaction : Prop :=
  ∀ (addr value : Byte) (s : State), s.busy = false →
    exec (.wrreg addr value) s = .next { s with
      busy := false, phase := .idle, opc := 0x01, argA := addr, argV := value, response := some .done, cs := false,
      bus := s.bus ++ [.csAssert, .xfer (Config.cfg.waddr addr) none, .xfer value none, .csRelease] }

/-- RDREG: chip-select, the address byte, the dummy byte, release; the second received byte, the chip's next
answer, is the result, and no register is written but those the acceptance writes (rules R82 and R101). -/
def Obligations.RdregReturnsTheChipsAnswer : Prop :=
  ∀ (addr : Byte) (s : State), s.busy = false →
    ∃ t, exec (.rdreg addr) s = .next t ∧
      t = { s with
        busy := false, phase := .idle, opc := 0x02, argA := addr, response := some (.value (s.answer 0)), cs := false,
        bus := s.bus ++ [.csAssert, .xfer (Config.cfg.raddr addr) none,
          .xfer Config.cfg.dummy (some (s.answer 0)), .csRelease],
        answers := t.answers, drawn := t.drawn } ∧
      ∀ k, t.answer k = s.answer (k + 1)

/-- SETBITS: exactly two transactions, a read and the write of the byte read with the mask set (rule R102). -/
def Obligations.SetBitsReadsThenWrites : Prop :=
  ∀ (c : Cfg) (a m : Byte) (s : State),
    (setBits c a m s).bus = s.bus ++ wires c [.read a (s.answer 0), .write a (s.answer 0 ||| m)] ∧
      (setBits c a m s).tmp = s.answer 0 ∧ ∀ k, (setBits c a m s).answer k = s.answer (k + 1)

/-- CLRBITS: exactly two transactions, a read and the write of the byte read with the mask cleared (rule R103). -/
def Obligations.ClrBitsReadsThenWrites : Prop :=
  ∀ (c : Cfg) (a m : Byte) (s : State),
    (clrBits c a m s).bus = s.bus ++ wires c [.read a (s.answer 0), .write a (s.answer 0 &&& ~~~m)] ∧
      (clrBits c a m s).tmp = s.answer 0 ∧ ∀ k, (clrBits c a m s).answer k = s.answer (k + 1)

/-- SOFTRESET, `WRREG A_COMMAND, 0x0F`, does outside the block what INIT does (rule R95). -/
def Obligations.SoftResetIsInit : Prop :=
  ∀ s : State, s.busy = false →
    ∃ t u, exec .init s = .next t ∧ exec (Instr.softReset Config.cfg) s = .next u ∧
      t.response = u.response ∧ SameOutside t u

/-! ## CRCCALC -/

/-- CRCCALC: its trace in full, a poll of 1 to 255 reads that stops at the first with the done bit, and then the two
bytes the result registers return, low byte first; they stay in `CRCLO` and `CRCHI`, and `POLLC` counts the reads
(rules R110 to R113). -/
def Obligations.CrccalcDrivesTheCrcUnit : Prop :=
  ∀ (data : List Byte) (s : State), data.length ≤ 255 → s.busy = false →
    ∃ p t, PollEnds 255 Config.cfg.mCrcDone.byte (fun j => s.answer (2 + j)) p ∧
      exec (.crccalc data) s = .next t ∧ t.response = some (.crc (s.answer (2 + p)) (s.answer (3 + p))) ∧
      t.crcLo = s.answer (2 + p) ∧ t.crcHi = s.answer (3 + p) ∧ t.pollC.toNat = p ∧
      t.bus = s.bus ++ wires Config.cfg (crcTrace Config.cfg data s.answer p) ∧
      ∀ k, t.answer k = s.answer (4 + p + k)

/-- An exhausted CRC poll is silent: after 255 reads without the done bit CRCCALC answers DONE with the two bytes the
result registers return, as after a completed one (rules R114 and R117). -/
def Obligations.CrcTimeOutIsSilent : Prop :=
  ∀ (data : List Byte) (s : State), data.length ≤ 255 → s.busy = false →
    (∀ j, j < 255 → s.answer (2 + j) &&& Config.cfg.mCrcDone.byte = 0) →
      ∃ t, exec (.crccalc data) s = .next t ∧ t.response = some (.crc (s.answer 257) (s.answer 258)) ∧
        t.bus = s.bus ++ wires Config.cfg (crcTrace Config.cfg data s.answer 255) ∧
        (crcTrace Config.cfg data s.answer 255).length = 262 + data.length

/-! ## TRANSCV -/

/-- The time-out of TRANSCV: bit 0 is never set in 2000 reads; the result is `(2, [], 0)`, `POLLT` is 2000 and `SEEN`
0, and no register is read after the start bit is cleared (rule R126). -/
def Obligations.TransceiveTimesOut : Prop :=
  ∀ (cmd : Byte) (frame : List Byte) (s : State), frame.length ≤ 255 → s.busy = false →
    (∀ j, j < 2000 → s.answer (2 + j) &&& 0x01#8 = 0) →
      ∃ t, exec (.transcv cmd frame) s = .next t ∧ t.response = some (.exchange 2 [] 0) ∧
        t.status = 2 ∧ t.recv = [] ∧ t.vbc = 0 ∧ t.pollT = 2000 ∧ t.seen = false ∧
        t.bus = s.bus ++ wires Config.cfg (exchangeTrace Config.cfg cmd frame s.answer 2000) ∧
        ∀ k, t.answer k = s.answer (2003 + k)

/-- The chip error of TRANSCV: the poll sees bit 0 and then the error-status register shows a bit of 0x1B; the result
is `(2, [], 0)`, `ERR` is the byte read, and nothing more is read (rule R127). -/
def Obligations.TransceiveReportsAChipError : Prop :=
  ∀ (cmd : Byte) (frame : List Byte) (p : Nat) (s : State), frame.length ≤ 255 → s.busy = false →
    PollEnds 2000 0x01#8 (fun j => s.answer (2 + j)) p → s.answer (1 + p) &&& 0x01#8 ≠ 0 →
    s.answer (3 + p) &&& 0x1B#8 ≠ 0 →
      ∃ t, exec (.transcv cmd frame) s = .next t ∧ t.response = some (.exchange 2 [] 0) ∧
        t.status = 2 ∧ t.recv = [] ∧ t.vbc = 0 ∧ t.pollT.toNat = p ∧ t.seen = true ∧ t.err = s.answer (3 + p) ∧
        t.bus = s.bus ++ wires Config.cfg
          (exchangeTrace Config.cfg cmd frame s.answer p ++ [.read Config.cfg.aError (s.answer (3 + p))]) ∧
        ∀ k, t.answer k = s.answer (4 + p + k)

/-- The success of TRANSCV: the poll sees bit 0 and no bit of 0x1B is set, whatever the other bits; then the level
register, the control register and `min(n, 16)` bytes of the FIFO are read, status is 0, `N` is the whole level byte,
`REM` the low 3 bits of the control byte, and the valid-bit count is by the formula over the unclamped `n` (rules R127
to R130). -/
def Obligations.TransceiveSucceeds : Prop :=
  ∀ (cmd : Byte) (frame : List Byte) (p : Nat) (s : State), frame.length ≤ 255 → s.busy = false →
    PollEnds 2000 0x01#8 (fun j => s.answer (2 + j)) p → s.answer (1 + p) &&& 0x01#8 ≠ 0 →
    s.answer (3 + p) &&& 0x1B#8 = 0 →
      ∃ t, exec (.transcv cmd frame) s = .next t ∧
        t.recv = (List.range (min (s.answer (4 + p)).toNat 16)).map (fun k => s.answer (6 + p + k)) ∧
        t.vbc.toInt = validBitCount (s.answer (4 + p)) (s.answer (5 + p)) ∧ t.status = 0 ∧
        t.response = some (.exchange 0 t.recv t.vbc.toInt) ∧
        t.pollT.toNat = p ∧ t.seen = true ∧ t.err = s.answer (3 + p) ∧ t.n = s.answer (4 + p) ∧
        t.rem.toNat = (s.answer (5 + p)).toNat % 8 ∧
        t.bus = s.bus ++ wires Config.cfg
          (exchangeTrace Config.cfg cmd frame s.answer p ++ .read Config.cfg.aError (s.answer (3 + p)) ::
            receiveTrace Config.cfg (fun k => s.answer (4 + p + k))) ∧
        ∀ k, t.answer k = s.answer (6 + p + min (s.answer (4 + p)).toNat 16 + k)

/-- The results of TRANSCV are never inconsistent: status 0 or 2, and status 2 with no byte and a zero count (rules
R22, R26 and R131). -/
def Obligations.TransceiveResultIsConsistent : Prop :=
  ∀ (cmd : Byte) (frame : List Byte) (s : State), frame.length ≤ 255 → s.busy = false →
    ∃ t status recv vbc, exec (.transcv cmd frame) s = .next t ∧ t.response = some (.exchange status recv vbc) ∧
      t.status = status ∧ t.recv = recv ∧ t.vbc.toInt = vbc ∧ (status = 0 ∨ status = 2) ∧
      (status = 2 → recv = [] ∧ vbc = 0)

/-! ## REQPRES and ANTICOLL -/

/-- REQPRES is the direct write of 0x07 to the bit-framing register and the exchange of the one-byte frame; it answers
with the status and the valid-bit count of the exchange (rule R140). -/
def Obligations.ReqpresIsAFramedTransceive : Prop :=
  ∀ (mode : Byte) (s : State), s.busy = false →
    ∃ t u status recv vbc, exec (.reqpres mode) s = .next t ∧ t.response = some (.presence status vbc) ∧
      execAll [.wrreg Config.cfg.aBitFraming 0x07#8, .transcv Config.cfg.cmdTransceive [mode]] s = .next u ∧
      u.response = some (.exchange status recv vbc) ∧ SameOutside t u

/-- ANTICOLL is the direct write of 0x00 to the bit-framing register and the exchange of `[0x93, 0x20]`; it answers
with the status and the received bytes of the exchange, whole (rule R142). -/
def Obligations.AnticollIsAFramedTransceive : Prop :=
  ∀ s : State, s.busy = false →
    ∃ t u status recv vbc, exec .anticoll s = .next t ∧ t.response = some (.identifier status recv) ∧
      execAll [.wrreg Config.cfg.aBitFraming 0x00#8, .transcv Config.cfg.cmdTransceive [0x93#8, 0x20#8]] s = .next u ∧
      u.response = some (.exchange status recv vbc) ∧ SameOutside t u

/-! ## RDPAGE and WRPAGE -/

/-- RDPAGE is CRCCALC over `[0x30, page]` and the exchange of these bytes with the two CRC bytes; it answers with the
status and the bytes of the exchange, and `ok` with the first four bytes as data exactly when the status is 0 and at
least four bytes came (rules R150 and R151). -/
def Obligations.RdpageIsCrccalcThenTransceive : Prop :=
  ∀ (page : Byte) (s : State), s.busy = false →
    ∃ t u v low high status recv vbc data,
      exec (.crccalc [0x30#8, page]) s = .next u ∧ u.response = some (.crc low high) ∧
      exec (.transcv Config.cfg.cmdTransceive [0x30#8, page, low, high]) u = .next v ∧
      v.response = some (.exchange status recv vbc) ∧
      exec (.rdpage page) s = .next t ∧ t.response = some (.page status recv data) ∧ SameOutside t v ∧
      (∀ d, data = some d ↔ status = 0 ∧ recv.take 4 = [d.b0, d.b1, d.b2, d.b3]) ∧
      (data = none ↔ status ≠ 0 ∨ recv.length < 4)

/-- WRPAGE is CRCCALC over `[0xA2, page, b0, b1, b2, b3]` and the exchange of these bytes with the two CRC bytes; it
answers DONE whatever the exchange gave (rules R152 and R153). -/
def Obligations.WrpageIsCrccalcThenTransceive : Prop :=
  ∀ (page b0 b1 b2 b3 : Byte) (s : State), s.busy = false →
    ∃ t u v low high,
      exec (.crccalc [0xA2#8, page, b0, b1, b2, b3]) s = .next u ∧ u.response = some (.crc low high) ∧
      exec (.transcv Config.cfg.cmdTransceive [0xA2#8, page, b0, b1, b2, b3, low, high]) u = .next v ∧
      exec (.wrpage page b0 b1 b2 b3) s = .next t ∧ t.response = some .done ∧ SameOutside t v

/-! ## Sessions -/

/-- RDTEXT: the gate is REQPRES 0x26 and then, if its status is 0, ANTICOLL; a failure answers NULL with no page
accessed; otherwise the pages 4 to 7 are read and the answer is their data in page order, a failed page giving
nothing (rules R160 and R161). The clause that `PAGE` is 7 afterwards is the model's deduction (log entry 10, DEDUCED):
rule R21 calls the register dead once the operation has ended. -/
def Obligations.ReadSessionIsGateThenFourPages : Prop :=
  ∀ s : State, s.busy = false →
    ∃ t u status vbc, exec .rdtext s = .next t ∧ exec (.reqpres 0x26#8) s = .next u ∧
      u.response = some (.presence status vbc) ∧
      (status ≠ 0 → t.response = some .null ∧ SameOutside t u) ∧
      (status = 0 → ∃ v status' recv, exec .anticoll u = .next v ∧ v.response = some (.identifier status' recv) ∧
        (status' ≠ 0 → t.response = some .null ∧ SameOutside t v) ∧
        (status' = 0 → ∃ w4 w5 w6 w7, exec (.rdpage 4#8) v = .next w4 ∧ exec (.rdpage 5#8) w4 = .next w5 ∧
          exec (.rdpage 6#8) w5 = .next w6 ∧ exec (.rdpage 7#8) w6 = .next w7 ∧
          t.out = pageText w4 ++ pageText w5 ++ pageText w6 ++ pageText w7 ∧ t.response = some (.text t.out) ∧
          t.page = 7 ∧ SameOutside t w7))

/-- WRTEXT: the same gate; a failure answers NULL with no page accessed; otherwise every 4-byte chunk of the padded
text is written, chunk `k` to page `4 + k`, and the answer is success whatever the writes gave (rules R160 and R162 to
R164). The clause on `PAGE` afterwards, 4 plus the number of chunks in 8 bits, is the model's deduction from the
increment after the last chunk (log entry 10, DEDUCED): rule R21 calls the register dead once the operation has ended,
and after 252 chunks it gives 0, where rule R55 speaks of the pages 4 to 255 that are written. -/
def Obligations.WriteSessionIsGateThenPageWrites : Prop :=
  ∀ (text : List Byte) (s : State), text.length ≤ 1008 → s.busy = false →
    ∃ t u status vbc, exec (.wrtext text) s = .next t ∧ exec (.reqpres 0x26#8) s = .next u ∧
      u.response = some (.presence status vbc) ∧
      (status ≠ 0 → t.response = some .null ∧ SameOutside t u) ∧
      (status = 0 → ∃ v status' recv, exec .anticoll u = .next v ∧ v.response = some (.identifier status' recv) ∧
        (status' ≠ 0 → t.response = some .null ∧ SameOutside t v) ∧
        (status' = 0 → ∃ w, execAll (pageWrites text) v = .next w ∧ t.response = some (.written 1) ∧
          t.text = paddedText text ∧ t.page = 4 + BitVec.ofNat 8 ((paddedText text).length / 4) ∧ SameOutside t w))

/-- With no tag present, bit 0 never set, RDTEXT and WRTEXT both answer NULL after the 2011 transactions of REQPRES and
none of the anticollision or of a page. -/
def Obligations.SessionsWithoutATagAnswerNull : Prop :=
  ∀ (text : List Byte) (s : State), text.length ≤ 1008 → s.busy = false →
    (∀ j, j < 2000 → s.answer (2 + j) &&& 0x01#8 = 0) →
      ∃ t u xs, exec .rdtext s = .next t ∧ exec (.wrtext text) s = .next u ∧ t.response = some .null ∧
        u.response = some .null ∧ t.bus = s.bus ++ wires Config.cfg xs ∧ u.bus = t.bus ∧ xs.length = 2011 ∧
        xs = .write Config.cfg.aBitFraming 0x07#8 ::
          exchangeTrace Config.cfg Config.cfg.cmdTransceive [0x26#8] s.answer 2000

/-- The padding of WRTEXT is to the least multiple of 4 that is at least the length, with the byte 32, the text
unchanged before it (rule R162). -/
def Obligations.PaddingIsToTheLeastMultipleOfFour : Prop :=
  ∀ text : List Byte,
    (padText text).length % 4 = 0 ∧ text.length ≤ (padText text).length ∧ (padText text).length < text.length + 4 ∧
      (padText text).take text.length = text ∧ ∀ b ∈ (padText text).drop text.length, b = 32#8

/-! ## The whole machine -/

/-- An operation is a deterministic function of its operands and of the bytes the chip returns: two idle states that
agree on these alone, and on no register, give equal traces and equal responses (rules R11 and R21). -/
def Obligations.OperationsReadNoEarlierState : Prop :=
  ∀ (i : Instr) (a b : State), i.wellFormed = true → a.busy = false → b.busy = false →
    (∀ k, a.answer k = b.answer k) →
      ∃ t u xs, exec i a = .next t ∧ exec i b = .next u ∧ t.response = u.response ∧
        t.bus = a.bus ++ wires Config.cfg xs ∧ u.bus = b.bus ++ wires Config.cfg xs ∧
        ∀ k, t.answer k = u.answer k

/-- Every operation ends within the bounds of rule R227, and SETBITS and CLRBITS take two transactions. -/
def Obligations.TransactionsAreBounded : Prop :=
  (∀ (i : Instr) (s : State), i.wellFormed = true → s.busy = false →
    ∃ t xs, exec i s = .next t ∧ t.bus = s.bus ++ wires Config.cfg xs ∧
      leastXacts i ≤ xs.length ∧ xs.length ≤ mostXacts i) ∧
  ∀ (c : Cfg) (a m : Byte) (s : State),
    (∃ xs, (setBits c a m s).bus = s.bus ++ wires c xs ∧ xs.length = 2) ∧
      ∃ xs, (clrBits c a m s).bus = s.bus ++ wires c xs ∧ xs.length = 2

/-- The transport carries whole register transactions and nothing else, from every state (rule R105). -/
def Obligations.BusCarriesOnlyRegisterTransactions : Prop :=
  ∀ s t : State, step s = .next t → ∃ xs, t.bus = s.bus ++ wires Config.cfg xs

/-- The operations built on the transport make only the accesses rule R31 lists, and write to the command register only
the codes of rule R34. -/
def Obligations.OnlyListedAccesses : Prop :=
  ∀ (i : Instr) (s : State), i.wellFormed = true → s.busy = false → (∀ a v, i ≠ .wrreg a v) → (∀ a, i ≠ .rdreg a) →
    ∃ t xs, exec i s = .next t ∧ t.bus = s.bus ++ wires Config.cfg xs ∧
      ∀ x ∈ xs, AccessListed Config.cfg (commandCodes Config.cfg i) x

/-- While an operation is in flight a step performs exactly one transaction; a read returns the chip's next answer
(rules R10, R28 and R70). -/
def Obligations.StepInFlightIsOneTransaction : Prop :=
  ∀ s : State, s.busy = true → s.phase ≠ .idle →
    ∃ (t : State) (x : Xact), step s = .next t ∧ t.bus = s.bus ++ x.wire Config.cfg ∧
      ((∃ a v, x = .write a v ∧ ∀ k, t.answer k = s.answer k) ∨
        ∃ a, x = .read a (s.answer 0) ∧ ∀ k, t.answer k = s.answer (k + 1))

/-- The sequencer at the grain of one transaction reaches exactly what the meaning of the operation gives: from a
request presented to an idle block, one acceptance and `n` transactions, all with `BUSY` = 1 and `n` within the
bounds of rule R227, lead to the state the step answers (rules R27 to R29). -/
def Obligations.SequencerReachesTheMeaning : Prop :=
  ∀ (s : State) (d : List Byte) (rest : List (List Byte)) (i : Instr),
    s.busy = false → s.requests = d :: rest → decode d = .ok i →
      ∃ t n, step s = .next t ∧ (cycle Config.cfg)^[n + 1] s = t ∧ t.busy = false ∧ leastXacts i ≤ n ∧
        n ≤ mostXacts i ∧ ∀ k, 1 ≤ k → k ≤ n → ((cycle Config.cfg)^[k] s).busy = true

/-- Reset meets the invariant. Rule R36 gives `BUSY` = 0, no operation in flight and chip-select released; `STATUS`,
`VBC`, `POLLT`, the buffers and every other register it leaves unspecified meet the invariant by the values the model
chose for them at reset (log entry 4, DESIGN CHOICE, unsafe). -/
def Obligations.ResetMeetsTheInvariant : Prop := BlockInv State.reset

/-- Every step keeps the invariant: chip-select released, `PHASE` meaningful exactly while busy and owned by the
operation in flight, the status 0 or 2, status 2 with no byte and a zero count, the valid-bit count in its range, the
poll counters below their ceilings, the buffers within their capacities, and the counters of a session within its
pages (rules R20 to R28). -/
def Obligations.StepKeepsTheInvariant : Prop :=
  ∀ s t : State, BlockInv s → step s = .next t → BlockInv t

/-! ## Frames -/

/-- INIT, WRREG and RDREG change, besides the response, the phase, chip-select, the transport and the answers taken,
only `OPC`, `ARG_A` and `ARG_V`; INIT neither operand register and RDREG not `ARG_V`. -/
def Obligations.TransportOperationsFrame : Prop :=
  (∀ s t : State, exec .init s = .next t →
    t = { s with opc := t.opc, phase := t.phase, response := t.response, cs := t.cs, bus := t.bus }) ∧
  (∀ (addr value : Byte) (s t : State), exec (.wrreg addr value) s = .next t →
    t = { s with opc := t.opc, argA := t.argA, argV := t.argV, phase := t.phase, response := t.response, cs := t.cs,
                 bus := t.bus }) ∧
  ∀ (addr : Byte) (s t : State), exec (.rdreg addr) s = .next t →
    t = { s with opc := t.opc, argA := t.argA, phase := t.phase, response := t.response, cs := t.cs, bus := t.bus,
                 answers := t.answers, drawn := t.drawn }

/-- CRCCALC changes, besides the response, the phase, chip-select, the transport and the answers taken, only `OPC`,
`SEND`, `TMP`, `POLLC`, `IDX`, `CRCLO` and `CRCHI`. -/
def Obligations.CrccalcFrame : Prop :=
  ∀ (data : List Byte) (s t : State), exec (.crccalc data) s = .next t →
    t = { s with opc := t.opc, send := t.send, tmp := t.tmp, pollC := t.pollC, idx := t.idx, crcLo := t.crcLo,
                 crcHi := t.crcHi, phase := t.phase, response := t.response, cs := t.cs, bus := t.bus,
                 answers := t.answers, drawn := t.drawn }

/-- TRANSCV, REQPRES and ANTICOLL change, besides the response, the phase, chip-select, the transport and the answers
taken, only `OPC`, `ARG_A`, `SEND` and the registers of the exchange; ANTICOLL not `ARG_A`. The CRC registers, the
session registers, `OUT` and `TEXT` are unchanged. -/
def Obligations.ExchangeOperationsFrame : Prop :=
  (∀ (cmd : Byte) (frame : List Byte) (s t : State), exec (.transcv cmd frame) s = .next t →
    t = { s with opc := t.opc, argA := t.argA, send := t.send, tmp := t.tmp, pollT := t.pollT, seen := t.seen,
                 status := t.status, err := t.err, n := t.n, rem := t.rem, vbc := t.vbc, idx := t.idx, recv := t.recv,
                 phase := t.phase, response := t.response, cs := t.cs, bus := t.bus, answers := t.answers,
                 drawn := t.drawn }) ∧
  (∀ (mode : Byte) (s t : State), exec (.reqpres mode) s = .next t →
    t = { s with opc := t.opc, argA := t.argA, send := t.send, tmp := t.tmp, pollT := t.pollT, seen := t.seen,
                 status := t.status, err := t.err, n := t.n, rem := t.rem, vbc := t.vbc, idx := t.idx, recv := t.recv,
                 phase := t.phase, response := t.response, cs := t.cs, bus := t.bus, answers := t.answers,
                 drawn := t.drawn }) ∧
  ∀ s t : State, exec .anticoll s = .next t →
    t = { s with opc := t.opc, send := t.send, tmp := t.tmp, pollT := t.pollT, seen := t.seen, status := t.status,
                 err := t.err, n := t.n, rem := t.rem, vbc := t.vbc, idx := t.idx, recv := t.recv, phase := t.phase,
                 response := t.response, cs := t.cs, bus := t.bus, answers := t.answers, drawn := t.drawn }

/-- RDPAGE and WRPAGE change, besides the response, the phase, chip-select, the transport and the answers taken, only
`OPC`, `ARG_A`, `SEND`, the registers of CRCCALC and those of the exchange. `ARG_V`, `PAGE`, `OUT` and `TEXT` are
unchanged. -/
def Obligations.PageOperationsFrame : Prop :=
  (∀ (page : Byte) (s t : State), exec (.rdpage page) s = .next t →
    t = { s with opc := t.opc, argA := t.argA, send := t.send, tmp := t.tmp, pollC := t.pollC, pollT := t.pollT,
                 seen := t.seen, crcLo := t.crcLo, crcHi := t.crcHi, status := t.status, err := t.err, n := t.n,
                 rem := t.rem, vbc := t.vbc, idx := t.idx, recv := t.recv, phase := t.phase, response := t.response,
                 cs := t.cs, bus := t.bus, answers := t.answers, drawn := t.drawn }) ∧
  ∀ (page b0 b1 b2 b3 : Byte) (s t : State), exec (.wrpage page b0 b1 b2 b3) s = .next t →
    t = { s with opc := t.opc, argA := t.argA, send := t.send, tmp := t.tmp, pollC := t.pollC, pollT := t.pollT,
                 seen := t.seen, crcLo := t.crcLo, crcHi := t.crcHi, status := t.status, err := t.err, n := t.n,
                 rem := t.rem, vbc := t.vbc, idx := t.idx, recv := t.recv, phase := t.phase, response := t.response,
                 cs := t.cs, bus := t.bus, answers := t.answers, drawn := t.drawn }

/-- RDTEXT changes neither operand register nor `TEXT`, and WRTEXT neither operand register nor `OUT`; neither touches
the requests that wait. -/
def Obligations.SessionsFrame : Prop :=
  (∀ s t : State, exec .rdtext s = .next t →
    t = { s with opc := t.opc, send := t.send, tmp := t.tmp, pollC := t.pollC, pollT := t.pollT, seen := t.seen,
                 crcLo := t.crcLo, crcHi := t.crcHi, status := t.status, err := t.err, n := t.n, rem := t.rem,
                 vbc := t.vbc, idx := t.idx, recv := t.recv, page := t.page, out := t.out, phase := t.phase,
                 response := t.response, cs := t.cs, bus := t.bus, answers := t.answers, drawn := t.drawn }) ∧
  ∀ (text : List Byte) (s t : State), exec (.wrtext text) s = .next t →
    t = { s with opc := t.opc, send := t.send, tmp := t.tmp, pollC := t.pollC, pollT := t.pollT, seen := t.seen,
                 crcLo := t.crcLo, crcHi := t.crcHi, status := t.status, err := t.err, n := t.n, rem := t.rem,
                 vbc := t.vbc, idx := t.idx, recv := t.recv, page := t.page, text := t.text, phase := t.phase,
                 response := t.response, cs := t.cs, bus := t.bus, answers := t.answers, drawn := t.drawn }

/-! ## The default address bytes -/

/-- Under the default address-byte scheme, which is general knowledge and not the source's (log entry 2), bit 7 tells
a read from a write, bit 0 is 0, and addresses that differ only in bits 7:6 give the same bytes (rules R51 and
R82). -/
def Obligations.DefaultAddressBytes : Prop :=
  ∀ a b : Byte, (Cfg.defaults.waddr a).getLsbD 7 = false ∧ (Cfg.defaults.raddr a).getLsbD 7 = true ∧
    (Cfg.defaults.waddr a).getLsbD 0 = false ∧ (Cfg.defaults.raddr a).getLsbD 0 = false ∧
    (a &&& 0x3F#8 = b &&& 0x3F#8 ↔ Cfg.defaults.waddr a = Cfg.defaults.waddr b) ∧
    (a &&& 0x3F#8 = b &&& 0x3F#8 ↔ Cfg.defaults.raddr a = Cfg.defaults.raddr b)
end

