-- ==== Sys2Proof/Laws/State.lean ====
section
/-!
SUPPORT. The small lemmas of the named updates of the state: one per field and update, by the update's definition.
-/

namespace Sys2Proof.Machine

theorem answer_congr {a b : State} (h : a.answers = b.answers) (h' : a.drawn = b.drawn) (k : Nat) :
    a.answer k = b.answer k := by
  simp only [State.answer, h, h']

/-! ## afterAnswers -/

@[simp] theorem afterAnswers_busy (s : State) (k : Nat) : (s.afterAnswers k).busy = s.busy := rfl
@[simp] theorem afterAnswers_phase (s : State) (k : Nat) : (s.afterAnswers k).phase = s.phase := rfl
@[simp] theorem afterAnswers_opc (s : State) (k : Nat) : (s.afterAnswers k).opc = s.opc := rfl
@[simp] theorem afterAnswers_argA (s : State) (k : Nat) : (s.afterAnswers k).argA = s.argA := rfl
@[simp] theorem afterAnswers_argV (s : State) (k : Nat) : (s.afterAnswers k).argV = s.argV := rfl
@[simp] theorem afterAnswers_tmp (s : State) (k : Nat) : (s.afterAnswers k).tmp = s.tmp := rfl
@[simp] theorem afterAnswers_pollC (s : State) (k : Nat) : (s.afterAnswers k).pollC = s.pollC := rfl
@[simp] theorem afterAnswers_pollT (s : State) (k : Nat) : (s.afterAnswers k).pollT = s.pollT := rfl
@[simp] theorem afterAnswers_seen (s : State) (k : Nat) : (s.afterAnswers k).seen = s.seen := rfl
@[simp] theorem afterAnswers_crcLo (s : State) (k : Nat) : (s.afterAnswers k).crcLo = s.crcLo := rfl
@[simp] theorem afterAnswers_crcHi (s : State) (k : Nat) : (s.afterAnswers k).crcHi = s.crcHi := rfl
@[simp] theorem afterAnswers_status (s : State) (k : Nat) : (s.afterAnswers k).status = s.status := rfl
@[simp] theorem afterAnswers_err (s : State) (k : Nat) : (s.afterAnswers k).err = s.err := rfl
@[simp] theorem afterAnswers_n (s : State) (k : Nat) : (s.afterAnswers k).n = s.n := rfl
@[simp] theorem afterAnswers_rem (s : State) (k : Nat) : (s.afterAnswers k).rem = s.rem := rfl
@[simp] theorem afterAnswers_vbc (s : State) (k : Nat) : (s.afterAnswers k).vbc = s.vbc := rfl
@[simp] theorem afterAnswers_page (s : State) (k : Nat) : (s.afterAnswers k).page = s.page := rfl
@[simp] theorem afterAnswers_idx (s : State) (k : Nat) : (s.afterAnswers k).idx = s.idx := rfl
@[simp] theorem afterAnswers_send (s : State) (k : Nat) : (s.afterAnswers k).send = s.send := rfl
@[simp] theorem afterAnswers_recv (s : State) (k : Nat) : (s.afterAnswers k).recv = s.recv := rfl
@[simp] theorem afterAnswers_out (s : State) (k : Nat) : (s.afterAnswers k).out = s.out := rfl
@[simp] theorem afterAnswers_text (s : State) (k : Nat) : (s.afterAnswers k).text = s.text := rfl
@[simp] theorem afterAnswers_response (s : State) (k : Nat) : (s.afterAnswers k).response = s.response := rfl
@[simp] theorem afterAnswers_requests (s : State) (k : Nat) : (s.afterAnswers k).requests = s.requests := rfl
@[simp] theorem afterAnswers_cs (s : State) (k : Nat) : (s.afterAnswers k).cs = s.cs := rfl
@[simp] theorem afterAnswers_bus (s : State) (k : Nat) : (s.afterAnswers k).bus = s.bus := rfl
@[simp] theorem afterAnswers_answers (s : State) (k : Nat) : (s.afterAnswers k).answers = s.answers.drop k := rfl
@[simp] theorem afterAnswers_drawn (s : State) (k : Nat) : (s.afterAnswers k).drawn = s.drawn + (k - s.answers.length) := rfl

/-! ## csAssert -/

@[simp] theorem csAssert_busy (s : State) : (csAssert s).busy = s.busy := rfl
@[simp] theorem csAssert_phase (s : State) : (csAssert s).phase = s.phase := rfl
@[simp] theorem csAssert_opc (s : State) : (csAssert s).opc = s.opc := rfl
@[simp] theorem csAssert_argA (s : State) : (csAssert s).argA = s.argA := rfl
@[simp] theorem csAssert_argV (s : State) : (csAssert s).argV = s.argV := rfl
@[simp] theorem csAssert_tmp (s : State) : (csAssert s).tmp = s.tmp := rfl
@[simp] theorem csAssert_pollC (s : State) : (csAssert s).pollC = s.pollC := rfl
@[simp] theorem csAssert_pollT (s : State) : (csAssert s).pollT = s.pollT := rfl
@[simp] theorem csAssert_seen (s : State) : (csAssert s).seen = s.seen := rfl
@[simp] theorem csAssert_crcLo (s : State) : (csAssert s).crcLo = s.crcLo := rfl
@[simp] theorem csAssert_crcHi (s : State) : (csAssert s).crcHi = s.crcHi := rfl
@[simp] theorem csAssert_status (s : State) : (csAssert s).status = s.status := rfl
@[simp] theorem csAssert_err (s : State) : (csAssert s).err = s.err := rfl
@[simp] theorem csAssert_n (s : State) : (csAssert s).n = s.n := rfl
@[simp] theorem csAssert_rem (s : State) : (csAssert s).rem = s.rem := rfl
@[simp] theorem csAssert_vbc (s : State) : (csAssert s).vbc = s.vbc := rfl
@[simp] theorem csAssert_page (s : State) : (csAssert s).page = s.page := rfl
@[simp] theorem csAssert_idx (s : State) : (csAssert s).idx = s.idx := rfl
@[simp] theorem csAssert_send (s : State) : (csAssert s).send = s.send := rfl
@[simp] theorem csAssert_recv (s : State) : (csAssert s).recv = s.recv := rfl
@[simp] theorem csAssert_out (s : State) : (csAssert s).out = s.out := rfl
@[simp] theorem csAssert_text (s : State) : (csAssert s).text = s.text := rfl
@[simp] theorem csAssert_response (s : State) : (csAssert s).response = s.response := rfl
@[simp] theorem csAssert_requests (s : State) : (csAssert s).requests = s.requests := rfl
@[simp] theorem csAssert_cs (s : State) : (csAssert s).cs = true := rfl
@[simp] theorem csAssert_bus (s : State) : (csAssert s).bus = s.bus ++ [.csAssert] := rfl
@[simp] theorem csAssert_answers (s : State) : (csAssert s).answers = s.answers := rfl
@[simp] theorem csAssert_drawn (s : State) : (csAssert s).drawn = s.drawn := rfl

/-! ## csRelease -/

@[simp] theorem csRelease_busy (s : State) : (csRelease s).busy = s.busy := rfl
@[simp] theorem csRelease_phase (s : State) : (csRelease s).phase = s.phase := rfl
@[simp] theorem csRelease_opc (s : State) : (csRelease s).opc = s.opc := rfl
@[simp] theorem csRelease_argA (s : State) : (csRelease s).argA = s.argA := rfl
@[simp] theorem csRelease_argV (s : State) : (csRelease s).argV = s.argV := rfl
@[simp] theorem csRelease_tmp (s : State) : (csRelease s).tmp = s.tmp := rfl
@[simp] theorem csRelease_pollC (s : State) : (csRelease s).pollC = s.pollC := rfl
@[simp] theorem csRelease_pollT (s : State) : (csRelease s).pollT = s.pollT := rfl
@[simp] theorem csRelease_seen (s : State) : (csRelease s).seen = s.seen := rfl
@[simp] theorem csRelease_crcLo (s : State) : (csRelease s).crcLo = s.crcLo := rfl
@[simp] theorem csRelease_crcHi (s : State) : (csRelease s).crcHi = s.crcHi := rfl
@[simp] theorem csRelease_status (s : State) : (csRelease s).status = s.status := rfl
@[simp] theorem csRelease_err (s : State) : (csRelease s).err = s.err := rfl
@[simp] theorem csRelease_n (s : State) : (csRelease s).n = s.n := rfl
@[simp] theorem csRelease_rem (s : State) : (csRelease s).rem = s.rem := rfl
@[simp] theorem csRelease_vbc (s : State) : (csRelease s).vbc = s.vbc := rfl
@[simp] theorem csRelease_page (s : State) : (csRelease s).page = s.page := rfl
@[simp] theorem csRelease_idx (s : State) : (csRelease s).idx = s.idx := rfl
@[simp] theorem csRelease_send (s : State) : (csRelease s).send = s.send := rfl
@[simp] theorem csRelease_recv (s : State) : (csRelease s).recv = s.recv := rfl
@[simp] theorem csRelease_out (s : State) : (csRelease s).out = s.out := rfl
@[simp] theorem csRelease_text (s : State) : (csRelease s).text = s.text := rfl
@[simp] theorem csRelease_response (s : State) : (csRelease s).response = s.response := rfl
@[simp] theorem csRelease_requests (s : State) : (csRelease s).requests = s.requests := rfl
@[simp] theorem csRelease_cs (s : State) : (csRelease s).cs = false := rfl
@[simp] theorem csRelease_bus (s : State) : (csRelease s).bus = s.bus ++ [.csRelease] := rfl
@[simp] theorem csRelease_answers (s : State) : (csRelease s).answers = s.answers := rfl
@[simp] theorem csRelease_drawn (s : State) : (csRelease s).drawn = s.drawn := rfl

/-! ## xferDiscard -/

@[simp] theorem xferDiscard_busy (b : Byte) (s : State) : (xferDiscard b s).busy = s.busy := rfl
@[simp] theorem xferDiscard_phase (b : Byte) (s : State) : (xferDiscard b s).phase = s.phase := rfl
@[simp] theorem xferDiscard_opc (b : Byte) (s : State) : (xferDiscard b s).opc = s.opc := rfl
@[simp] theorem xferDiscard_argA (b : Byte) (s : State) : (xferDiscard b s).argA = s.argA := rfl
@[simp] theorem xferDiscard_argV (b : Byte) (s : State) : (xferDiscard b s).argV = s.argV := rfl
@[simp] theorem xferDiscard_tmp (b : Byte) (s : State) : (xferDiscard b s).tmp = s.tmp := rfl
@[simp] theorem xferDiscard_pollC (b : Byte) (s : State) : (xferDiscard b s).pollC = s.pollC := rfl
@[simp] theorem xferDiscard_pollT (b : Byte) (s : State) : (xferDiscard b s).pollT = s.pollT := rfl
@[simp] theorem xferDiscard_seen (b : Byte) (s : State) : (xferDiscard b s).seen = s.seen := rfl
@[simp] theorem xferDiscard_crcLo (b : Byte) (s : State) : (xferDiscard b s).crcLo = s.crcLo := rfl
@[simp] theorem xferDiscard_crcHi (b : Byte) (s : State) : (xferDiscard b s).crcHi = s.crcHi := rfl
@[simp] theorem xferDiscard_status (b : Byte) (s : State) : (xferDiscard b s).status = s.status := rfl
@[simp] theorem xferDiscard_err (b : Byte) (s : State) : (xferDiscard b s).err = s.err := rfl
@[simp] theorem xferDiscard_n (b : Byte) (s : State) : (xferDiscard b s).n = s.n := rfl
@[simp] theorem xferDiscard_rem (b : Byte) (s : State) : (xferDiscard b s).rem = s.rem := rfl
@[simp] theorem xferDiscard_vbc (b : Byte) (s : State) : (xferDiscard b s).vbc = s.vbc := rfl
@[simp] theorem xferDiscard_page (b : Byte) (s : State) : (xferDiscard b s).page = s.page := rfl
@[simp] theorem xferDiscard_idx (b : Byte) (s : State) : (xferDiscard b s).idx = s.idx := rfl
@[simp] theorem xferDiscard_send (b : Byte) (s : State) : (xferDiscard b s).send = s.send := rfl
@[simp] theorem xferDiscard_recv (b : Byte) (s : State) : (xferDiscard b s).recv = s.recv := rfl
@[simp] theorem xferDiscard_out (b : Byte) (s : State) : (xferDiscard b s).out = s.out := rfl
@[simp] theorem xferDiscard_text (b : Byte) (s : State) : (xferDiscard b s).text = s.text := rfl
@[simp] theorem xferDiscard_response (b : Byte) (s : State) : (xferDiscard b s).response = s.response := rfl
@[simp] theorem xferDiscard_requests (b : Byte) (s : State) : (xferDiscard b s).requests = s.requests := rfl
@[simp] theorem xferDiscard_cs (b : Byte) (s : State) : (xferDiscard b s).cs = s.cs := rfl
@[simp] theorem xferDiscard_bus (b : Byte) (s : State) : (xferDiscard b s).bus = s.bus ++ [.xfer b none] := rfl
@[simp] theorem xferDiscard_answers (b : Byte) (s : State) : (xferDiscard b s).answers = s.answers := rfl
@[simp] theorem xferDiscard_drawn (b : Byte) (s : State) : (xferDiscard b s).drawn = s.drawn := rfl

/-! ## xfer -/

@[simp] theorem xfer_busy (b : Byte) (s : State) : ((xfer b s).2).busy = s.busy := rfl
@[simp] theorem xfer_phase (b : Byte) (s : State) : ((xfer b s).2).phase = s.phase := rfl
@[simp] theorem xfer_opc (b : Byte) (s : State) : ((xfer b s).2).opc = s.opc := rfl
@[simp] theorem xfer_argA (b : Byte) (s : State) : ((xfer b s).2).argA = s.argA := rfl
@[simp] theorem xfer_argV (b : Byte) (s : State) : ((xfer b s).2).argV = s.argV := rfl
@[simp] theorem xfer_tmp (b : Byte) (s : State) : ((xfer b s).2).tmp = s.tmp := rfl
@[simp] theorem xfer_pollC (b : Byte) (s : State) : ((xfer b s).2).pollC = s.pollC := rfl
@[simp] theorem xfer_pollT (b : Byte) (s : State) : ((xfer b s).2).pollT = s.pollT := rfl
@[simp] theorem xfer_seen (b : Byte) (s : State) : ((xfer b s).2).seen = s.seen := rfl
@[simp] theorem xfer_crcLo (b : Byte) (s : State) : ((xfer b s).2).crcLo = s.crcLo := rfl
@[simp] theorem xfer_crcHi (b : Byte) (s : State) : ((xfer b s).2).crcHi = s.crcHi := rfl
@[simp] theorem xfer_status (b : Byte) (s : State) : ((xfer b s).2).status = s.status := rfl
@[simp] theorem xfer_err (b : Byte) (s : State) : ((xfer b s).2).err = s.err := rfl
@[simp] theorem xfer_n (b : Byte) (s : State) : ((xfer b s).2).n = s.n := rfl
@[simp] theorem xfer_rem (b : Byte) (s : State) : ((xfer b s).2).rem = s.rem := rfl
@[simp] theorem xfer_vbc (b : Byte) (s : State) : ((xfer b s).2).vbc = s.vbc := rfl
@[simp] theorem xfer_page (b : Byte) (s : State) : ((xfer b s).2).page = s.page := rfl
@[simp] theorem xfer_idx (b : Byte) (s : State) : ((xfer b s).2).idx = s.idx := rfl
@[simp] theorem xfer_send (b : Byte) (s : State) : ((xfer b s).2).send = s.send := rfl
@[simp] theorem xfer_recv (b : Byte) (s : State) : ((xfer b s).2).recv = s.recv := rfl
@[simp] theorem xfer_out (b : Byte) (s : State) : ((xfer b s).2).out = s.out := rfl
@[simp] theorem xfer_text (b : Byte) (s : State) : ((xfer b s).2).text = s.text := rfl
@[simp] theorem xfer_response (b : Byte) (s : State) : ((xfer b s).2).response = s.response := rfl
@[simp] theorem xfer_requests (b : Byte) (s : State) : ((xfer b s).2).requests = s.requests := rfl
@[simp] theorem xfer_cs (b : Byte) (s : State) : ((xfer b s).2).cs = s.cs := rfl
@[simp] theorem xfer_bus (b : Byte) (s : State) : ((xfer b s).2).bus = s.bus ++ [.xfer b (some (s.answer 0))] := rfl
@[simp] theorem xfer_answers (b : Byte) (s : State) : ((xfer b s).2).answers = s.answers.drop 1 := rfl
@[simp] theorem xfer_drawn (b : Byte) (s : State) : ((xfer b s).2).drawn = s.drawn + (1 - s.answers.length) := rfl

/-! ## wrReg -/

@[simp] theorem wrReg_busy (c : Cfg) (a v : Byte) (s : State) : (wrReg c a v s).busy = s.busy := by simp only [wrReg, csRelease_busy, xferDiscard_busy, csAssert_busy]
@[simp] theorem wrReg_phase (c : Cfg) (a v : Byte) (s : State) : (wrReg c a v s).phase = s.phase := by simp only [wrReg, csRelease_phase, xferDiscard_phase, csAssert_phase]
@[simp] theorem wrReg_opc (c : Cfg) (a v : Byte) (s : State) : (wrReg c a v s).opc = s.opc := by simp only [wrReg, csRelease_opc, xferDiscard_opc, csAssert_opc]
@[simp] theorem wrReg_argA (c : Cfg) (a v : Byte) (s : State) : (wrReg c a v s).argA = s.argA := by simp only [wrReg, csRelease_argA, xferDiscard_argA, csAssert_argA]
@[simp] theorem wrReg_argV (c : Cfg) (a v : Byte) (s : State) : (wrReg c a v s).argV = s.argV := by simp only [wrReg, csRelease_argV, xferDiscard_argV, csAssert_argV]
@[simp] theorem wrReg_tmp (c : Cfg) (a v : Byte) (s : State) : (wrReg c a v s).tmp = s.tmp := by simp only [wrReg, csRelease_tmp, xferDiscard_tmp, csAssert_tmp]
@[simp] theorem wrReg_pollC (c : Cfg) (a v : Byte) (s : State) : (wrReg c a v s).pollC = s.pollC := by simp only [wrReg, csRelease_pollC, xferDiscard_pollC, csAssert_pollC]
@[simp] theorem wrReg_pollT (c : Cfg) (a v : Byte) (s : State) : (wrReg c a v s).pollT = s.pollT := by simp only [wrReg, csRelease_pollT, xferDiscard_pollT, csAssert_pollT]
@[simp] theorem wrReg_seen (c : Cfg) (a v : Byte) (s : State) : (wrReg c a v s).seen = s.seen := by simp only [wrReg, csRelease_seen, xferDiscard_seen, csAssert_seen]
@[simp] theorem wrReg_crcLo (c : Cfg) (a v : Byte) (s : State) : (wrReg c a v s).crcLo = s.crcLo := by simp only [wrReg, csRelease_crcLo, xferDiscard_crcLo, csAssert_crcLo]
@[simp] theorem wrReg_crcHi (c : Cfg) (a v : Byte) (s : State) : (wrReg c a v s).crcHi = s.crcHi := by simp only [wrReg, csRelease_crcHi, xferDiscard_crcHi, csAssert_crcHi]
@[simp] theorem wrReg_status (c : Cfg) (a v : Byte) (s : State) : (wrReg c a v s).status = s.status := by simp only [wrReg, csRelease_status, xferDiscard_status, csAssert_status]
@[simp] theorem wrReg_err (c : Cfg) (a v : Byte) (s : State) : (wrReg c a v s).err = s.err := by simp only [wrReg, csRelease_err, xferDiscard_err, csAssert_err]
@[simp] theorem wrReg_n (c : Cfg) (a v : Byte) (s : State) : (wrReg c a v s).n = s.n := by simp only [wrReg, csRelease_n, xferDiscard_n, csAssert_n]
@[simp] theorem wrReg_rem (c : Cfg) (a v : Byte) (s : State) : (wrReg c a v s).rem = s.rem := by simp only [wrReg, csRelease_rem, xferDiscard_rem, csAssert_rem]
@[simp] theorem wrReg_vbc (c : Cfg) (a v : Byte) (s : State) : (wrReg c a v s).vbc = s.vbc := by simp only [wrReg, csRelease_vbc, xferDiscard_vbc, csAssert_vbc]
@[simp] theorem wrReg_page (c : Cfg) (a v : Byte) (s : State) : (wrReg c a v s).page = s.page := by simp only [wrReg, csRelease_page, xferDiscard_page, csAssert_page]
@[simp] theorem wrReg_idx (c : Cfg) (a v : Byte) (s : State) : (wrReg c a v s).idx = s.idx := by simp only [wrReg, csRelease_idx, xferDiscard_idx, csAssert_idx]
@[simp] theorem wrReg_send (c : Cfg) (a v : Byte) (s : State) : (wrReg c a v s).send = s.send := by simp only [wrReg, csRelease_send, xferDiscard_send, csAssert_send]
@[simp] theorem wrReg_recv (c : Cfg) (a v : Byte) (s : State) : (wrReg c a v s).recv = s.recv := by simp only [wrReg, csRelease_recv, xferDiscard_recv, csAssert_recv]
@[simp] theorem wrReg_out (c : Cfg) (a v : Byte) (s : State) : (wrReg c a v s).out = s.out := by simp only [wrReg, csRelease_out, xferDiscard_out, csAssert_out]
@[simp] theorem wrReg_text (c : Cfg) (a v : Byte) (s : State) : (wrReg c a v s).text = s.text := by simp only [wrReg, csRelease_text, xferDiscard_text, csAssert_text]
@[simp] theorem wrReg_response (c : Cfg) (a v : Byte) (s : State) : (wrReg c a v s).response = s.response := by simp only [wrReg, csRelease_response, xferDiscard_response, csAssert_response]
@[simp] theorem wrReg_requests (c : Cfg) (a v : Byte) (s : State) : (wrReg c a v s).requests = s.requests := by simp only [wrReg, csRelease_requests, xferDiscard_requests, csAssert_requests]
@[simp] theorem wrReg_cs (c : Cfg) (a v : Byte) (s : State) : (wrReg c a v s).cs = false := rfl
@[simp] theorem wrReg_bus (c : Cfg) (a v : Byte) (s : State) : (wrReg c a v s).bus = s.bus ++ (Xact.write a v).wire c := by simp [wrReg, Xact.wire]
@[simp] theorem wrReg_answers (c : Cfg) (a v : Byte) (s : State) : (wrReg c a v s).answers = s.answers := by simp only [wrReg, csRelease_answers, xferDiscard_answers, csAssert_answers]
@[simp] theorem wrReg_drawn (c : Cfg) (a v : Byte) (s : State) : (wrReg c a v s).drawn = s.drawn := by simp only [wrReg, csRelease_drawn, xferDiscard_drawn, csAssert_drawn]

/-! ## rdReg -/

@[simp] theorem rdReg_busy (c : Cfg) (a : Byte) (s : State) : ((rdReg c a s).2).busy = s.busy := by simp only [rdReg, csRelease_busy, xfer_busy, xferDiscard_busy, csAssert_busy]
@[simp] theorem rdReg_phase (c : Cfg) (a : Byte) (s : State) : ((rdReg c a s).2).phase = s.phase := by simp only [rdReg, csRelease_phase, xfer_phase, xferDiscard_phase, csAssert_phase]
@[simp] theorem rdReg_opc (c : Cfg) (a : Byte) (s : State) : ((rdReg c a s).2).opc = s.opc := by simp only [rdReg, csRelease_opc, xfer_opc, xferDiscard_opc, csAssert_opc]
@[simp] theorem rdReg_argA (c : Cfg) (a : Byte) (s : State) : ((rdReg c a s).2).argA = s.argA := by simp only [rdReg, csRelease_argA, xfer_argA, xferDiscard_argA, csAssert_argA]
@[simp] theorem rdReg_argV (c : Cfg) (a : Byte) (s : State) : ((rdReg c a s).2).argV = s.argV := by simp only [rdReg, csRelease_argV, xfer_argV, xferDiscard_argV, csAssert_argV]
@[simp] theorem rdReg_tmp (c : Cfg) (a : Byte) (s : State) : ((rdReg c a s).2).tmp = s.tmp := by simp only [rdReg, csRelease_tmp, xfer_tmp, xferDiscard_tmp, csAssert_tmp]
@[simp] theorem rdReg_pollC (c : Cfg) (a : Byte) (s : State) : ((rdReg c a s).2).pollC = s.pollC := by simp only [rdReg, csRelease_pollC, xfer_pollC, xferDiscard_pollC, csAssert_pollC]
@[simp] theorem rdReg_pollT (c : Cfg) (a : Byte) (s : State) : ((rdReg c a s).2).pollT = s.pollT := by simp only [rdReg, csRelease_pollT, xfer_pollT, xferDiscard_pollT, csAssert_pollT]
@[simp] theorem rdReg_seen (c : Cfg) (a : Byte) (s : State) : ((rdReg c a s).2).seen = s.seen := by simp only [rdReg, csRelease_seen, xfer_seen, xferDiscard_seen, csAssert_seen]
@[simp] theorem rdReg_crcLo (c : Cfg) (a : Byte) (s : State) : ((rdReg c a s).2).crcLo = s.crcLo := by simp only [rdReg, csRelease_crcLo, xfer_crcLo, xferDiscard_crcLo, csAssert_crcLo]
@[simp] theorem rdReg_crcHi (c : Cfg) (a : Byte) (s : State) : ((rdReg c a s).2).crcHi = s.crcHi := by simp only [rdReg, csRelease_crcHi, xfer_crcHi, xferDiscard_crcHi, csAssert_crcHi]
@[simp] theorem rdReg_status (c : Cfg) (a : Byte) (s : State) : ((rdReg c a s).2).status = s.status := by simp only [rdReg, csRelease_status, xfer_status, xferDiscard_status, csAssert_status]
@[simp] theorem rdReg_err (c : Cfg) (a : Byte) (s : State) : ((rdReg c a s).2).err = s.err := by simp only [rdReg, csRelease_err, xfer_err, xferDiscard_err, csAssert_err]
@[simp] theorem rdReg_n (c : Cfg) (a : Byte) (s : State) : ((rdReg c a s).2).n = s.n := by simp only [rdReg, csRelease_n, xfer_n, xferDiscard_n, csAssert_n]
@[simp] theorem rdReg_rem (c : Cfg) (a : Byte) (s : State) : ((rdReg c a s).2).rem = s.rem := by simp only [rdReg, csRelease_rem, xfer_rem, xferDiscard_rem, csAssert_rem]
@[simp] theorem rdReg_vbc (c : Cfg) (a : Byte) (s : State) : ((rdReg c a s).2).vbc = s.vbc := by simp only [rdReg, csRelease_vbc, xfer_vbc, xferDiscard_vbc, csAssert_vbc]
@[simp] theorem rdReg_page (c : Cfg) (a : Byte) (s : State) : ((rdReg c a s).2).page = s.page := by simp only [rdReg, csRelease_page, xfer_page, xferDiscard_page, csAssert_page]
@[simp] theorem rdReg_idx (c : Cfg) (a : Byte) (s : State) : ((rdReg c a s).2).idx = s.idx := by simp only [rdReg, csRelease_idx, xfer_idx, xferDiscard_idx, csAssert_idx]
@[simp] theorem rdReg_send (c : Cfg) (a : Byte) (s : State) : ((rdReg c a s).2).send = s.send := by simp only [rdReg, csRelease_send, xfer_send, xferDiscard_send, csAssert_send]
@[simp] theorem rdReg_recv (c : Cfg) (a : Byte) (s : State) : ((rdReg c a s).2).recv = s.recv := by simp only [rdReg, csRelease_recv, xfer_recv, xferDiscard_recv, csAssert_recv]
@[simp] theorem rdReg_out (c : Cfg) (a : Byte) (s : State) : ((rdReg c a s).2).out = s.out := by simp only [rdReg, csRelease_out, xfer_out, xferDiscard_out, csAssert_out]
@[simp] theorem rdReg_text (c : Cfg) (a : Byte) (s : State) : ((rdReg c a s).2).text = s.text := by simp only [rdReg, csRelease_text, xfer_text, xferDiscard_text, csAssert_text]
@[simp] theorem rdReg_response (c : Cfg) (a : Byte) (s : State) : ((rdReg c a s).2).response = s.response := by simp only [rdReg, csRelease_response, xfer_response, xferDiscard_response, csAssert_response]
@[simp] theorem rdReg_requests (c : Cfg) (a : Byte) (s : State) : ((rdReg c a s).2).requests = s.requests := by simp only [rdReg, csRelease_requests, xfer_requests, xferDiscard_requests, csAssert_requests]
@[simp] theorem rdReg_cs (c : Cfg) (a : Byte) (s : State) : ((rdReg c a s).2).cs = false := rfl
@[simp] theorem rdReg_bus (c : Cfg) (a : Byte) (s : State) : ((rdReg c a s).2).bus = s.bus ++ (Xact.read a (s.answer 0)).wire c := by
  simp [rdReg, Xact.wire]; exact answer_congr rfl rfl 0
@[simp] theorem rdReg_answers (c : Cfg) (a : Byte) (s : State) : ((rdReg c a s).2).answers = s.answers.drop 1 := by simp only [rdReg, csRelease_answers, xfer_answers, xferDiscard_answers, csAssert_answers]
@[simp] theorem rdReg_drawn (c : Cfg) (a : Byte) (s : State) : ((rdReg c a s).2).drawn = s.drawn + (1 - s.answers.length) := by simp [rdReg]
@[simp] theorem rdReg_value (c : Cfg) (a : Byte) (s : State) : (rdReg c a s).1 = s.answer 0 :=
  answer_congr rfl rfl 0

/-! ## readTmp -/

@[simp] theorem readTmp_busy (c : Cfg) (a : Byte) (s : State) : (readTmp c a s).busy = s.busy := by simp only [readTmp, rdReg_busy]
@[simp] theorem readTmp_phase (c : Cfg) (a : Byte) (s : State) : (readTmp c a s).phase = s.phase := by simp only [readTmp, rdReg_phase]
@[simp] theorem readTmp_opc (c : Cfg) (a : Byte) (s : State) : (readTmp c a s).opc = s.opc := by simp only [readTmp, rdReg_opc]
@[simp] theorem readTmp_argA (c : Cfg) (a : Byte) (s : State) : (readTmp c a s).argA = s.argA := by simp only [readTmp, rdReg_argA]
@[simp] theorem readTmp_argV (c : Cfg) (a : Byte) (s : State) : (readTmp c a s).argV = s.argV := by simp only [readTmp, rdReg_argV]
@[simp] theorem readTmp_tmp (c : Cfg) (a : Byte) (s : State) : (readTmp c a s).tmp = s.answer 0 := answer_congr rfl rfl 0
@[simp] theorem readTmp_pollC (c : Cfg) (a : Byte) (s : State) : (readTmp c a s).pollC = s.pollC := by simp only [readTmp, rdReg_pollC]
@[simp] theorem readTmp_pollT (c : Cfg) (a : Byte) (s : State) : (readTmp c a s).pollT = s.pollT := by simp only [readTmp, rdReg_pollT]
@[simp] theorem readTmp_seen (c : Cfg) (a : Byte) (s : State) : (readTmp c a s).seen = s.seen := by simp only [readTmp, rdReg_seen]
@[simp] theorem readTmp_crcLo (c : Cfg) (a : Byte) (s : State) : (readTmp c a s).crcLo = s.crcLo := by simp only [readTmp, rdReg_crcLo]
@[simp] theorem readTmp_crcHi (c : Cfg) (a : Byte) (s : State) : (readTmp c a s).crcHi = s.crcHi := by simp only [readTmp, rdReg_crcHi]
@[simp] theorem readTmp_status (c : Cfg) (a : Byte) (s : State) : (readTmp c a s).status = s.status := by simp only [readTmp, rdReg_status]
@[simp] theorem readTmp_err (c : Cfg) (a : Byte) (s : State) : (readTmp c a s).err = s.err := by simp only [readTmp, rdReg_err]
@[simp] theorem readTmp_n (c : Cfg) (a : Byte) (s : State) : (readTmp c a s).n = s.n := by simp only [readTmp, rdReg_n]
@[simp] theorem readTmp_rem (c : Cfg) (a : Byte) (s : State) : (readTmp c a s).rem = s.rem := by simp only [readTmp, rdReg_rem]
@[simp] theorem readTmp_vbc (c : Cfg) (a : Byte) (s : State) : (readTmp c a s).vbc = s.vbc := by simp only [readTmp, rdReg_vbc]
@[simp] theorem readTmp_page (c : Cfg) (a : Byte) (s : State) : (readTmp c a s).page = s.page := by simp only [readTmp, rdReg_page]
@[simp] theorem readTmp_idx (c : Cfg) (a : Byte) (s : State) : (readTmp c a s).idx = s.idx := by simp only [readTmp, rdReg_idx]
@[simp] theorem readTmp_send (c : Cfg) (a : Byte) (s : State) : (readTmp c a s).send = s.send := by simp only [readTmp, rdReg_send]
@[simp] theorem readTmp_recv (c : Cfg) (a : Byte) (s : State) : (readTmp c a s).recv = s.recv := by simp only [readTmp, rdReg_recv]
@[simp] theorem readTmp_out (c : Cfg) (a : Byte) (s : State) : (readTmp c a s).out = s.out := by simp only [readTmp, rdReg_out]
@[simp] theorem readTmp_text (c : Cfg) (a : Byte) (s : State) : (readTmp c a s).text = s.text := by simp only [readTmp, rdReg_text]
@[simp] theorem readTmp_response (c : Cfg) (a : Byte) (s : State) : (readTmp c a s).response = s.response := by simp only [readTmp, rdReg_response]
@[simp] theorem readTmp_requests (c : Cfg) (a : Byte) (s : State) : (readTmp c a s).requests = s.requests := by simp only [readTmp, rdReg_requests]
@[simp] theorem readTmp_cs (c : Cfg) (a : Byte) (s : State) : (readTmp c a s).cs = false := by simp only [readTmp, rdReg_cs]
@[simp] theorem readTmp_bus (c : Cfg) (a : Byte) (s : State) : (readTmp c a s).bus = s.bus ++ (Xact.read a (s.answer 0)).wire c := by simp only [readTmp, rdReg_bus]
@[simp] theorem readTmp_answers (c : Cfg) (a : Byte) (s : State) : (readTmp c a s).answers = s.answers.drop 1 := by simp only [readTmp, rdReg_answers]
@[simp] theorem readTmp_drawn (c : Cfg) (a : Byte) (s : State) : (readTmp c a s).drawn = s.drawn + (1 - s.answers.length) := by simp only [readTmp, rdReg_drawn]

/-! ## finish -/

@[simp] theorem finish_busy (r : Response) (s : State) : (finish r s).busy = false := rfl
@[simp] theorem finish_phase (r : Response) (s : State) : (finish r s).phase = .idle := rfl
@[simp] theorem finish_opc (r : Response) (s : State) : (finish r s).opc = s.opc := rfl
@[simp] theorem finish_argA (r : Response) (s : State) : (finish r s).argA = s.argA := rfl
@[simp] theorem finish_argV (r : Response) (s : State) : (finish r s).argV = s.argV := rfl
@[simp] theorem finish_tmp (r : Response) (s : State) : (finish r s).tmp = s.tmp := rfl
@[simp] theorem finish_pollC (r : Response) (s : State) : (finish r s).pollC = s.pollC := rfl
@[simp] theorem finish_pollT (r : Response) (s : State) : (finish r s).pollT = s.pollT := rfl
@[simp] theorem finish_seen (r : Response) (s : State) : (finish r s).seen = s.seen := rfl
@[simp] theorem finish_crcLo (r : Response) (s : State) : (finish r s).crcLo = s.crcLo := rfl
@[simp] theorem finish_crcHi (r : Response) (s : State) : (finish r s).crcHi = s.crcHi := rfl
@[simp] theorem finish_status (r : Response) (s : State) : (finish r s).status = s.status := rfl
@[simp] theorem finish_err (r : Response) (s : State) : (finish r s).err = s.err := rfl
@[simp] theorem finish_n (r : Response) (s : State) : (finish r s).n = s.n := rfl
@[simp] theorem finish_rem (r : Response) (s : State) : (finish r s).rem = s.rem := rfl
@[simp] theorem finish_vbc (r : Response) (s : State) : (finish r s).vbc = s.vbc := rfl
@[simp] theorem finish_page (r : Response) (s : State) : (finish r s).page = s.page := rfl
@[simp] theorem finish_idx (r : Response) (s : State) : (finish r s).idx = s.idx := rfl
@[simp] theorem finish_send (r : Response) (s : State) : (finish r s).send = s.send := rfl
@[simp] theorem finish_recv (r : Response) (s : State) : (finish r s).recv = s.recv := rfl
@[simp] theorem finish_out (r : Response) (s : State) : (finish r s).out = s.out := rfl
@[simp] theorem finish_text (r : Response) (s : State) : (finish r s).text = s.text := rfl
@[simp] theorem finish_response (r : Response) (s : State) : (finish r s).response = some r := rfl
@[simp] theorem finish_requests (r : Response) (s : State) : (finish r s).requests = s.requests := rfl
@[simp] theorem finish_cs (r : Response) (s : State) : (finish r s).cs = s.cs := rfl
@[simp] theorem finish_bus (r : Response) (s : State) : (finish r s).bus = s.bus := rfl
@[simp] theorem finish_answers (r : Response) (s : State) : (finish r s).answers = s.answers := rfl
@[simp] theorem finish_drawn (r : Response) (s : State) : (finish r s).drawn = s.drawn := rfl

/-! ## refuse -/

@[simp] theorem refuse_busy (s : State) : (refuse s).busy = s.busy := rfl
@[simp] theorem refuse_phase (s : State) : (refuse s).phase = s.phase := rfl
@[simp] theorem refuse_opc (s : State) : (refuse s).opc = s.opc := rfl
@[simp] theorem refuse_argA (s : State) : (refuse s).argA = s.argA := rfl
@[simp] theorem refuse_argV (s : State) : (refuse s).argV = s.argV := rfl
@[simp] theorem refuse_tmp (s : State) : (refuse s).tmp = s.tmp := rfl
@[simp] theorem refuse_pollC (s : State) : (refuse s).pollC = s.pollC := rfl
@[simp] theorem refuse_pollT (s : State) : (refuse s).pollT = s.pollT := rfl
@[simp] theorem refuse_seen (s : State) : (refuse s).seen = s.seen := rfl
@[simp] theorem refuse_crcLo (s : State) : (refuse s).crcLo = s.crcLo := rfl
@[simp] theorem refuse_crcHi (s : State) : (refuse s).crcHi = s.crcHi := rfl
@[simp] theorem refuse_status (s : State) : (refuse s).status = s.status := rfl
@[simp] theorem refuse_err (s : State) : (refuse s).err = s.err := rfl
@[simp] theorem refuse_n (s : State) : (refuse s).n = s.n := rfl
@[simp] theorem refuse_rem (s : State) : (refuse s).rem = s.rem := rfl
@[simp] theorem refuse_vbc (s : State) : (refuse s).vbc = s.vbc := rfl
@[simp] theorem refuse_page (s : State) : (refuse s).page = s.page := rfl
@[simp] theorem refuse_idx (s : State) : (refuse s).idx = s.idx := rfl
@[simp] theorem refuse_send (s : State) : (refuse s).send = s.send := rfl
@[simp] theorem refuse_recv (s : State) : (refuse s).recv = s.recv := rfl
@[simp] theorem refuse_out (s : State) : (refuse s).out = s.out := rfl
@[simp] theorem refuse_text (s : State) : (refuse s).text = s.text := rfl
@[simp] theorem refuse_response (s : State) : (refuse s).response = some .refused := rfl
@[simp] theorem refuse_requests (s : State) : (refuse s).requests = s.requests := rfl
@[simp] theorem refuse_cs (s : State) : (refuse s).cs = s.cs := rfl
@[simp] theorem refuse_bus (s : State) : (refuse s).bus = s.bus := rfl
@[simp] theorem refuse_answers (s : State) : (refuse s).answers = s.answers := rfl
@[simp] theorem refuse_drawn (s : State) : (refuse s).drawn = s.drawn := rfl

/-! ## takeRequest -/

@[simp] theorem takeRequest_busy (s : State) : (takeRequest s).busy = s.busy := rfl
@[simp] theorem takeRequest_phase (s : State) : (takeRequest s).phase = s.phase := rfl
@[simp] theorem takeRequest_opc (s : State) : (takeRequest s).opc = s.opc := rfl
@[simp] theorem takeRequest_argA (s : State) : (takeRequest s).argA = s.argA := rfl
@[simp] theorem takeRequest_argV (s : State) : (takeRequest s).argV = s.argV := rfl
@[simp] theorem takeRequest_tmp (s : State) : (takeRequest s).tmp = s.tmp := rfl
@[simp] theorem takeRequest_pollC (s : State) : (takeRequest s).pollC = s.pollC := rfl
@[simp] theorem takeRequest_pollT (s : State) : (takeRequest s).pollT = s.pollT := rfl
@[simp] theorem takeRequest_seen (s : State) : (takeRequest s).seen = s.seen := rfl
@[simp] theorem takeRequest_crcLo (s : State) : (takeRequest s).crcLo = s.crcLo := rfl
@[simp] theorem takeRequest_crcHi (s : State) : (takeRequest s).crcHi = s.crcHi := rfl
@[simp] theorem takeRequest_status (s : State) : (takeRequest s).status = s.status := rfl
@[simp] theorem takeRequest_err (s : State) : (takeRequest s).err = s.err := rfl
@[simp] theorem takeRequest_n (s : State) : (takeRequest s).n = s.n := rfl
@[simp] theorem takeRequest_rem (s : State) : (takeRequest s).rem = s.rem := rfl
@[simp] theorem takeRequest_vbc (s : State) : (takeRequest s).vbc = s.vbc := rfl
@[simp] theorem takeRequest_page (s : State) : (takeRequest s).page = s.page := rfl
@[simp] theorem takeRequest_idx (s : State) : (takeRequest s).idx = s.idx := rfl
@[simp] theorem takeRequest_send (s : State) : (takeRequest s).send = s.send := rfl
@[simp] theorem takeRequest_recv (s : State) : (takeRequest s).recv = s.recv := rfl
@[simp] theorem takeRequest_out (s : State) : (takeRequest s).out = s.out := rfl
@[simp] theorem takeRequest_text (s : State) : (takeRequest s).text = s.text := rfl
@[simp] theorem takeRequest_response (s : State) : (takeRequest s).response = s.response := rfl
@[simp] theorem takeRequest_requests (s : State) : (takeRequest s).requests = s.requests.tail := rfl
@[simp] theorem takeRequest_cs (s : State) : (takeRequest s).cs = s.cs := rfl
@[simp] theorem takeRequest_bus (s : State) : (takeRequest s).bus = s.bus := rfl
@[simp] theorem takeRequest_answers (s : State) : (takeRequest s).answers = s.answers := rfl
@[simp] theorem takeRequest_drawn (s : State) : (takeRequest s).drawn = s.drawn := rfl

/-! ## goTo -/

@[simp] theorem goTo_busy (p : Phase) (s : State) : (goTo p s).busy = s.busy := rfl
@[simp] theorem goTo_phase (p : Phase) (s : State) : (goTo p s).phase = p := rfl
@[simp] theorem goTo_opc (p : Phase) (s : State) : (goTo p s).opc = s.opc := rfl
@[simp] theorem goTo_argA (p : Phase) (s : State) : (goTo p s).argA = s.argA := rfl
@[simp] theorem goTo_argV (p : Phase) (s : State) : (goTo p s).argV = s.argV := rfl
@[simp] theorem goTo_tmp (p : Phase) (s : State) : (goTo p s).tmp = s.tmp := rfl
@[simp] theorem goTo_pollC (p : Phase) (s : State) : (goTo p s).pollC = s.pollC := rfl
@[simp] theorem goTo_pollT (p : Phase) (s : State) : (goTo p s).pollT = s.pollT := rfl
@[simp] theorem goTo_seen (p : Phase) (s : State) : (goTo p s).seen = s.seen := rfl
@[simp] theorem goTo_crcLo (p : Phase) (s : State) : (goTo p s).crcLo = s.crcLo := rfl
@[simp] theorem goTo_crcHi (p : Phase) (s : State) : (goTo p s).crcHi = s.crcHi := rfl
@[simp] theorem goTo_status (p : Phase) (s : State) : (goTo p s).status = s.status := rfl
@[simp] theorem goTo_err (p : Phase) (s : State) : (goTo p s).err = s.err := rfl
@[simp] theorem goTo_n (p : Phase) (s : State) : (goTo p s).n = s.n := rfl
@[simp] theorem goTo_rem (p : Phase) (s : State) : (goTo p s).rem = s.rem := rfl
@[simp] theorem goTo_vbc (p : Phase) (s : State) : (goTo p s).vbc = s.vbc := rfl
@[simp] theorem goTo_page (p : Phase) (s : State) : (goTo p s).page = s.page := rfl
@[simp] theorem goTo_idx (p : Phase) (s : State) : (goTo p s).idx = s.idx := rfl
@[simp] theorem goTo_send (p : Phase) (s : State) : (goTo p s).send = s.send := rfl
@[simp] theorem goTo_recv (p : Phase) (s : State) : (goTo p s).recv = s.recv := rfl
@[simp] theorem goTo_out (p : Phase) (s : State) : (goTo p s).out = s.out := rfl
@[simp] theorem goTo_text (p : Phase) (s : State) : (goTo p s).text = s.text := rfl
@[simp] theorem goTo_response (p : Phase) (s : State) : (goTo p s).response = s.response := rfl
@[simp] theorem goTo_requests (p : Phase) (s : State) : (goTo p s).requests = s.requests := rfl
@[simp] theorem goTo_cs (p : Phase) (s : State) : (goTo p s).cs = s.cs := rfl
@[simp] theorem goTo_bus (p : Phase) (s : State) : (goTo p s).bus = s.bus := rfl
@[simp] theorem goTo_answers (p : Phase) (s : State) : (goTo p s).answers = s.answers := rfl
@[simp] theorem goTo_drawn (p : Phase) (s : State) : (goTo p s).drawn = s.drawn := rfl

/-! ## clearResults -/

@[simp] theorem clearResults_busy (s : State) : (clearResults s).busy = s.busy := rfl
@[simp] theorem clearResults_phase (s : State) : (clearResults s).phase = s.phase := rfl
@[simp] theorem clearResults_opc (s : State) : (clearResults s).opc = s.opc := rfl
@[simp] theorem clearResults_argA (s : State) : (clearResults s).argA = s.argA := rfl
@[simp] theorem clearResults_argV (s : State) : (clearResults s).argV = s.argV := rfl
@[simp] theorem clearResults_tmp (s : State) : (clearResults s).tmp = s.tmp := rfl
@[simp] theorem clearResults_pollC (s : State) : (clearResults s).pollC = s.pollC := rfl
@[simp] theorem clearResults_pollT (s : State) : (clearResults s).pollT = s.pollT := rfl
@[simp] theorem clearResults_seen (s : State) : (clearResults s).seen = s.seen := rfl
@[simp] theorem clearResults_crcLo (s : State) : (clearResults s).crcLo = s.crcLo := rfl
@[simp] theorem clearResults_crcHi (s : State) : (clearResults s).crcHi = s.crcHi := rfl
@[simp] theorem clearResults_status (s : State) : (clearResults s).status = statusErr := rfl
@[simp] theorem clearResults_err (s : State) : (clearResults s).err = s.err := rfl
@[simp] theorem clearResults_n (s : State) : (clearResults s).n = s.n := rfl
@[simp] theorem clearResults_rem (s : State) : (clearResults s).rem = s.rem := rfl
@[simp] theorem clearResults_vbc (s : State) : (clearResults s).vbc = 0 := rfl
@[simp] theorem clearResults_page (s : State) : (clearResults s).page = s.page := rfl
@[simp] theorem clearResults_idx (s : State) : (clearResults s).idx = s.idx := rfl
@[simp] theorem clearResults_send (s : State) : (clearResults s).send = s.send := rfl
@[simp] theorem clearResults_recv (s : State) : (clearResults s).recv = [] := rfl
@[simp] theorem clearResults_out (s : State) : (clearResults s).out = s.out := rfl
@[simp] theorem clearResults_text (s : State) : (clearResults s).text = s.text := rfl
@[simp] theorem clearResults_response (s : State) : (clearResults s).response = s.response := rfl
@[simp] theorem clearResults_requests (s : State) : (clearResults s).requests = s.requests := rfl
@[simp] theorem clearResults_cs (s : State) : (clearResults s).cs = s.cs := rfl
@[simp] theorem clearResults_bus (s : State) : (clearResults s).bus = s.bus := rfl
@[simp] theorem clearResults_answers (s : State) : (clearResults s).answers = s.answers := rfl
@[simp] theorem clearResults_drawn (s : State) : (clearResults s).drawn = s.drawn := rfl

/-! ## clearIdx -/

@[simp] theorem clearIdx_busy (s : State) : (clearIdx s).busy = s.busy := rfl
@[simp] theorem clearIdx_phase (s : State) : (clearIdx s).phase = s.phase := rfl
@[simp] theorem clearIdx_opc (s : State) : (clearIdx s).opc = s.opc := rfl
@[simp] theorem clearIdx_argA (s : State) : (clearIdx s).argA = s.argA := rfl
@[simp] theorem clearIdx_argV (s : State) : (clearIdx s).argV = s.argV := rfl
@[simp] theorem clearIdx_tmp (s : State) : (clearIdx s).tmp = s.tmp := rfl
@[simp] theorem clearIdx_pollC (s : State) : (clearIdx s).pollC = s.pollC := rfl
@[simp] theorem clearIdx_pollT (s : State) : (clearIdx s).pollT = s.pollT := rfl
@[simp] theorem clearIdx_seen (s : State) : (clearIdx s).seen = s.seen := rfl
@[simp] theorem clearIdx_crcLo (s : State) : (clearIdx s).crcLo = s.crcLo := rfl
@[simp] theorem clearIdx_crcHi (s : State) : (clearIdx s).crcHi = s.crcHi := rfl
@[simp] theorem clearIdx_status (s : State) : (clearIdx s).status = s.status := rfl
@[simp] theorem clearIdx_err (s : State) : (clearIdx s).err = s.err := rfl
@[simp] theorem clearIdx_n (s : State) : (clearIdx s).n = s.n := rfl
@[simp] theorem clearIdx_rem (s : State) : (clearIdx s).rem = s.rem := rfl
@[simp] theorem clearIdx_vbc (s : State) : (clearIdx s).vbc = s.vbc := rfl
@[simp] theorem clearIdx_page (s : State) : (clearIdx s).page = s.page := rfl
@[simp] theorem clearIdx_idx (s : State) : (clearIdx s).idx = 0 := rfl
@[simp] theorem clearIdx_send (s : State) : (clearIdx s).send = s.send := rfl
@[simp] theorem clearIdx_recv (s : State) : (clearIdx s).recv = s.recv := rfl
@[simp] theorem clearIdx_out (s : State) : (clearIdx s).out = s.out := rfl
@[simp] theorem clearIdx_text (s : State) : (clearIdx s).text = s.text := rfl
@[simp] theorem clearIdx_response (s : State) : (clearIdx s).response = s.response := rfl
@[simp] theorem clearIdx_requests (s : State) : (clearIdx s).requests = s.requests := rfl
@[simp] theorem clearIdx_cs (s : State) : (clearIdx s).cs = s.cs := rfl
@[simp] theorem clearIdx_bus (s : State) : (clearIdx s).bus = s.bus := rfl
@[simp] theorem clearIdx_answers (s : State) : (clearIdx s).answers = s.answers := rfl
@[simp] theorem clearIdx_drawn (s : State) : (clearIdx s).drawn = s.drawn := rfl

/-! ## clearCrcPoll -/

@[simp] theorem clearCrcPoll_busy (s : State) : (clearCrcPoll s).busy = s.busy := rfl
@[simp] theorem clearCrcPoll_phase (s : State) : (clearCrcPoll s).phase = s.phase := rfl
@[simp] theorem clearCrcPoll_opc (s : State) : (clearCrcPoll s).opc = s.opc := rfl
@[simp] theorem clearCrcPoll_argA (s : State) : (clearCrcPoll s).argA = s.argA := rfl
@[simp] theorem clearCrcPoll_argV (s : State) : (clearCrcPoll s).argV = s.argV := rfl
@[simp] theorem clearCrcPoll_tmp (s : State) : (clearCrcPoll s).tmp = s.tmp := rfl
@[simp] theorem clearCrcPoll_pollC (s : State) : (clearCrcPoll s).pollC = 0 := rfl
@[simp] theorem clearCrcPoll_pollT (s : State) : (clearCrcPoll s).pollT = s.pollT := rfl
@[simp] theorem clearCrcPoll_seen (s : State) : (clearCrcPoll s).seen = s.seen := rfl
@[simp] theorem clearCrcPoll_crcLo (s : State) : (clearCrcPoll s).crcLo = s.crcLo := rfl
@[simp] theorem clearCrcPoll_crcHi (s : State) : (clearCrcPoll s).crcHi = s.crcHi := rfl
@[simp] theorem clearCrcPoll_status (s : State) : (clearCrcPoll s).status = s.status := rfl
@[simp] theorem clearCrcPoll_err (s : State) : (clearCrcPoll s).err = s.err := rfl
@[simp] theorem clearCrcPoll_n (s : State) : (clearCrcPoll s).n = s.n := rfl
@[simp] theorem clearCrcPoll_rem (s : State) : (clearCrcPoll s).rem = s.rem := rfl
@[simp] theorem clearCrcPoll_vbc (s : State) : (clearCrcPoll s).vbc = s.vbc := rfl
@[simp] theorem clearCrcPoll_page (s : State) : (clearCrcPoll s).page = s.page := rfl
@[simp] theorem clearCrcPoll_idx (s : State) : (clearCrcPoll s).idx = s.idx := rfl
@[simp] theorem clearCrcPoll_send (s : State) : (clearCrcPoll s).send = s.send := rfl
@[simp] theorem clearCrcPoll_recv (s : State) : (clearCrcPoll s).recv = s.recv := rfl
@[simp] theorem clearCrcPoll_out (s : State) : (clearCrcPoll s).out = s.out := rfl
@[simp] theorem clearCrcPoll_text (s : State) : (clearCrcPoll s).text = s.text := rfl
@[simp] theorem clearCrcPoll_response (s : State) : (clearCrcPoll s).response = s.response := rfl
@[simp] theorem clearCrcPoll_requests (s : State) : (clearCrcPoll s).requests = s.requests := rfl
@[simp] theorem clearCrcPoll_cs (s : State) : (clearCrcPoll s).cs = s.cs := rfl
@[simp] theorem clearCrcPoll_bus (s : State) : (clearCrcPoll s).bus = s.bus := rfl
@[simp] theorem clearCrcPoll_answers (s : State) : (clearCrcPoll s).answers = s.answers := rfl
@[simp] theorem clearCrcPoll_drawn (s : State) : (clearCrcPoll s).drawn = s.drawn := rfl

/-! ## clearPoll -/

@[simp] theorem clearPoll_busy (s : State) : (clearPoll s).busy = s.busy := rfl
@[simp] theorem clearPoll_phase (s : State) : (clearPoll s).phase = s.phase := rfl
@[simp] theorem clearPoll_opc (s : State) : (clearPoll s).opc = s.opc := rfl
@[simp] theorem clearPoll_argA (s : State) : (clearPoll s).argA = s.argA := rfl
@[simp] theorem clearPoll_argV (s : State) : (clearPoll s).argV = s.argV := rfl
@[simp] theorem clearPoll_tmp (s : State) : (clearPoll s).tmp = s.tmp := rfl
@[simp] theorem clearPoll_pollC (s : State) : (clearPoll s).pollC = s.pollC := rfl
@[simp] theorem clearPoll_pollT (s : State) : (clearPoll s).pollT = 0 := rfl
@[simp] theorem clearPoll_seen (s : State) : (clearPoll s).seen = false := rfl
@[simp] theorem clearPoll_crcLo (s : State) : (clearPoll s).crcLo = s.crcLo := rfl
@[simp] theorem clearPoll_crcHi (s : State) : (clearPoll s).crcHi = s.crcHi := rfl
@[simp] theorem clearPoll_status (s : State) : (clearPoll s).status = s.status := rfl
@[simp] theorem clearPoll_err (s : State) : (clearPoll s).err = s.err := rfl
@[simp] theorem clearPoll_n (s : State) : (clearPoll s).n = s.n := rfl
@[simp] theorem clearPoll_rem (s : State) : (clearPoll s).rem = s.rem := rfl
@[simp] theorem clearPoll_vbc (s : State) : (clearPoll s).vbc = s.vbc := rfl
@[simp] theorem clearPoll_page (s : State) : (clearPoll s).page = s.page := rfl
@[simp] theorem clearPoll_idx (s : State) : (clearPoll s).idx = s.idx := rfl
@[simp] theorem clearPoll_send (s : State) : (clearPoll s).send = s.send := rfl
@[simp] theorem clearPoll_recv (s : State) : (clearPoll s).recv = s.recv := rfl
@[simp] theorem clearPoll_out (s : State) : (clearPoll s).out = s.out := rfl
@[simp] theorem clearPoll_text (s : State) : (clearPoll s).text = s.text := rfl
@[simp] theorem clearPoll_response (s : State) : (clearPoll s).response = s.response := rfl
@[simp] theorem clearPoll_requests (s : State) : (clearPoll s).requests = s.requests := rfl
@[simp] theorem clearPoll_cs (s : State) : (clearPoll s).cs = s.cs := rfl
@[simp] theorem clearPoll_bus (s : State) : (clearPoll s).bus = s.bus := rfl
@[simp] theorem clearPoll_answers (s : State) : (clearPoll s).answers = s.answers := rfl
@[simp] theorem clearPoll_drawn (s : State) : (clearPoll s).drawn = s.drawn := rfl

/-! ## succeed -/

@[simp] theorem succeed_busy (s : State) : (succeed s).busy = s.busy := rfl
@[simp] theorem succeed_phase (s : State) : (succeed s).phase = s.phase := rfl
@[simp] theorem succeed_opc (s : State) : (succeed s).opc = s.opc := rfl
@[simp] theorem succeed_argA (s : State) : (succeed s).argA = s.argA := rfl
@[simp] theorem succeed_argV (s : State) : (succeed s).argV = s.argV := rfl
@[simp] theorem succeed_tmp (s : State) : (succeed s).tmp = s.tmp := rfl
@[simp] theorem succeed_pollC (s : State) : (succeed s).pollC = s.pollC := rfl
@[simp] theorem succeed_pollT (s : State) : (succeed s).pollT = s.pollT := rfl
@[simp] theorem succeed_seen (s : State) : (succeed s).seen = s.seen := rfl
@[simp] theorem succeed_crcLo (s : State) : (succeed s).crcLo = s.crcLo := rfl
@[simp] theorem succeed_crcHi (s : State) : (succeed s).crcHi = s.crcHi := rfl
@[simp] theorem succeed_status (s : State) : (succeed s).status = statusOk := rfl
@[simp] theorem succeed_err (s : State) : (succeed s).err = s.err := rfl
@[simp] theorem succeed_n (s : State) : (succeed s).n = s.n := rfl
@[simp] theorem succeed_rem (s : State) : (succeed s).rem = s.rem := rfl
@[simp] theorem succeed_vbc (s : State) : (succeed s).vbc = s.vbc := rfl
@[simp] theorem succeed_page (s : State) : (succeed s).page = s.page := rfl
@[simp] theorem succeed_idx (s : State) : (succeed s).idx = s.idx := rfl
@[simp] theorem succeed_send (s : State) : (succeed s).send = s.send := rfl
@[simp] theorem succeed_recv (s : State) : (succeed s).recv = s.recv := rfl
@[simp] theorem succeed_out (s : State) : (succeed s).out = s.out := rfl
@[simp] theorem succeed_text (s : State) : (succeed s).text = s.text := rfl
@[simp] theorem succeed_response (s : State) : (succeed s).response = s.response := rfl
@[simp] theorem succeed_requests (s : State) : (succeed s).requests = s.requests := rfl
@[simp] theorem succeed_cs (s : State) : (succeed s).cs = s.cs := rfl
@[simp] theorem succeed_bus (s : State) : (succeed s).bus = s.bus := rfl
@[simp] theorem succeed_answers (s : State) : (succeed s).answers = s.answers := rfl
@[simp] theorem succeed_drawn (s : State) : (succeed s).drawn = s.drawn := rfl

/-! ## appendCrc -/

@[simp] theorem appendCrc_busy (s : State) : (appendCrc s).busy = s.busy := rfl
@[simp] theorem appendCrc_phase (s : State) : (appendCrc s).phase = s.phase := rfl
@[simp] theorem appendCrc_opc (s : State) : (appendCrc s).opc = s.opc := rfl
@[simp] theorem appendCrc_argA (s : State) : (appendCrc s).argA = s.argA := rfl
@[simp] theorem appendCrc_argV (s : State) : (appendCrc s).argV = s.argV := rfl
@[simp] theorem appendCrc_tmp (s : State) : (appendCrc s).tmp = s.tmp := rfl
@[simp] theorem appendCrc_pollC (s : State) : (appendCrc s).pollC = s.pollC := rfl
@[simp] theorem appendCrc_pollT (s : State) : (appendCrc s).pollT = s.pollT := rfl
@[simp] theorem appendCrc_seen (s : State) : (appendCrc s).seen = s.seen := rfl
@[simp] theorem appendCrc_crcLo (s : State) : (appendCrc s).crcLo = s.crcLo := rfl
@[simp] theorem appendCrc_crcHi (s : State) : (appendCrc s).crcHi = s.crcHi := rfl
@[simp] theorem appendCrc_status (s : State) : (appendCrc s).status = s.status := rfl
@[simp] theorem appendCrc_err (s : State) : (appendCrc s).err = s.err := rfl
@[simp] theorem appendCrc_n (s : State) : (appendCrc s).n = s.n := rfl
@[simp] theorem appendCrc_rem (s : State) : (appendCrc s).rem = s.rem := rfl
@[simp] theorem appendCrc_vbc (s : State) : (appendCrc s).vbc = s.vbc := rfl
@[simp] theorem appendCrc_page (s : State) : (appendCrc s).page = s.page := rfl
@[simp] theorem appendCrc_idx (s : State) : (appendCrc s).idx = s.idx := rfl
@[simp] theorem appendCrc_send (s : State) : (appendCrc s).send = s.send ++ [s.crcLo, s.crcHi] := rfl
@[simp] theorem appendCrc_recv (s : State) : (appendCrc s).recv = s.recv := rfl
@[simp] theorem appendCrc_out (s : State) : (appendCrc s).out = s.out := rfl
@[simp] theorem appendCrc_text (s : State) : (appendCrc s).text = s.text := rfl
@[simp] theorem appendCrc_response (s : State) : (appendCrc s).response = s.response := rfl
@[simp] theorem appendCrc_requests (s : State) : (appendCrc s).requests = s.requests := rfl
@[simp] theorem appendCrc_cs (s : State) : (appendCrc s).cs = s.cs := rfl
@[simp] theorem appendCrc_bus (s : State) : (appendCrc s).bus = s.bus := rfl
@[simp] theorem appendCrc_answers (s : State) : (appendCrc s).answers = s.answers := rfl
@[simp] theorem appendCrc_drawn (s : State) : (appendCrc s).drawn = s.drawn := rfl

/-! ## requestFrame -/

@[simp] theorem requestFrame_busy (mode : Byte) (s : State) : (requestFrame mode s).busy = s.busy := rfl
@[simp] theorem requestFrame_phase (mode : Byte) (s : State) : (requestFrame mode s).phase = s.phase := rfl
@[simp] theorem requestFrame_opc (mode : Byte) (s : State) : (requestFrame mode s).opc = s.opc := rfl
@[simp] theorem requestFrame_argA (mode : Byte) (s : State) : (requestFrame mode s).argA = s.argA := rfl
@[simp] theorem requestFrame_argV (mode : Byte) (s : State) : (requestFrame mode s).argV = s.argV := rfl
@[simp] theorem requestFrame_tmp (mode : Byte) (s : State) : (requestFrame mode s).tmp = s.tmp := rfl
@[simp] theorem requestFrame_pollC (mode : Byte) (s : State) : (requestFrame mode s).pollC = s.pollC := rfl
@[simp] theorem requestFrame_pollT (mode : Byte) (s : State) : (requestFrame mode s).pollT = s.pollT := rfl
@[simp] theorem requestFrame_seen (mode : Byte) (s : State) : (requestFrame mode s).seen = s.seen := rfl
@[simp] theorem requestFrame_crcLo (mode : Byte) (s : State) : (requestFrame mode s).crcLo = s.crcLo := rfl
@[simp] theorem requestFrame_crcHi (mode : Byte) (s : State) : (requestFrame mode s).crcHi = s.crcHi := rfl
@[simp] theorem requestFrame_status (mode : Byte) (s : State) : (requestFrame mode s).status = s.status := rfl
@[simp] theorem requestFrame_err (mode : Byte) (s : State) : (requestFrame mode s).err = s.err := rfl
@[simp] theorem requestFrame_n (mode : Byte) (s : State) : (requestFrame mode s).n = s.n := rfl
@[simp] theorem requestFrame_rem (mode : Byte) (s : State) : (requestFrame mode s).rem = s.rem := rfl
@[simp] theorem requestFrame_vbc (mode : Byte) (s : State) : (requestFrame mode s).vbc = s.vbc := rfl
@[simp] theorem requestFrame_page (mode : Byte) (s : State) : (requestFrame mode s).page = s.page := rfl
@[simp] theorem requestFrame_idx (mode : Byte) (s : State) : (requestFrame mode s).idx = s.idx := rfl
@[simp] theorem requestFrame_send (mode : Byte) (s : State) : (requestFrame mode s).send = [mode] := rfl
@[simp] theorem requestFrame_recv (mode : Byte) (s : State) : (requestFrame mode s).recv = s.recv := rfl
@[simp] theorem requestFrame_out (mode : Byte) (s : State) : (requestFrame mode s).out = s.out := rfl
@[simp] theorem requestFrame_text (mode : Byte) (s : State) : (requestFrame mode s).text = s.text := rfl
@[simp] theorem requestFrame_response (mode : Byte) (s : State) : (requestFrame mode s).response = s.response := rfl
@[simp] theorem requestFrame_requests (mode : Byte) (s : State) : (requestFrame mode s).requests = s.requests := rfl
@[simp] theorem requestFrame_cs (mode : Byte) (s : State) : (requestFrame mode s).cs = s.cs := rfl
@[simp] theorem requestFrame_bus (mode : Byte) (s : State) : (requestFrame mode s).bus = s.bus := rfl
@[simp] theorem requestFrame_answers (mode : Byte) (s : State) : (requestFrame mode s).answers = s.answers := rfl
@[simp] theorem requestFrame_drawn (mode : Byte) (s : State) : (requestFrame mode s).drawn = s.drawn := rfl

/-! ## anticollFrame -/

@[simp] theorem anticollFrame_busy (s : State) : (anticollFrame s).busy = s.busy := rfl
@[simp] theorem anticollFrame_phase (s : State) : (anticollFrame s).phase = s.phase := rfl
@[simp] theorem anticollFrame_opc (s : State) : (anticollFrame s).opc = s.opc := rfl
@[simp] theorem anticollFrame_argA (s : State) : (anticollFrame s).argA = s.argA := rfl
@[simp] theorem anticollFrame_argV (s : State) : (anticollFrame s).argV = s.argV := rfl
@[simp] theorem anticollFrame_tmp (s : State) : (anticollFrame s).tmp = s.tmp := rfl
@[simp] theorem anticollFrame_pollC (s : State) : (anticollFrame s).pollC = s.pollC := rfl
@[simp] theorem anticollFrame_pollT (s : State) : (anticollFrame s).pollT = s.pollT := rfl
@[simp] theorem anticollFrame_seen (s : State) : (anticollFrame s).seen = s.seen := rfl
@[simp] theorem anticollFrame_crcLo (s : State) : (anticollFrame s).crcLo = s.crcLo := rfl
@[simp] theorem anticollFrame_crcHi (s : State) : (anticollFrame s).crcHi = s.crcHi := rfl
@[simp] theorem anticollFrame_status (s : State) : (anticollFrame s).status = s.status := rfl
@[simp] theorem anticollFrame_err (s : State) : (anticollFrame s).err = s.err := rfl
@[simp] theorem anticollFrame_n (s : State) : (anticollFrame s).n = s.n := rfl
@[simp] theorem anticollFrame_rem (s : State) : (anticollFrame s).rem = s.rem := rfl
@[simp] theorem anticollFrame_vbc (s : State) : (anticollFrame s).vbc = s.vbc := rfl
@[simp] theorem anticollFrame_page (s : State) : (anticollFrame s).page = s.page := rfl
@[simp] theorem anticollFrame_idx (s : State) : (anticollFrame s).idx = s.idx := rfl
@[simp] theorem anticollFrame_send (s : State) : (anticollFrame s).send = airAnticoll := rfl
@[simp] theorem anticollFrame_recv (s : State) : (anticollFrame s).recv = s.recv := rfl
@[simp] theorem anticollFrame_out (s : State) : (anticollFrame s).out = s.out := rfl
@[simp] theorem anticollFrame_text (s : State) : (anticollFrame s).text = s.text := rfl
@[simp] theorem anticollFrame_response (s : State) : (anticollFrame s).response = s.response := rfl
@[simp] theorem anticollFrame_requests (s : State) : (anticollFrame s).requests = s.requests := rfl
@[simp] theorem anticollFrame_cs (s : State) : (anticollFrame s).cs = s.cs := rfl
@[simp] theorem anticollFrame_bus (s : State) : (anticollFrame s).bus = s.bus := rfl
@[simp] theorem anticollFrame_answers (s : State) : (anticollFrame s).answers = s.answers := rfl
@[simp] theorem anticollFrame_drawn (s : State) : (anticollFrame s).drawn = s.drawn := rfl

/-! ## readFrame -/

@[simp] theorem readFrame_busy (page : Byte) (s : State) : (readFrame page s).busy = s.busy := rfl
@[simp] theorem readFrame_phase (page : Byte) (s : State) : (readFrame page s).phase = s.phase := rfl
@[simp] theorem readFrame_opc (page : Byte) (s : State) : (readFrame page s).opc = s.opc := rfl
@[simp] theorem readFrame_argA (page : Byte) (s : State) : (readFrame page s).argA = s.argA := rfl
@[simp] theorem readFrame_argV (page : Byte) (s : State) : (readFrame page s).argV = s.argV := rfl
@[simp] theorem readFrame_tmp (page : Byte) (s : State) : (readFrame page s).tmp = s.tmp := rfl
@[simp] theorem readFrame_pollC (page : Byte) (s : State) : (readFrame page s).pollC = s.pollC := rfl
@[simp] theorem readFrame_pollT (page : Byte) (s : State) : (readFrame page s).pollT = s.pollT := rfl
@[simp] theorem readFrame_seen (page : Byte) (s : State) : (readFrame page s).seen = s.seen := rfl
@[simp] theorem readFrame_crcLo (page : Byte) (s : State) : (readFrame page s).crcLo = s.crcLo := rfl
@[simp] theorem readFrame_crcHi (page : Byte) (s : State) : (readFrame page s).crcHi = s.crcHi := rfl
@[simp] theorem readFrame_status (page : Byte) (s : State) : (readFrame page s).status = s.status := rfl
@[simp] theorem readFrame_err (page : Byte) (s : State) : (readFrame page s).err = s.err := rfl
@[simp] theorem readFrame_n (page : Byte) (s : State) : (readFrame page s).n = s.n := rfl
@[simp] theorem readFrame_rem (page : Byte) (s : State) : (readFrame page s).rem = s.rem := rfl
@[simp] theorem readFrame_vbc (page : Byte) (s : State) : (readFrame page s).vbc = s.vbc := rfl
@[simp] theorem readFrame_page (page : Byte) (s : State) : (readFrame page s).page = s.page := rfl
@[simp] theorem readFrame_idx (page : Byte) (s : State) : (readFrame page s).idx = s.idx := rfl
@[simp] theorem readFrame_send (page : Byte) (s : State) : (readFrame page s).send = [airRead, page] := rfl
@[simp] theorem readFrame_recv (page : Byte) (s : State) : (readFrame page s).recv = s.recv := rfl
@[simp] theorem readFrame_out (page : Byte) (s : State) : (readFrame page s).out = s.out := rfl
@[simp] theorem readFrame_text (page : Byte) (s : State) : (readFrame page s).text = s.text := rfl
@[simp] theorem readFrame_response (page : Byte) (s : State) : (readFrame page s).response = s.response := rfl
@[simp] theorem readFrame_requests (page : Byte) (s : State) : (readFrame page s).requests = s.requests := rfl
@[simp] theorem readFrame_cs (page : Byte) (s : State) : (readFrame page s).cs = s.cs := rfl
@[simp] theorem readFrame_bus (page : Byte) (s : State) : (readFrame page s).bus = s.bus := rfl
@[simp] theorem readFrame_answers (page : Byte) (s : State) : (readFrame page s).answers = s.answers := rfl
@[simp] theorem readFrame_drawn (page : Byte) (s : State) : (readFrame page s).drawn = s.drawn := rfl

/-! ## writeFrame -/

@[simp] theorem writeFrame_busy (page : Byte) (d : PageData) (s : State) : (writeFrame page d s).busy = s.busy := rfl
@[simp] theorem writeFrame_phase (page : Byte) (d : PageData) (s : State) : (writeFrame page d s).phase = s.phase := rfl
@[simp] theorem writeFrame_opc (page : Byte) (d : PageData) (s : State) : (writeFrame page d s).opc = s.opc := rfl
@[simp] theorem writeFrame_argA (page : Byte) (d : PageData) (s : State) : (writeFrame page d s).argA = s.argA := rfl
@[simp] theorem writeFrame_argV (page : Byte) (d : PageData) (s : State) : (writeFrame page d s).argV = s.argV := rfl
@[simp] theorem writeFrame_tmp (page : Byte) (d : PageData) (s : State) : (writeFrame page d s).tmp = s.tmp := rfl
@[simp] theorem writeFrame_pollC (page : Byte) (d : PageData) (s : State) : (writeFrame page d s).pollC = s.pollC := rfl
@[simp] theorem writeFrame_pollT (page : Byte) (d : PageData) (s : State) : (writeFrame page d s).pollT = s.pollT := rfl
@[simp] theorem writeFrame_seen (page : Byte) (d : PageData) (s : State) : (writeFrame page d s).seen = s.seen := rfl
@[simp] theorem writeFrame_crcLo (page : Byte) (d : PageData) (s : State) : (writeFrame page d s).crcLo = s.crcLo := rfl
@[simp] theorem writeFrame_crcHi (page : Byte) (d : PageData) (s : State) : (writeFrame page d s).crcHi = s.crcHi := rfl
@[simp] theorem writeFrame_status (page : Byte) (d : PageData) (s : State) : (writeFrame page d s).status = s.status := rfl
@[simp] theorem writeFrame_err (page : Byte) (d : PageData) (s : State) : (writeFrame page d s).err = s.err := rfl
@[simp] theorem writeFrame_n (page : Byte) (d : PageData) (s : State) : (writeFrame page d s).n = s.n := rfl
@[simp] theorem writeFrame_rem (page : Byte) (d : PageData) (s : State) : (writeFrame page d s).rem = s.rem := rfl
@[simp] theorem writeFrame_vbc (page : Byte) (d : PageData) (s : State) : (writeFrame page d s).vbc = s.vbc := rfl
@[simp] theorem writeFrame_page (page : Byte) (d : PageData) (s : State) : (writeFrame page d s).page = s.page := rfl
@[simp] theorem writeFrame_idx (page : Byte) (d : PageData) (s : State) : (writeFrame page d s).idx = s.idx := rfl
@[simp] theorem writeFrame_send (page : Byte) (d : PageData) (s : State) : (writeFrame page d s).send = [airWrite, page, d.b0, d.b1, d.b2, d.b3] := rfl
@[simp] theorem writeFrame_recv (page : Byte) (d : PageData) (s : State) : (writeFrame page d s).recv = s.recv := rfl
@[simp] theorem writeFrame_out (page : Byte) (d : PageData) (s : State) : (writeFrame page d s).out = s.out := rfl
@[simp] theorem writeFrame_text (page : Byte) (d : PageData) (s : State) : (writeFrame page d s).text = s.text := rfl
@[simp] theorem writeFrame_response (page : Byte) (d : PageData) (s : State) : (writeFrame page d s).response = s.response := rfl
@[simp] theorem writeFrame_requests (page : Byte) (d : PageData) (s : State) : (writeFrame page d s).requests = s.requests := rfl
@[simp] theorem writeFrame_cs (page : Byte) (d : PageData) (s : State) : (writeFrame page d s).cs = s.cs := rfl
@[simp] theorem writeFrame_bus (page : Byte) (d : PageData) (s : State) : (writeFrame page d s).bus = s.bus := rfl
@[simp] theorem writeFrame_answers (page : Byte) (d : PageData) (s : State) : (writeFrame page d s).answers = s.answers := rfl
@[simp] theorem writeFrame_drawn (page : Byte) (d : PageData) (s : State) : (writeFrame page d s).drawn = s.drawn := rfl

/-! ## clearOut -/

@[simp] theorem clearOut_busy (s : State) : (clearOut s).busy = s.busy := rfl
@[simp] theorem clearOut_phase (s : State) : (clearOut s).phase = s.phase := rfl
@[simp] theorem clearOut_opc (s : State) : (clearOut s).opc = s.opc := rfl
@[simp] theorem clearOut_argA (s : State) : (clearOut s).argA = s.argA := rfl
@[simp] theorem clearOut_argV (s : State) : (clearOut s).argV = s.argV := rfl
@[simp] theorem clearOut_tmp (s : State) : (clearOut s).tmp = s.tmp := rfl
@[simp] theorem clearOut_pollC (s : State) : (clearOut s).pollC = s.pollC := rfl
@[simp] theorem clearOut_pollT (s : State) : (clearOut s).pollT = s.pollT := rfl
@[simp] theorem clearOut_seen (s : State) : (clearOut s).seen = s.seen := rfl
@[simp] theorem clearOut_crcLo (s : State) : (clearOut s).crcLo = s.crcLo := rfl
@[simp] theorem clearOut_crcHi (s : State) : (clearOut s).crcHi = s.crcHi := rfl
@[simp] theorem clearOut_status (s : State) : (clearOut s).status = s.status := rfl
@[simp] theorem clearOut_err (s : State) : (clearOut s).err = s.err := rfl
@[simp] theorem clearOut_n (s : State) : (clearOut s).n = s.n := rfl
@[simp] theorem clearOut_rem (s : State) : (clearOut s).rem = s.rem := rfl
@[simp] theorem clearOut_vbc (s : State) : (clearOut s).vbc = s.vbc := rfl
@[simp] theorem clearOut_page (s : State) : (clearOut s).page = s.page := rfl
@[simp] theorem clearOut_idx (s : State) : (clearOut s).idx = s.idx := rfl
@[simp] theorem clearOut_send (s : State) : (clearOut s).send = s.send := rfl
@[simp] theorem clearOut_recv (s : State) : (clearOut s).recv = s.recv := rfl
@[simp] theorem clearOut_out (s : State) : (clearOut s).out = [] := rfl
@[simp] theorem clearOut_text (s : State) : (clearOut s).text = s.text := rfl
@[simp] theorem clearOut_response (s : State) : (clearOut s).response = s.response := rfl
@[simp] theorem clearOut_requests (s : State) : (clearOut s).requests = s.requests := rfl
@[simp] theorem clearOut_cs (s : State) : (clearOut s).cs = s.cs := rfl
@[simp] theorem clearOut_bus (s : State) : (clearOut s).bus = s.bus := rfl
@[simp] theorem clearOut_answers (s : State) : (clearOut s).answers = s.answers := rfl
@[simp] theorem clearOut_drawn (s : State) : (clearOut s).drawn = s.drawn := rfl

/-! ## beginChunks -/

@[simp] theorem beginChunks_busy (s : State) : (beginChunks s).busy = s.busy := rfl
@[simp] theorem beginChunks_phase (s : State) : (beginChunks s).phase = s.phase := rfl
@[simp] theorem beginChunks_opc (s : State) : (beginChunks s).opc = s.opc := rfl
@[simp] theorem beginChunks_argA (s : State) : (beginChunks s).argA = s.argA := rfl
@[simp] theorem beginChunks_argV (s : State) : (beginChunks s).argV = s.argV := rfl
@[simp] theorem beginChunks_tmp (s : State) : (beginChunks s).tmp = s.tmp := rfl
@[simp] theorem beginChunks_pollC (s : State) : (beginChunks s).pollC = s.pollC := rfl
@[simp] theorem beginChunks_pollT (s : State) : (beginChunks s).pollT = s.pollT := rfl
@[simp] theorem beginChunks_seen (s : State) : (beginChunks s).seen = s.seen := rfl
@[simp] theorem beginChunks_crcLo (s : State) : (beginChunks s).crcLo = s.crcLo := rfl
@[simp] theorem beginChunks_crcHi (s : State) : (beginChunks s).crcHi = s.crcHi := rfl
@[simp] theorem beginChunks_status (s : State) : (beginChunks s).status = s.status := rfl
@[simp] theorem beginChunks_err (s : State) : (beginChunks s).err = s.err := rfl
@[simp] theorem beginChunks_n (s : State) : (beginChunks s).n = s.n := rfl
@[simp] theorem beginChunks_rem (s : State) : (beginChunks s).rem = s.rem := rfl
@[simp] theorem beginChunks_vbc (s : State) : (beginChunks s).vbc = s.vbc := rfl
@[simp] theorem beginChunks_page (s : State) : (beginChunks s).page = pageFirst := rfl
@[simp] theorem beginChunks_idx (s : State) : (beginChunks s).idx = s.idx := rfl
@[simp] theorem beginChunks_send (s : State) : (beginChunks s).send = s.send := rfl
@[simp] theorem beginChunks_recv (s : State) : (beginChunks s).recv = s.recv := rfl
@[simp] theorem beginChunks_out (s : State) : (beginChunks s).out = s.out := rfl
@[simp] theorem beginChunks_text (s : State) : (beginChunks s).text = padText s.text := rfl
@[simp] theorem beginChunks_response (s : State) : (beginChunks s).response = s.response := rfl
@[simp] theorem beginChunks_requests (s : State) : (beginChunks s).requests = s.requests := rfl
@[simp] theorem beginChunks_cs (s : State) : (beginChunks s).cs = s.cs := rfl
@[simp] theorem beginChunks_bus (s : State) : (beginChunks s).bus = s.bus := rfl
@[simp] theorem beginChunks_answers (s : State) : (beginChunks s).answers = s.answers := rfl
@[simp] theorem beginChunks_drawn (s : State) : (beginChunks s).drawn = s.drawn := rfl

/-! ## appendPage -/

@[simp] theorem appendPage_busy (s : State) : (appendPage s).busy = s.busy := rfl
@[simp] theorem appendPage_phase (s : State) : (appendPage s).phase = s.phase := rfl
@[simp] theorem appendPage_opc (s : State) : (appendPage s).opc = s.opc := rfl
@[simp] theorem appendPage_argA (s : State) : (appendPage s).argA = s.argA := rfl
@[simp] theorem appendPage_argV (s : State) : (appendPage s).argV = s.argV := rfl
@[simp] theorem appendPage_tmp (s : State) : (appendPage s).tmp = s.tmp := rfl
@[simp] theorem appendPage_pollC (s : State) : (appendPage s).pollC = s.pollC := rfl
@[simp] theorem appendPage_pollT (s : State) : (appendPage s).pollT = s.pollT := rfl
@[simp] theorem appendPage_seen (s : State) : (appendPage s).seen = s.seen := rfl
@[simp] theorem appendPage_crcLo (s : State) : (appendPage s).crcLo = s.crcLo := rfl
@[simp] theorem appendPage_crcHi (s : State) : (appendPage s).crcHi = s.crcHi := rfl
@[simp] theorem appendPage_status (s : State) : (appendPage s).status = s.status := rfl
@[simp] theorem appendPage_err (s : State) : (appendPage s).err = s.err := rfl
@[simp] theorem appendPage_n (s : State) : (appendPage s).n = s.n := rfl
@[simp] theorem appendPage_rem (s : State) : (appendPage s).rem = s.rem := rfl
@[simp] theorem appendPage_vbc (s : State) : (appendPage s).vbc = s.vbc := rfl
@[simp] theorem appendPage_page (s : State) : (appendPage s).page = s.page := rfl
@[simp] theorem appendPage_idx (s : State) : (appendPage s).idx = s.idx := rfl
@[simp] theorem appendPage_send (s : State) : (appendPage s).send = s.send := rfl
@[simp] theorem appendPage_recv (s : State) : (appendPage s).recv = s.recv := rfl
@[simp] theorem appendPage_out (s : State) : (appendPage s).out = s.out ++ PageData.bytes (pageData s.status s.recv) := rfl
@[simp] theorem appendPage_text (s : State) : (appendPage s).text = s.text := rfl
@[simp] theorem appendPage_response (s : State) : (appendPage s).response = s.response := rfl
@[simp] theorem appendPage_requests (s : State) : (appendPage s).requests = s.requests := rfl
@[simp] theorem appendPage_cs (s : State) : (appendPage s).cs = s.cs := rfl
@[simp] theorem appendPage_bus (s : State) : (appendPage s).bus = s.bus := rfl
@[simp] theorem appendPage_answers (s : State) : (appendPage s).answers = s.answers := rfl
@[simp] theorem appendPage_drawn (s : State) : (appendPage s).drawn = s.drawn := rfl

/-! ## chunkFrame -/

@[simp] theorem chunkFrame_busy (s : State) : (chunkFrame s).busy = s.busy := rfl
@[simp] theorem chunkFrame_phase (s : State) : (chunkFrame s).phase = s.phase := rfl
@[simp] theorem chunkFrame_opc (s : State) : (chunkFrame s).opc = s.opc := rfl
@[simp] theorem chunkFrame_argA (s : State) : (chunkFrame s).argA = s.argA := rfl
@[simp] theorem chunkFrame_argV (s : State) : (chunkFrame s).argV = s.argV := rfl
@[simp] theorem chunkFrame_tmp (s : State) : (chunkFrame s).tmp = s.tmp := rfl
@[simp] theorem chunkFrame_pollC (s : State) : (chunkFrame s).pollC = s.pollC := rfl
@[simp] theorem chunkFrame_pollT (s : State) : (chunkFrame s).pollT = s.pollT := rfl
@[simp] theorem chunkFrame_seen (s : State) : (chunkFrame s).seen = s.seen := rfl
@[simp] theorem chunkFrame_crcLo (s : State) : (chunkFrame s).crcLo = s.crcLo := rfl
@[simp] theorem chunkFrame_crcHi (s : State) : (chunkFrame s).crcHi = s.crcHi := rfl
@[simp] theorem chunkFrame_status (s : State) : (chunkFrame s).status = s.status := rfl
@[simp] theorem chunkFrame_err (s : State) : (chunkFrame s).err = s.err := rfl
@[simp] theorem chunkFrame_n (s : State) : (chunkFrame s).n = s.n := rfl
@[simp] theorem chunkFrame_rem (s : State) : (chunkFrame s).rem = s.rem := rfl
@[simp] theorem chunkFrame_vbc (s : State) : (chunkFrame s).vbc = s.vbc := rfl
@[simp] theorem chunkFrame_page (s : State) : (chunkFrame s).page = s.page := rfl
@[simp] theorem chunkFrame_idx (s : State) : (chunkFrame s).idx = BitVec.ofNat 11 (chunkIndex s) := rfl
@[simp] theorem chunkFrame_send (s : State) : (chunkFrame s).send = [airWrite, s.page, (pageAt s.text (chunkIndex s)).b0, (pageAt s.text (chunkIndex s)).b1,
      (pageAt s.text (chunkIndex s)).b2, (pageAt s.text (chunkIndex s)).b3] := rfl
@[simp] theorem chunkFrame_recv (s : State) : (chunkFrame s).recv = s.recv := rfl
@[simp] theorem chunkFrame_out (s : State) : (chunkFrame s).out = s.out := rfl
@[simp] theorem chunkFrame_text (s : State) : (chunkFrame s).text = s.text := rfl
@[simp] theorem chunkFrame_response (s : State) : (chunkFrame s).response = s.response := rfl
@[simp] theorem chunkFrame_requests (s : State) : (chunkFrame s).requests = s.requests := rfl
@[simp] theorem chunkFrame_cs (s : State) : (chunkFrame s).cs = s.cs := rfl
@[simp] theorem chunkFrame_bus (s : State) : (chunkFrame s).bus = s.bus := rfl
@[simp] theorem chunkFrame_answers (s : State) : (chunkFrame s).answers = s.answers := rfl
@[simp] theorem chunkFrame_drawn (s : State) : (chunkFrame s).drawn = s.drawn := rfl

/-! ## nextPage -/

@[simp] theorem nextPage_busy (s : State) : (nextPage s).busy = s.busy := rfl
@[simp] theorem nextPage_phase (s : State) : (nextPage s).phase = s.phase := rfl
@[simp] theorem nextPage_opc (s : State) : (nextPage s).opc = s.opc := rfl
@[simp] theorem nextPage_argA (s : State) : (nextPage s).argA = s.argA := rfl
@[simp] theorem nextPage_argV (s : State) : (nextPage s).argV = s.argV := rfl
@[simp] theorem nextPage_tmp (s : State) : (nextPage s).tmp = s.tmp := rfl
@[simp] theorem nextPage_pollC (s : State) : (nextPage s).pollC = s.pollC := rfl
@[simp] theorem nextPage_pollT (s : State) : (nextPage s).pollT = s.pollT := rfl
@[simp] theorem nextPage_seen (s : State) : (nextPage s).seen = s.seen := rfl
@[simp] theorem nextPage_crcLo (s : State) : (nextPage s).crcLo = s.crcLo := rfl
@[simp] theorem nextPage_crcHi (s : State) : (nextPage s).crcHi = s.crcHi := rfl
@[simp] theorem nextPage_status (s : State) : (nextPage s).status = s.status := rfl
@[simp] theorem nextPage_err (s : State) : (nextPage s).err = s.err := rfl
@[simp] theorem nextPage_n (s : State) : (nextPage s).n = s.n := rfl
@[simp] theorem nextPage_rem (s : State) : (nextPage s).rem = s.rem := rfl
@[simp] theorem nextPage_vbc (s : State) : (nextPage s).vbc = s.vbc := rfl
@[simp] theorem nextPage_page (s : State) : (nextPage s).page = s.page + 1 := rfl
@[simp] theorem nextPage_idx (s : State) : (nextPage s).idx = s.idx := rfl
@[simp] theorem nextPage_send (s : State) : (nextPage s).send = s.send := rfl
@[simp] theorem nextPage_recv (s : State) : (nextPage s).recv = s.recv := rfl
@[simp] theorem nextPage_out (s : State) : (nextPage s).out = s.out := rfl
@[simp] theorem nextPage_text (s : State) : (nextPage s).text = s.text := rfl
@[simp] theorem nextPage_response (s : State) : (nextPage s).response = s.response := rfl
@[simp] theorem nextPage_requests (s : State) : (nextPage s).requests = s.requests := rfl
@[simp] theorem nextPage_cs (s : State) : (nextPage s).cs = s.cs := rfl
@[simp] theorem nextPage_bus (s : State) : (nextPage s).bus = s.bus := rfl
@[simp] theorem nextPage_answers (s : State) : (nextPage s).answers = s.answers := rfl
@[simp] theorem nextPage_drawn (s : State) : (nextPage s).drawn = s.drawn := rfl

end Sys2Proof.Machine
end

