-- ==== Sys2Proof/Laws/Ops.lean ====
section
/-!
SUPPORT. What each shared operation of Machine/Ops.lean can do: one lemma per operation.
-/

namespace Sys2Proof.Machine

/-! ## The chip's answers -/

/-- Once `i` answers are given, the `k`-th is the `(i + k)`-th of before. -/
@[simp] theorem answerOf_drop (as : List Byte) (d i k : Nat) :
    answerOf (as.drop i) (d + (i - as.length)) k = answerOf as d (i + k) := by
  have h : i - as.length + (k - (as.length - i)) = i + k - as.length := by omega
  simp only [answerOf, List.getElem?_drop, List.length_drop, Nat.add_assoc, h]

theorem drop_answers (as : List Byte) (i j : Nat) : (as.drop i).drop j = as.drop (i + j) := List.drop_drop ..

theorem drawn_add (as : List Byte) (d i j : Nat) :
    d + (i - as.length) + (j - (as.drop i).length) = d + (i + j - as.length) := by
  simp only [List.length_drop]; omega

/-! ## Traces -/

@[simp] theorem wires_nil (c : Cfg) : wires c [] = [] := rfl
@[simp] theorem wires_cons (c : Cfg) (x : Xact) (xs : List Xact) : wires c (x :: xs) = x.wire c ++ wires c xs := rfl
@[simp] theorem wires_append (c : Cfg) (xs ys : List Xact) : wires c (xs ++ ys) = wires c xs ++ wires c ys := by
  simp [wires]

/-! ## What an operation does on the outside of the block -/

/-- `t` is `s` after the transactions `xs`, whose reads took `k` answers of the chip; the host port is untouched. -/
structure Did (c : Cfg) (s t : State) (xs : List Xact) (k : Nat) : Prop where
  bus : t.bus = s.bus ++ wires c xs
  answers : t.answers = s.answers.drop k
  drawn : t.drawn = s.drawn + (k - s.answers.length)

theorem Did.refl (c : Cfg) (s : State) : Did c s s [] 0 := ⟨by simp, by simp, by simp⟩

theorem Did.answer {c s t xs k} (h : Did c s t xs k) (j : Nat) : t.answer j = s.answer (k + j) := by
  simp only [State.answer, h.answers, h.drawn, answerOf_drop]

theorem Did.trans {c s t u xs ys k l} (h : Did c s t xs k) (g : Did c t u ys l) : Did c s u (xs ++ ys) (k + l) where
  bus := by simp [g.bus, h.bus]
  answers := by rw [g.answers, h.answers, drop_answers]
  drawn := by rw [g.drawn, h.drawn, h.answers, drawn_add]

/-- A change of registers alone does nothing outside. -/
theorem Did.local_ {c s t u xs k} (h : Did c s t xs k) (hb : u.bus = t.bus) (ha : u.answers = t.answers)
    (hd : u.drawn = t.drawn) : Did c s u xs k := ⟨hb ▸ h.bus, ha ▸ h.answers, hd ▸ h.drawn⟩

/-- The same of a change of registers before the transactions. -/
theorem Did.from_ {c s s' t xs k} (h : Did c s t xs k) (hb : s.bus = s'.bus) (ha : s.answers = s'.answers)
    (hd : s.drawn = s'.drawn) : Did c s' t xs k := ⟨hb ▸ h.bus, ha ▸ h.answers, by rw [h.drawn, hd, ha]⟩

/-- WRREG (rule R100): one write transaction, no answer taken. -/
theorem wrReg_did (c : Cfg) (a v : Byte) (s : State) : Did c s (wrReg c a v s) [.write a v] 0 :=
  ⟨by simp, by simp, by simp⟩

/-- RDREG (rule R101): one read transaction, which returns the chip's next answer. -/
theorem rdReg_did (c : Cfg) (a : Byte) (s : State) : Did c s (rdReg c a s).2 [.read a (s.answer 0)] 1 :=
  ⟨by simp, by simp, by simp⟩

theorem readTmp_did (c : Cfg) (a : Byte) (s : State) : Did c s (readTmp c a s) [.read a (s.answer 0)] 1 :=
  ⟨by simp, by simp, by simp⟩

/-- SETBITS (rule R102): a read, then the write of the byte read with the mask set. -/
theorem setBits_did (c : Cfg) (a m : Byte) (s : State) :
    Did c s (setBits c a m s) [.read a (s.answer 0), .write a (s.answer 0 ||| m)] 1 :=
  (readTmp_did c a s).trans (by simpa [setBits, writeSet] using wrReg_did c a (s.answer 0 ||| m) (readTmp c a s))

/-- CLRBITS (rule R103): a read, then the write of the byte read with the mask cleared. -/
theorem clrBits_did (c : Cfg) (a m : Byte) (s : State) :
    Did c s (clrBits c a m s) [.read a (s.answer 0), .write a (s.answer 0 &&& ~~~m)] 1 :=
  (readTmp_did c a s).trans (by simpa [clrBits, writeClear] using wrReg_did c a (s.answer 0 &&& ~~~m) (readTmp c a s))

end Sys2Proof.Machine
end

