-- ==== Sys2Proof/Laws/Frames.lean ====
section
/-!
SUPPORT. What each shared operation leaves unchanged: one lemma per operation and register.
-/

namespace Sys2Proof.Machine

/-! ## writeSet -/

@[simp] theorem writeSet_busy (c : Cfg) (a m : Byte) (s : State) : (writeSet c a m s).busy = s.busy := by
  simp [writeSet]
@[simp] theorem writeSet_phase (c : Cfg) (a m : Byte) (s : State) : (writeSet c a m s).phase = s.phase := by
  simp [writeSet]
@[simp] theorem writeSet_opc (c : Cfg) (a m : Byte) (s : State) : (writeSet c a m s).opc = s.opc := by
  simp [writeSet]
@[simp] theorem writeSet_argA (c : Cfg) (a m : Byte) (s : State) : (writeSet c a m s).argA = s.argA := by
  simp [writeSet]
@[simp] theorem writeSet_argV (c : Cfg) (a m : Byte) (s : State) : (writeSet c a m s).argV = s.argV := by
  simp [writeSet]
@[simp] theorem writeSet_tmp (c : Cfg) (a m : Byte) (s : State) : (writeSet c a m s).tmp = s.tmp := by
  simp [writeSet]
@[simp] theorem writeSet_pollC (c : Cfg) (a m : Byte) (s : State) : (writeSet c a m s).pollC = s.pollC := by
  simp [writeSet]
@[simp] theorem writeSet_pollT (c : Cfg) (a m : Byte) (s : State) : (writeSet c a m s).pollT = s.pollT := by
  simp [writeSet]
@[simp] theorem writeSet_seen (c : Cfg) (a m : Byte) (s : State) : (writeSet c a m s).seen = s.seen := by
  simp [writeSet]
@[simp] theorem writeSet_crcLo (c : Cfg) (a m : Byte) (s : State) : (writeSet c a m s).crcLo = s.crcLo := by
  simp [writeSet]
@[simp] theorem writeSet_crcHi (c : Cfg) (a m : Byte) (s : State) : (writeSet c a m s).crcHi = s.crcHi := by
  simp [writeSet]
@[simp] theorem writeSet_status (c : Cfg) (a m : Byte) (s : State) : (writeSet c a m s).status = s.status := by
  simp [writeSet]
@[simp] theorem writeSet_err (c : Cfg) (a m : Byte) (s : State) : (writeSet c a m s).err = s.err := by
  simp [writeSet]
@[simp] theorem writeSet_n (c : Cfg) (a m : Byte) (s : State) : (writeSet c a m s).n = s.n := by
  simp [writeSet]
@[simp] theorem writeSet_rem (c : Cfg) (a m : Byte) (s : State) : (writeSet c a m s).rem = s.rem := by
  simp [writeSet]
@[simp] theorem writeSet_vbc (c : Cfg) (a m : Byte) (s : State) : (writeSet c a m s).vbc = s.vbc := by
  simp [writeSet]
@[simp] theorem writeSet_page (c : Cfg) (a m : Byte) (s : State) : (writeSet c a m s).page = s.page := by
  simp [writeSet]
@[simp] theorem writeSet_idx (c : Cfg) (a m : Byte) (s : State) : (writeSet c a m s).idx = s.idx := by
  simp [writeSet]
@[simp] theorem writeSet_send (c : Cfg) (a m : Byte) (s : State) : (writeSet c a m s).send = s.send := by
  simp [writeSet]
@[simp] theorem writeSet_recv (c : Cfg) (a m : Byte) (s : State) : (writeSet c a m s).recv = s.recv := by
  simp [writeSet]
@[simp] theorem writeSet_out (c : Cfg) (a m : Byte) (s : State) : (writeSet c a m s).out = s.out := by
  simp [writeSet]
@[simp] theorem writeSet_text (c : Cfg) (a m : Byte) (s : State) : (writeSet c a m s).text = s.text := by
  simp [writeSet]
@[simp] theorem writeSet_response (c : Cfg) (a m : Byte) (s : State) : (writeSet c a m s).response = s.response := by
  simp [writeSet]
@[simp] theorem writeSet_requests (c : Cfg) (a m : Byte) (s : State) : (writeSet c a m s).requests = s.requests := by
  simp [writeSet]

/-! ## writeClear -/

@[simp] theorem writeClear_busy (c : Cfg) (a m : Byte) (s : State) : (writeClear c a m s).busy = s.busy := by
  simp [writeClear]
@[simp] theorem writeClear_phase (c : Cfg) (a m : Byte) (s : State) : (writeClear c a m s).phase = s.phase := by
  simp [writeClear]
@[simp] theorem writeClear_opc (c : Cfg) (a m : Byte) (s : State) : (writeClear c a m s).opc = s.opc := by
  simp [writeClear]
@[simp] theorem writeClear_argA (c : Cfg) (a m : Byte) (s : State) : (writeClear c a m s).argA = s.argA := by
  simp [writeClear]
@[simp] theorem writeClear_argV (c : Cfg) (a m : Byte) (s : State) : (writeClear c a m s).argV = s.argV := by
  simp [writeClear]
@[simp] theorem writeClear_tmp (c : Cfg) (a m : Byte) (s : State) : (writeClear c a m s).tmp = s.tmp := by
  simp [writeClear]
@[simp] theorem writeClear_pollC (c : Cfg) (a m : Byte) (s : State) : (writeClear c a m s).pollC = s.pollC := by
  simp [writeClear]
@[simp] theorem writeClear_pollT (c : Cfg) (a m : Byte) (s : State) : (writeClear c a m s).pollT = s.pollT := by
  simp [writeClear]
@[simp] theorem writeClear_seen (c : Cfg) (a m : Byte) (s : State) : (writeClear c a m s).seen = s.seen := by
  simp [writeClear]
@[simp] theorem writeClear_crcLo (c : Cfg) (a m : Byte) (s : State) : (writeClear c a m s).crcLo = s.crcLo := by
  simp [writeClear]
@[simp] theorem writeClear_crcHi (c : Cfg) (a m : Byte) (s : State) : (writeClear c a m s).crcHi = s.crcHi := by
  simp [writeClear]
@[simp] theorem writeClear_status (c : Cfg) (a m : Byte) (s : State) : (writeClear c a m s).status = s.status := by
  simp [writeClear]
@[simp] theorem writeClear_err (c : Cfg) (a m : Byte) (s : State) : (writeClear c a m s).err = s.err := by
  simp [writeClear]
@[simp] theorem writeClear_n (c : Cfg) (a m : Byte) (s : State) : (writeClear c a m s).n = s.n := by
  simp [writeClear]
@[simp] theorem writeClear_rem (c : Cfg) (a m : Byte) (s : State) : (writeClear c a m s).rem = s.rem := by
  simp [writeClear]
@[simp] theorem writeClear_vbc (c : Cfg) (a m : Byte) (s : State) : (writeClear c a m s).vbc = s.vbc := by
  simp [writeClear]
@[simp] theorem writeClear_page (c : Cfg) (a m : Byte) (s : State) : (writeClear c a m s).page = s.page := by
  simp [writeClear]
@[simp] theorem writeClear_idx (c : Cfg) (a m : Byte) (s : State) : (writeClear c a m s).idx = s.idx := by
  simp [writeClear]
@[simp] theorem writeClear_send (c : Cfg) (a m : Byte) (s : State) : (writeClear c a m s).send = s.send := by
  simp [writeClear]
@[simp] theorem writeClear_recv (c : Cfg) (a m : Byte) (s : State) : (writeClear c a m s).recv = s.recv := by
  simp [writeClear]
@[simp] theorem writeClear_out (c : Cfg) (a m : Byte) (s : State) : (writeClear c a m s).out = s.out := by
  simp [writeClear]
@[simp] theorem writeClear_text (c : Cfg) (a m : Byte) (s : State) : (writeClear c a m s).text = s.text := by
  simp [writeClear]
@[simp] theorem writeClear_response (c : Cfg) (a m : Byte) (s : State) : (writeClear c a m s).response = s.response := by
  simp [writeClear]
@[simp] theorem writeClear_requests (c : Cfg) (a m : Byte) (s : State) : (writeClear c a m s).requests = s.requests := by
  simp [writeClear]

/-! ## setBits -/

@[simp] theorem setBits_busy (c : Cfg) (a m : Byte) (s : State) : (setBits c a m s).busy = s.busy := by
  simp [setBits]
@[simp] theorem setBits_phase (c : Cfg) (a m : Byte) (s : State) : (setBits c a m s).phase = s.phase := by
  simp [setBits]
@[simp] theorem setBits_opc (c : Cfg) (a m : Byte) (s : State) : (setBits c a m s).opc = s.opc := by
  simp [setBits]
@[simp] theorem setBits_argA (c : Cfg) (a m : Byte) (s : State) : (setBits c a m s).argA = s.argA := by
  simp [setBits]
@[simp] theorem setBits_argV (c : Cfg) (a m : Byte) (s : State) : (setBits c a m s).argV = s.argV := by
  simp [setBits]
@[simp] theorem setBits_pollC (c : Cfg) (a m : Byte) (s : State) : (setBits c a m s).pollC = s.pollC := by
  simp [setBits]
@[simp] theorem setBits_pollT (c : Cfg) (a m : Byte) (s : State) : (setBits c a m s).pollT = s.pollT := by
  simp [setBits]
@[simp] theorem setBits_seen (c : Cfg) (a m : Byte) (s : State) : (setBits c a m s).seen = s.seen := by
  simp [setBits]
@[simp] theorem setBits_crcLo (c : Cfg) (a m : Byte) (s : State) : (setBits c a m s).crcLo = s.crcLo := by
  simp [setBits]
@[simp] theorem setBits_crcHi (c : Cfg) (a m : Byte) (s : State) : (setBits c a m s).crcHi = s.crcHi := by
  simp [setBits]
@[simp] theorem setBits_status (c : Cfg) (a m : Byte) (s : State) : (setBits c a m s).status = s.status := by
  simp [setBits]
@[simp] theorem setBits_err (c : Cfg) (a m : Byte) (s : State) : (setBits c a m s).err = s.err := by
  simp [setBits]
@[simp] theorem setBits_n (c : Cfg) (a m : Byte) (s : State) : (setBits c a m s).n = s.n := by
  simp [setBits]
@[simp] theorem setBits_rem (c : Cfg) (a m : Byte) (s : State) : (setBits c a m s).rem = s.rem := by
  simp [setBits]
@[simp] theorem setBits_vbc (c : Cfg) (a m : Byte) (s : State) : (setBits c a m s).vbc = s.vbc := by
  simp [setBits]
@[simp] theorem setBits_page (c : Cfg) (a m : Byte) (s : State) : (setBits c a m s).page = s.page := by
  simp [setBits]
@[simp] theorem setBits_idx (c : Cfg) (a m : Byte) (s : State) : (setBits c a m s).idx = s.idx := by
  simp [setBits]
@[simp] theorem setBits_send (c : Cfg) (a m : Byte) (s : State) : (setBits c a m s).send = s.send := by
  simp [setBits]
@[simp] theorem setBits_recv (c : Cfg) (a m : Byte) (s : State) : (setBits c a m s).recv = s.recv := by
  simp [setBits]
@[simp] theorem setBits_out (c : Cfg) (a m : Byte) (s : State) : (setBits c a m s).out = s.out := by
  simp [setBits]
@[simp] theorem setBits_text (c : Cfg) (a m : Byte) (s : State) : (setBits c a m s).text = s.text := by
  simp [setBits]
@[simp] theorem setBits_response (c : Cfg) (a m : Byte) (s : State) : (setBits c a m s).response = s.response := by
  simp [setBits]
@[simp] theorem setBits_requests (c : Cfg) (a m : Byte) (s : State) : (setBits c a m s).requests = s.requests := by
  simp [setBits]

/-! ## clrBits -/

@[simp] theorem clrBits_busy (c : Cfg) (a m : Byte) (s : State) : (clrBits c a m s).busy = s.busy := by
  simp [clrBits]
@[simp] theorem clrBits_phase (c : Cfg) (a m : Byte) (s : State) : (clrBits c a m s).phase = s.phase := by
  simp [clrBits]
@[simp] theorem clrBits_opc (c : Cfg) (a m : Byte) (s : State) : (clrBits c a m s).opc = s.opc := by
  simp [clrBits]
@[simp] theorem clrBits_argA (c : Cfg) (a m : Byte) (s : State) : (clrBits c a m s).argA = s.argA := by
  simp [clrBits]
@[simp] theorem clrBits_argV (c : Cfg) (a m : Byte) (s : State) : (clrBits c a m s).argV = s.argV := by
  simp [clrBits]
@[simp] theorem clrBits_pollC (c : Cfg) (a m : Byte) (s : State) : (clrBits c a m s).pollC = s.pollC := by
  simp [clrBits]
@[simp] theorem clrBits_pollT (c : Cfg) (a m : Byte) (s : State) : (clrBits c a m s).pollT = s.pollT := by
  simp [clrBits]
@[simp] theorem clrBits_seen (c : Cfg) (a m : Byte) (s : State) : (clrBits c a m s).seen = s.seen := by
  simp [clrBits]
@[simp] theorem clrBits_crcLo (c : Cfg) (a m : Byte) (s : State) : (clrBits c a m s).crcLo = s.crcLo := by
  simp [clrBits]
@[simp] theorem clrBits_crcHi (c : Cfg) (a m : Byte) (s : State) : (clrBits c a m s).crcHi = s.crcHi := by
  simp [clrBits]
@[simp] theorem clrBits_status (c : Cfg) (a m : Byte) (s : State) : (clrBits c a m s).status = s.status := by
  simp [clrBits]
@[simp] theorem clrBits_err (c : Cfg) (a m : Byte) (s : State) : (clrBits c a m s).err = s.err := by
  simp [clrBits]
@[simp] theorem clrBits_n (c : Cfg) (a m : Byte) (s : State) : (clrBits c a m s).n = s.n := by
  simp [clrBits]
@[simp] theorem clrBits_rem (c : Cfg) (a m : Byte) (s : State) : (clrBits c a m s).rem = s.rem := by
  simp [clrBits]
@[simp] theorem clrBits_vbc (c : Cfg) (a m : Byte) (s : State) : (clrBits c a m s).vbc = s.vbc := by
  simp [clrBits]
@[simp] theorem clrBits_page (c : Cfg) (a m : Byte) (s : State) : (clrBits c a m s).page = s.page := by
  simp [clrBits]
@[simp] theorem clrBits_idx (c : Cfg) (a m : Byte) (s : State) : (clrBits c a m s).idx = s.idx := by
  simp [clrBits]
@[simp] theorem clrBits_send (c : Cfg) (a m : Byte) (s : State) : (clrBits c a m s).send = s.send := by
  simp [clrBits]
@[simp] theorem clrBits_recv (c : Cfg) (a m : Byte) (s : State) : (clrBits c a m s).recv = s.recv := by
  simp [clrBits]
@[simp] theorem clrBits_out (c : Cfg) (a m : Byte) (s : State) : (clrBits c a m s).out = s.out := by
  simp [clrBits]
@[simp] theorem clrBits_text (c : Cfg) (a m : Byte) (s : State) : (clrBits c a m s).text = s.text := by
  simp [clrBits]
@[simp] theorem clrBits_response (c : Cfg) (a m : Byte) (s : State) : (clrBits c a m s).response = s.response := by
  simp [clrBits]
@[simp] theorem clrBits_requests (c : Cfg) (a m : Byte) (s : State) : (clrBits c a m s).requests = s.requests := by
  simp [clrBits]

/-! ## loadOne -/

@[simp] theorem loadOne_busy (c : Cfg) (s : State) : (loadOne c s).busy = s.busy := by
  simp [loadOne]
@[simp] theorem loadOne_phase (c : Cfg) (s : State) : (loadOne c s).phase = s.phase := by
  simp [loadOne]
@[simp] theorem loadOne_opc (c : Cfg) (s : State) : (loadOne c s).opc = s.opc := by
  simp [loadOne]
@[simp] theorem loadOne_argA (c : Cfg) (s : State) : (loadOne c s).argA = s.argA := by
  simp [loadOne]
@[simp] theorem loadOne_argV (c : Cfg) (s : State) : (loadOne c s).argV = s.argV := by
  simp [loadOne]
@[simp] theorem loadOne_tmp (c : Cfg) (s : State) : (loadOne c s).tmp = s.tmp := by
  simp [loadOne]
@[simp] theorem loadOne_pollC (c : Cfg) (s : State) : (loadOne c s).pollC = s.pollC := by
  simp [loadOne]
@[simp] theorem loadOne_pollT (c : Cfg) (s : State) : (loadOne c s).pollT = s.pollT := by
  simp [loadOne]
@[simp] theorem loadOne_seen (c : Cfg) (s : State) : (loadOne c s).seen = s.seen := by
  simp [loadOne]
@[simp] theorem loadOne_crcLo (c : Cfg) (s : State) : (loadOne c s).crcLo = s.crcLo := by
  simp [loadOne]
@[simp] theorem loadOne_crcHi (c : Cfg) (s : State) : (loadOne c s).crcHi = s.crcHi := by
  simp [loadOne]
@[simp] theorem loadOne_status (c : Cfg) (s : State) : (loadOne c s).status = s.status := by
  simp [loadOne]
@[simp] theorem loadOne_err (c : Cfg) (s : State) : (loadOne c s).err = s.err := by
  simp [loadOne]
@[simp] theorem loadOne_n (c : Cfg) (s : State) : (loadOne c s).n = s.n := by
  simp [loadOne]
@[simp] theorem loadOne_rem (c : Cfg) (s : State) : (loadOne c s).rem = s.rem := by
  simp [loadOne]
@[simp] theorem loadOne_vbc (c : Cfg) (s : State) : (loadOne c s).vbc = s.vbc := by
  simp [loadOne]
@[simp] theorem loadOne_page (c : Cfg) (s : State) : (loadOne c s).page = s.page := by
  simp [loadOne]
@[simp] theorem loadOne_send (c : Cfg) (s : State) : (loadOne c s).send = s.send := by
  simp [loadOne]
@[simp] theorem loadOne_recv (c : Cfg) (s : State) : (loadOne c s).recv = s.recv := by
  simp [loadOne]
@[simp] theorem loadOne_out (c : Cfg) (s : State) : (loadOne c s).out = s.out := by
  simp [loadOne]
@[simp] theorem loadOne_text (c : Cfg) (s : State) : (loadOne c s).text = s.text := by
  simp [loadOne]
@[simp] theorem loadOne_response (c : Cfg) (s : State) : (loadOne c s).response = s.response := by
  simp [loadOne]
@[simp] theorem loadOne_requests (c : Cfg) (s : State) : (loadOne c s).requests = s.requests := by
  simp [loadOne]

/-! ## loadLoop -/

@[simp] theorem loadLoop_busy (c : Cfg) (k : Nat) (s : State) : (loadLoop c k s).busy = s.busy := by
  induction k generalizing s <;> simp_all [loadLoop]
@[simp] theorem loadLoop_phase (c : Cfg) (k : Nat) (s : State) : (loadLoop c k s).phase = s.phase := by
  induction k generalizing s <;> simp_all [loadLoop]
@[simp] theorem loadLoop_opc (c : Cfg) (k : Nat) (s : State) : (loadLoop c k s).opc = s.opc := by
  induction k generalizing s <;> simp_all [loadLoop]
@[simp] theorem loadLoop_argA (c : Cfg) (k : Nat) (s : State) : (loadLoop c k s).argA = s.argA := by
  induction k generalizing s <;> simp_all [loadLoop]
@[simp] theorem loadLoop_argV (c : Cfg) (k : Nat) (s : State) : (loadLoop c k s).argV = s.argV := by
  induction k generalizing s <;> simp_all [loadLoop]
@[simp] theorem loadLoop_tmp (c : Cfg) (k : Nat) (s : State) : (loadLoop c k s).tmp = s.tmp := by
  induction k generalizing s <;> simp_all [loadLoop]
@[simp] theorem loadLoop_pollC (c : Cfg) (k : Nat) (s : State) : (loadLoop c k s).pollC = s.pollC := by
  induction k generalizing s <;> simp_all [loadLoop]
@[simp] theorem loadLoop_pollT (c : Cfg) (k : Nat) (s : State) : (loadLoop c k s).pollT = s.pollT := by
  induction k generalizing s <;> simp_all [loadLoop]
@[simp] theorem loadLoop_seen (c : Cfg) (k : Nat) (s : State) : (loadLoop c k s).seen = s.seen := by
  induction k generalizing s <;> simp_all [loadLoop]
@[simp] theorem loadLoop_crcLo (c : Cfg) (k : Nat) (s : State) : (loadLoop c k s).crcLo = s.crcLo := by
  induction k generalizing s <;> simp_all [loadLoop]
@[simp] theorem loadLoop_crcHi (c : Cfg) (k : Nat) (s : State) : (loadLoop c k s).crcHi = s.crcHi := by
  induction k generalizing s <;> simp_all [loadLoop]
@[simp] theorem loadLoop_status (c : Cfg) (k : Nat) (s : State) : (loadLoop c k s).status = s.status := by
  induction k generalizing s <;> simp_all [loadLoop]
@[simp] theorem loadLoop_err (c : Cfg) (k : Nat) (s : State) : (loadLoop c k s).err = s.err := by
  induction k generalizing s <;> simp_all [loadLoop]
@[simp] theorem loadLoop_n (c : Cfg) (k : Nat) (s : State) : (loadLoop c k s).n = s.n := by
  induction k generalizing s <;> simp_all [loadLoop]
@[simp] theorem loadLoop_rem (c : Cfg) (k : Nat) (s : State) : (loadLoop c k s).rem = s.rem := by
  induction k generalizing s <;> simp_all [loadLoop]
@[simp] theorem loadLoop_vbc (c : Cfg) (k : Nat) (s : State) : (loadLoop c k s).vbc = s.vbc := by
  induction k generalizing s <;> simp_all [loadLoop]
@[simp] theorem loadLoop_page (c : Cfg) (k : Nat) (s : State) : (loadLoop c k s).page = s.page := by
  induction k generalizing s <;> simp_all [loadLoop]
@[simp] theorem loadLoop_send (c : Cfg) (k : Nat) (s : State) : (loadLoop c k s).send = s.send := by
  induction k generalizing s <;> simp_all [loadLoop]
@[simp] theorem loadLoop_recv (c : Cfg) (k : Nat) (s : State) : (loadLoop c k s).recv = s.recv := by
  induction k generalizing s <;> simp_all [loadLoop]
@[simp] theorem loadLoop_out (c : Cfg) (k : Nat) (s : State) : (loadLoop c k s).out = s.out := by
  induction k generalizing s <;> simp_all [loadLoop]
@[simp] theorem loadLoop_text (c : Cfg) (k : Nat) (s : State) : (loadLoop c k s).text = s.text := by
  induction k generalizing s <;> simp_all [loadLoop]
@[simp] theorem loadLoop_response (c : Cfg) (k : Nat) (s : State) : (loadLoop c k s).response = s.response := by
  induction k generalizing s <;> simp_all [loadLoop]
@[simp] theorem loadLoop_requests (c : Cfg) (k : Nat) (s : State) : (loadLoop c k s).requests = s.requests := by
  induction k generalizing s <;> simp_all [loadLoop]

/-! ## loadFifo -/

@[simp] theorem loadFifo_busy (c : Cfg) (s : State) : (loadFifo c s).busy = s.busy := by
  simp [loadFifo]
@[simp] theorem loadFifo_phase (c : Cfg) (s : State) : (loadFifo c s).phase = s.phase := by
  simp [loadFifo]
@[simp] theorem loadFifo_opc (c : Cfg) (s : State) : (loadFifo c s).opc = s.opc := by
  simp [loadFifo]
@[simp] theorem loadFifo_argA (c : Cfg) (s : State) : (loadFifo c s).argA = s.argA := by
  simp [loadFifo]
@[simp] theorem loadFifo_argV (c : Cfg) (s : State) : (loadFifo c s).argV = s.argV := by
  simp [loadFifo]
@[simp] theorem loadFifo_tmp (c : Cfg) (s : State) : (loadFifo c s).tmp = s.tmp := by
  simp [loadFifo]
@[simp] theorem loadFifo_pollC (c : Cfg) (s : State) : (loadFifo c s).pollC = s.pollC := by
  simp [loadFifo]
@[simp] theorem loadFifo_pollT (c : Cfg) (s : State) : (loadFifo c s).pollT = s.pollT := by
  simp [loadFifo]
@[simp] theorem loadFifo_seen (c : Cfg) (s : State) : (loadFifo c s).seen = s.seen := by
  simp [loadFifo]
@[simp] theorem loadFifo_crcLo (c : Cfg) (s : State) : (loadFifo c s).crcLo = s.crcLo := by
  simp [loadFifo]
@[simp] theorem loadFifo_crcHi (c : Cfg) (s : State) : (loadFifo c s).crcHi = s.crcHi := by
  simp [loadFifo]
@[simp] theorem loadFifo_status (c : Cfg) (s : State) : (loadFifo c s).status = s.status := by
  simp [loadFifo]
@[simp] theorem loadFifo_err (c : Cfg) (s : State) : (loadFifo c s).err = s.err := by
  simp [loadFifo]
@[simp] theorem loadFifo_n (c : Cfg) (s : State) : (loadFifo c s).n = s.n := by
  simp [loadFifo]
@[simp] theorem loadFifo_rem (c : Cfg) (s : State) : (loadFifo c s).rem = s.rem := by
  simp [loadFifo]
@[simp] theorem loadFifo_vbc (c : Cfg) (s : State) : (loadFifo c s).vbc = s.vbc := by
  simp [loadFifo]
@[simp] theorem loadFifo_page (c : Cfg) (s : State) : (loadFifo c s).page = s.page := by
  simp [loadFifo]
@[simp] theorem loadFifo_send (c : Cfg) (s : State) : (loadFifo c s).send = s.send := by
  simp [loadFifo]
@[simp] theorem loadFifo_recv (c : Cfg) (s : State) : (loadFifo c s).recv = s.recv := by
  simp [loadFifo]
@[simp] theorem loadFifo_out (c : Cfg) (s : State) : (loadFifo c s).out = s.out := by
  simp [loadFifo]
@[simp] theorem loadFifo_text (c : Cfg) (s : State) : (loadFifo c s).text = s.text := by
  simp [loadFifo]
@[simp] theorem loadFifo_response (c : Cfg) (s : State) : (loadFifo c s).response = s.response := by
  simp [loadFifo]
@[simp] theorem loadFifo_requests (c : Cfg) (s : State) : (loadFifo c s).requests = s.requests := by
  simp [loadFifo]

/-! ## crcPollRead -/

@[simp] theorem crcPollRead_busy (c : Cfg) (s : State) : (crcPollRead c s).busy = s.busy := by
  simp [crcPollRead]
@[simp] theorem crcPollRead_phase (c : Cfg) (s : State) : (crcPollRead c s).phase = s.phase := by
  simp [crcPollRead]
@[simp] theorem crcPollRead_opc (c : Cfg) (s : State) : (crcPollRead c s).opc = s.opc := by
  simp [crcPollRead]
@[simp] theorem crcPollRead_argA (c : Cfg) (s : State) : (crcPollRead c s).argA = s.argA := by
  simp [crcPollRead]
@[simp] theorem crcPollRead_argV (c : Cfg) (s : State) : (crcPollRead c s).argV = s.argV := by
  simp [crcPollRead]
@[simp] theorem crcPollRead_pollT (c : Cfg) (s : State) : (crcPollRead c s).pollT = s.pollT := by
  simp [crcPollRead]
@[simp] theorem crcPollRead_seen (c : Cfg) (s : State) : (crcPollRead c s).seen = s.seen := by
  simp [crcPollRead]
@[simp] theorem crcPollRead_crcLo (c : Cfg) (s : State) : (crcPollRead c s).crcLo = s.crcLo := by
  simp [crcPollRead]
@[simp] theorem crcPollRead_crcHi (c : Cfg) (s : State) : (crcPollRead c s).crcHi = s.crcHi := by
  simp [crcPollRead]
@[simp] theorem crcPollRead_status (c : Cfg) (s : State) : (crcPollRead c s).status = s.status := by
  simp [crcPollRead]
@[simp] theorem crcPollRead_err (c : Cfg) (s : State) : (crcPollRead c s).err = s.err := by
  simp [crcPollRead]
@[simp] theorem crcPollRead_n (c : Cfg) (s : State) : (crcPollRead c s).n = s.n := by
  simp [crcPollRead]
@[simp] theorem crcPollRead_rem (c : Cfg) (s : State) : (crcPollRead c s).rem = s.rem := by
  simp [crcPollRead]
@[simp] theorem crcPollRead_vbc (c : Cfg) (s : State) : (crcPollRead c s).vbc = s.vbc := by
  simp [crcPollRead]
@[simp] theorem crcPollRead_page (c : Cfg) (s : State) : (crcPollRead c s).page = s.page := by
  simp [crcPollRead]
@[simp] theorem crcPollRead_idx (c : Cfg) (s : State) : (crcPollRead c s).idx = s.idx := by
  simp [crcPollRead]
@[simp] theorem crcPollRead_send (c : Cfg) (s : State) : (crcPollRead c s).send = s.send := by
  simp [crcPollRead]
@[simp] theorem crcPollRead_recv (c : Cfg) (s : State) : (crcPollRead c s).recv = s.recv := by
  simp [crcPollRead]
@[simp] theorem crcPollRead_out (c : Cfg) (s : State) : (crcPollRead c s).out = s.out := by
  simp [crcPollRead]
@[simp] theorem crcPollRead_text (c : Cfg) (s : State) : (crcPollRead c s).text = s.text := by
  simp [crcPollRead]
@[simp] theorem crcPollRead_response (c : Cfg) (s : State) : (crcPollRead c s).response = s.response := by
  simp [crcPollRead]
@[simp] theorem crcPollRead_requests (c : Cfg) (s : State) : (crcPollRead c s).requests = s.requests := by
  simp [crcPollRead]

/-! ## crcPollLoop -/

@[simp] theorem crcPollLoop_busy (c : Cfg) (k : Nat) (s : State) : (crcPollLoop c k s).busy = s.busy := by
  induction k generalizing s with
  | zero => rfl
  | succ k ih => simp only [crcPollLoop]; split <;> simp_all
@[simp] theorem crcPollLoop_phase (c : Cfg) (k : Nat) (s : State) : (crcPollLoop c k s).phase = s.phase := by
  induction k generalizing s with
  | zero => rfl
  | succ k ih => simp only [crcPollLoop]; split <;> simp_all
@[simp] theorem crcPollLoop_opc (c : Cfg) (k : Nat) (s : State) : (crcPollLoop c k s).opc = s.opc := by
  induction k generalizing s with
  | zero => rfl
  | succ k ih => simp only [crcPollLoop]; split <;> simp_all
@[simp] theorem crcPollLoop_argA (c : Cfg) (k : Nat) (s : State) : (crcPollLoop c k s).argA = s.argA := by
  induction k generalizing s with
  | zero => rfl
  | succ k ih => simp only [crcPollLoop]; split <;> simp_all
@[simp] theorem crcPollLoop_argV (c : Cfg) (k : Nat) (s : State) : (crcPollLoop c k s).argV = s.argV := by
  induction k generalizing s with
  | zero => rfl
  | succ k ih => simp only [crcPollLoop]; split <;> simp_all
@[simp] theorem crcPollLoop_pollT (c : Cfg) (k : Nat) (s : State) : (crcPollLoop c k s).pollT = s.pollT := by
  induction k generalizing s with
  | zero => rfl
  | succ k ih => simp only [crcPollLoop]; split <;> simp_all
@[simp] theorem crcPollLoop_seen (c : Cfg) (k : Nat) (s : State) : (crcPollLoop c k s).seen = s.seen := by
  induction k generalizing s with
  | zero => rfl
  | succ k ih => simp only [crcPollLoop]; split <;> simp_all
@[simp] theorem crcPollLoop_crcLo (c : Cfg) (k : Nat) (s : State) : (crcPollLoop c k s).crcLo = s.crcLo := by
  induction k generalizing s with
  | zero => rfl
  | succ k ih => simp only [crcPollLoop]; split <;> simp_all
@[simp] theorem crcPollLoop_crcHi (c : Cfg) (k : Nat) (s : State) : (crcPollLoop c k s).crcHi = s.crcHi := by
  induction k generalizing s with
  | zero => rfl
  | succ k ih => simp only [crcPollLoop]; split <;> simp_all
@[simp] theorem crcPollLoop_status (c : Cfg) (k : Nat) (s : State) : (crcPollLoop c k s).status = s.status := by
  induction k generalizing s with
  | zero => rfl
  | succ k ih => simp only [crcPollLoop]; split <;> simp_all
@[simp] theorem crcPollLoop_err (c : Cfg) (k : Nat) (s : State) : (crcPollLoop c k s).err = s.err := by
  induction k generalizing s with
  | zero => rfl
  | succ k ih => simp only [crcPollLoop]; split <;> simp_all
@[simp] theorem crcPollLoop_n (c : Cfg) (k : Nat) (s : State) : (crcPollLoop c k s).n = s.n := by
  induction k generalizing s with
  | zero => rfl
  | succ k ih => simp only [crcPollLoop]; split <;> simp_all
@[simp] theorem crcPollLoop_rem (c : Cfg) (k : Nat) (s : State) : (crcPollLoop c k s).rem = s.rem := by
  induction k generalizing s with
  | zero => rfl
  | succ k ih => simp only [crcPollLoop]; split <;> simp_all
@[simp] theorem crcPollLoop_vbc (c : Cfg) (k : Nat) (s : State) : (crcPollLoop c k s).vbc = s.vbc := by
  induction k generalizing s with
  | zero => rfl
  | succ k ih => simp only [crcPollLoop]; split <;> simp_all
@[simp] theorem crcPollLoop_page (c : Cfg) (k : Nat) (s : State) : (crcPollLoop c k s).page = s.page := by
  induction k generalizing s with
  | zero => rfl
  | succ k ih => simp only [crcPollLoop]; split <;> simp_all
@[simp] theorem crcPollLoop_idx (c : Cfg) (k : Nat) (s : State) : (crcPollLoop c k s).idx = s.idx := by
  induction k generalizing s with
  | zero => rfl
  | succ k ih => simp only [crcPollLoop]; split <;> simp_all
@[simp] theorem crcPollLoop_send (c : Cfg) (k : Nat) (s : State) : (crcPollLoop c k s).send = s.send := by
  induction k generalizing s with
  | zero => rfl
  | succ k ih => simp only [crcPollLoop]; split <;> simp_all
@[simp] theorem crcPollLoop_recv (c : Cfg) (k : Nat) (s : State) : (crcPollLoop c k s).recv = s.recv := by
  induction k generalizing s with
  | zero => rfl
  | succ k ih => simp only [crcPollLoop]; split <;> simp_all
@[simp] theorem crcPollLoop_out (c : Cfg) (k : Nat) (s : State) : (crcPollLoop c k s).out = s.out := by
  induction k generalizing s with
  | zero => rfl
  | succ k ih => simp only [crcPollLoop]; split <;> simp_all
@[simp] theorem crcPollLoop_text (c : Cfg) (k : Nat) (s : State) : (crcPollLoop c k s).text = s.text := by
  induction k generalizing s with
  | zero => rfl
  | succ k ih => simp only [crcPollLoop]; split <;> simp_all
@[simp] theorem crcPollLoop_response (c : Cfg) (k : Nat) (s : State) : (crcPollLoop c k s).response = s.response := by
  induction k generalizing s with
  | zero => rfl
  | succ k ih => simp only [crcPollLoop]; split <;> simp_all
@[simp] theorem crcPollLoop_requests (c : Cfg) (k : Nat) (s : State) : (crcPollLoop c k s).requests = s.requests := by
  induction k generalizing s with
  | zero => rfl
  | succ k ih => simp only [crcPollLoop]; split <;> simp_all

/-! ## crcPoll -/

@[simp] theorem crcPoll_busy (c : Cfg) (s : State) : (crcPoll c s).busy = s.busy := by
  simp [crcPoll]
@[simp] theorem crcPoll_phase (c : Cfg) (s : State) : (crcPoll c s).phase = s.phase := by
  simp [crcPoll]
@[simp] theorem crcPoll_opc (c : Cfg) (s : State) : (crcPoll c s).opc = s.opc := by
  simp [crcPoll]
@[simp] theorem crcPoll_argA (c : Cfg) (s : State) : (crcPoll c s).argA = s.argA := by
  simp [crcPoll]
@[simp] theorem crcPoll_argV (c : Cfg) (s : State) : (crcPoll c s).argV = s.argV := by
  simp [crcPoll]
@[simp] theorem crcPoll_pollT (c : Cfg) (s : State) : (crcPoll c s).pollT = s.pollT := by
  simp [crcPoll]
@[simp] theorem crcPoll_seen (c : Cfg) (s : State) : (crcPoll c s).seen = s.seen := by
  simp [crcPoll]
@[simp] theorem crcPoll_crcLo (c : Cfg) (s : State) : (crcPoll c s).crcLo = s.crcLo := by
  simp [crcPoll]
@[simp] theorem crcPoll_crcHi (c : Cfg) (s : State) : (crcPoll c s).crcHi = s.crcHi := by
  simp [crcPoll]
@[simp] theorem crcPoll_status (c : Cfg) (s : State) : (crcPoll c s).status = s.status := by
  simp [crcPoll]
@[simp] theorem crcPoll_err (c : Cfg) (s : State) : (crcPoll c s).err = s.err := by
  simp [crcPoll]
@[simp] theorem crcPoll_n (c : Cfg) (s : State) : (crcPoll c s).n = s.n := by
  simp [crcPoll]
@[simp] theorem crcPoll_rem (c : Cfg) (s : State) : (crcPoll c s).rem = s.rem := by
  simp [crcPoll]
@[simp] theorem crcPoll_vbc (c : Cfg) (s : State) : (crcPoll c s).vbc = s.vbc := by
  simp [crcPoll]
@[simp] theorem crcPoll_page (c : Cfg) (s : State) : (crcPoll c s).page = s.page := by
  simp [crcPoll]
@[simp] theorem crcPoll_idx (c : Cfg) (s : State) : (crcPoll c s).idx = s.idx := by
  simp [crcPoll]
@[simp] theorem crcPoll_send (c : Cfg) (s : State) : (crcPoll c s).send = s.send := by
  simp [crcPoll]
@[simp] theorem crcPoll_recv (c : Cfg) (s : State) : (crcPoll c s).recv = s.recv := by
  simp [crcPoll]
@[simp] theorem crcPoll_out (c : Cfg) (s : State) : (crcPoll c s).out = s.out := by
  simp [crcPoll]
@[simp] theorem crcPoll_text (c : Cfg) (s : State) : (crcPoll c s).text = s.text := by
  simp [crcPoll]
@[simp] theorem crcPoll_response (c : Cfg) (s : State) : (crcPoll c s).response = s.response := by
  simp [crcPoll]
@[simp] theorem crcPoll_requests (c : Cfg) (s : State) : (crcPoll c s).requests = s.requests := by
  simp [crcPoll]

/-! ## readCrcLow -/

@[simp] theorem readCrcLow_busy (c : Cfg) (s : State) : (readCrcLow c s).busy = s.busy := by
  simp [readCrcLow]
@[simp] theorem readCrcLow_phase (c : Cfg) (s : State) : (readCrcLow c s).phase = s.phase := by
  simp [readCrcLow]
@[simp] theorem readCrcLow_opc (c : Cfg) (s : State) : (readCrcLow c s).opc = s.opc := by
  simp [readCrcLow]
@[simp] theorem readCrcLow_argA (c : Cfg) (s : State) : (readCrcLow c s).argA = s.argA := by
  simp [readCrcLow]
@[simp] theorem readCrcLow_argV (c : Cfg) (s : State) : (readCrcLow c s).argV = s.argV := by
  simp [readCrcLow]
@[simp] theorem readCrcLow_tmp (c : Cfg) (s : State) : (readCrcLow c s).tmp = s.tmp := by
  simp [readCrcLow]
@[simp] theorem readCrcLow_pollC (c : Cfg) (s : State) : (readCrcLow c s).pollC = s.pollC := by
  simp [readCrcLow]
@[simp] theorem readCrcLow_pollT (c : Cfg) (s : State) : (readCrcLow c s).pollT = s.pollT := by
  simp [readCrcLow]
@[simp] theorem readCrcLow_seen (c : Cfg) (s : State) : (readCrcLow c s).seen = s.seen := by
  simp [readCrcLow]
@[simp] theorem readCrcLow_crcHi (c : Cfg) (s : State) : (readCrcLow c s).crcHi = s.crcHi := by
  simp [readCrcLow]
@[simp] theorem readCrcLow_status (c : Cfg) (s : State) : (readCrcLow c s).status = s.status := by
  simp [readCrcLow]
@[simp] theorem readCrcLow_err (c : Cfg) (s : State) : (readCrcLow c s).err = s.err := by
  simp [readCrcLow]
@[simp] theorem readCrcLow_n (c : Cfg) (s : State) : (readCrcLow c s).n = s.n := by
  simp [readCrcLow]
@[simp] theorem readCrcLow_rem (c : Cfg) (s : State) : (readCrcLow c s).rem = s.rem := by
  simp [readCrcLow]
@[simp] theorem readCrcLow_vbc (c : Cfg) (s : State) : (readCrcLow c s).vbc = s.vbc := by
  simp [readCrcLow]
@[simp] theorem readCrcLow_page (c : Cfg) (s : State) : (readCrcLow c s).page = s.page := by
  simp [readCrcLow]
@[simp] theorem readCrcLow_idx (c : Cfg) (s : State) : (readCrcLow c s).idx = s.idx := by
  simp [readCrcLow]
@[simp] theorem readCrcLow_send (c : Cfg) (s : State) : (readCrcLow c s).send = s.send := by
  simp [readCrcLow]
@[simp] theorem readCrcLow_recv (c : Cfg) (s : State) : (readCrcLow c s).recv = s.recv := by
  simp [readCrcLow]
@[simp] theorem readCrcLow_out (c : Cfg) (s : State) : (readCrcLow c s).out = s.out := by
  simp [readCrcLow]
@[simp] theorem readCrcLow_text (c : Cfg) (s : State) : (readCrcLow c s).text = s.text := by
  simp [readCrcLow]
@[simp] theorem readCrcLow_response (c : Cfg) (s : State) : (readCrcLow c s).response = s.response := by
  simp [readCrcLow]
@[simp] theorem readCrcLow_requests (c : Cfg) (s : State) : (readCrcLow c s).requests = s.requests := by
  simp [readCrcLow]

/-! ## readCrcHigh -/

@[simp] theorem readCrcHigh_busy (c : Cfg) (s : State) : (readCrcHigh c s).busy = s.busy := by
  simp [readCrcHigh]
@[simp] theorem readCrcHigh_phase (c : Cfg) (s : State) : (readCrcHigh c s).phase = s.phase := by
  simp [readCrcHigh]
@[simp] theorem readCrcHigh_opc (c : Cfg) (s : State) : (readCrcHigh c s).opc = s.opc := by
  simp [readCrcHigh]
@[simp] theorem readCrcHigh_argA (c : Cfg) (s : State) : (readCrcHigh c s).argA = s.argA := by
  simp [readCrcHigh]
@[simp] theorem readCrcHigh_argV (c : Cfg) (s : State) : (readCrcHigh c s).argV = s.argV := by
  simp [readCrcHigh]
@[simp] theorem readCrcHigh_tmp (c : Cfg) (s : State) : (readCrcHigh c s).tmp = s.tmp := by
  simp [readCrcHigh]
@[simp] theorem readCrcHigh_pollC (c : Cfg) (s : State) : (readCrcHigh c s).pollC = s.pollC := by
  simp [readCrcHigh]
@[simp] theorem readCrcHigh_pollT (c : Cfg) (s : State) : (readCrcHigh c s).pollT = s.pollT := by
  simp [readCrcHigh]
@[simp] theorem readCrcHigh_seen (c : Cfg) (s : State) : (readCrcHigh c s).seen = s.seen := by
  simp [readCrcHigh]
@[simp] theorem readCrcHigh_crcLo (c : Cfg) (s : State) : (readCrcHigh c s).crcLo = s.crcLo := by
  simp [readCrcHigh]
@[simp] theorem readCrcHigh_status (c : Cfg) (s : State) : (readCrcHigh c s).status = s.status := by
  simp [readCrcHigh]
@[simp] theorem readCrcHigh_err (c : Cfg) (s : State) : (readCrcHigh c s).err = s.err := by
  simp [readCrcHigh]
@[simp] theorem readCrcHigh_n (c : Cfg) (s : State) : (readCrcHigh c s).n = s.n := by
  simp [readCrcHigh]
@[simp] theorem readCrcHigh_rem (c : Cfg) (s : State) : (readCrcHigh c s).rem = s.rem := by
  simp [readCrcHigh]
@[simp] theorem readCrcHigh_vbc (c : Cfg) (s : State) : (readCrcHigh c s).vbc = s.vbc := by
  simp [readCrcHigh]
@[simp] theorem readCrcHigh_page (c : Cfg) (s : State) : (readCrcHigh c s).page = s.page := by
  simp [readCrcHigh]
@[simp] theorem readCrcHigh_idx (c : Cfg) (s : State) : (readCrcHigh c s).idx = s.idx := by
  simp [readCrcHigh]
@[simp] theorem readCrcHigh_send (c : Cfg) (s : State) : (readCrcHigh c s).send = s.send := by
  simp [readCrcHigh]
@[simp] theorem readCrcHigh_recv (c : Cfg) (s : State) : (readCrcHigh c s).recv = s.recv := by
  simp [readCrcHigh]
@[simp] theorem readCrcHigh_out (c : Cfg) (s : State) : (readCrcHigh c s).out = s.out := by
  simp [readCrcHigh]
@[simp] theorem readCrcHigh_text (c : Cfg) (s : State) : (readCrcHigh c s).text = s.text := by
  simp [readCrcHigh]
@[simp] theorem readCrcHigh_response (c : Cfg) (s : State) : (readCrcHigh c s).response = s.response := by
  simp [readCrcHigh]
@[simp] theorem readCrcHigh_requests (c : Cfg) (s : State) : (readCrcHigh c s).requests = s.requests := by
  simp [readCrcHigh]

/-! ## crcCalc -/

@[simp] theorem crcCalc_busy (c : Cfg) (s : State) : (crcCalc c s).busy = s.busy := by
  simp [crcCalc]
@[simp] theorem crcCalc_phase (c : Cfg) (s : State) : (crcCalc c s).phase = s.phase := by
  simp [crcCalc]
@[simp] theorem crcCalc_opc (c : Cfg) (s : State) : (crcCalc c s).opc = s.opc := by
  simp [crcCalc]
@[simp] theorem crcCalc_argA (c : Cfg) (s : State) : (crcCalc c s).argA = s.argA := by
  simp [crcCalc]
@[simp] theorem crcCalc_argV (c : Cfg) (s : State) : (crcCalc c s).argV = s.argV := by
  simp [crcCalc]
@[simp] theorem crcCalc_pollT (c : Cfg) (s : State) : (crcCalc c s).pollT = s.pollT := by
  simp [crcCalc]
@[simp] theorem crcCalc_seen (c : Cfg) (s : State) : (crcCalc c s).seen = s.seen := by
  simp [crcCalc]
@[simp] theorem crcCalc_status (c : Cfg) (s : State) : (crcCalc c s).status = s.status := by
  simp [crcCalc]
@[simp] theorem crcCalc_err (c : Cfg) (s : State) : (crcCalc c s).err = s.err := by
  simp [crcCalc]
@[simp] theorem crcCalc_n (c : Cfg) (s : State) : (crcCalc c s).n = s.n := by
  simp [crcCalc]
@[simp] theorem crcCalc_rem (c : Cfg) (s : State) : (crcCalc c s).rem = s.rem := by
  simp [crcCalc]
@[simp] theorem crcCalc_vbc (c : Cfg) (s : State) : (crcCalc c s).vbc = s.vbc := by
  simp [crcCalc]
@[simp] theorem crcCalc_page (c : Cfg) (s : State) : (crcCalc c s).page = s.page := by
  simp [crcCalc]
@[simp] theorem crcCalc_send (c : Cfg) (s : State) : (crcCalc c s).send = s.send := by
  simp [crcCalc]
@[simp] theorem crcCalc_recv (c : Cfg) (s : State) : (crcCalc c s).recv = s.recv := by
  simp [crcCalc]
@[simp] theorem crcCalc_out (c : Cfg) (s : State) : (crcCalc c s).out = s.out := by
  simp [crcCalc]
@[simp] theorem crcCalc_text (c : Cfg) (s : State) : (crcCalc c s).text = s.text := by
  simp [crcCalc]
@[simp] theorem crcCalc_response (c : Cfg) (s : State) : (crcCalc c s).response = s.response := by
  simp [crcCalc]
@[simp] theorem crcCalc_requests (c : Cfg) (s : State) : (crcCalc c s).requests = s.requests := by
  simp [crcCalc]

/-! ## trxPollRead -/

@[simp] theorem trxPollRead_busy (c : Cfg) (s : State) : (trxPollRead c s).busy = s.busy := by
  simp [trxPollRead]
@[simp] theorem trxPollRead_phase (c : Cfg) (s : State) : (trxPollRead c s).phase = s.phase := by
  simp [trxPollRead]
@[simp] theorem trxPollRead_opc (c : Cfg) (s : State) : (trxPollRead c s).opc = s.opc := by
  simp [trxPollRead]
@[simp] theorem trxPollRead_argA (c : Cfg) (s : State) : (trxPollRead c s).argA = s.argA := by
  simp [trxPollRead]
@[simp] theorem trxPollRead_argV (c : Cfg) (s : State) : (trxPollRead c s).argV = s.argV := by
  simp [trxPollRead]
@[simp] theorem trxPollRead_pollC (c : Cfg) (s : State) : (trxPollRead c s).pollC = s.pollC := by
  simp [trxPollRead]
@[simp] theorem trxPollRead_crcLo (c : Cfg) (s : State) : (trxPollRead c s).crcLo = s.crcLo := by
  simp [trxPollRead]
@[simp] theorem trxPollRead_crcHi (c : Cfg) (s : State) : (trxPollRead c s).crcHi = s.crcHi := by
  simp [trxPollRead]
@[simp] theorem trxPollRead_status (c : Cfg) (s : State) : (trxPollRead c s).status = s.status := by
  simp [trxPollRead]
@[simp] theorem trxPollRead_err (c : Cfg) (s : State) : (trxPollRead c s).err = s.err := by
  simp [trxPollRead]
@[simp] theorem trxPollRead_n (c : Cfg) (s : State) : (trxPollRead c s).n = s.n := by
  simp [trxPollRead]
@[simp] theorem trxPollRead_rem (c : Cfg) (s : State) : (trxPollRead c s).rem = s.rem := by
  simp [trxPollRead]
@[simp] theorem trxPollRead_vbc (c : Cfg) (s : State) : (trxPollRead c s).vbc = s.vbc := by
  simp [trxPollRead]
@[simp] theorem trxPollRead_page (c : Cfg) (s : State) : (trxPollRead c s).page = s.page := by
  simp [trxPollRead]
@[simp] theorem trxPollRead_idx (c : Cfg) (s : State) : (trxPollRead c s).idx = s.idx := by
  simp [trxPollRead]
@[simp] theorem trxPollRead_send (c : Cfg) (s : State) : (trxPollRead c s).send = s.send := by
  simp [trxPollRead]
@[simp] theorem trxPollRead_recv (c : Cfg) (s : State) : (trxPollRead c s).recv = s.recv := by
  simp [trxPollRead]
@[simp] theorem trxPollRead_out (c : Cfg) (s : State) : (trxPollRead c s).out = s.out := by
  simp [trxPollRead]
@[simp] theorem trxPollRead_text (c : Cfg) (s : State) : (trxPollRead c s).text = s.text := by
  simp [trxPollRead]
@[simp] theorem trxPollRead_response (c : Cfg) (s : State) : (trxPollRead c s).response = s.response := by
  simp [trxPollRead]
@[simp] theorem trxPollRead_requests (c : Cfg) (s : State) : (trxPollRead c s).requests = s.requests := by
  simp [trxPollRead]

/-! ## trxPollLoop -/

@[simp] theorem trxPollLoop_busy (c : Cfg) (k : Nat) (s : State) : (trxPollLoop c k s).busy = s.busy := by
  induction k generalizing s with
  | zero => rfl
  | succ k ih => simp only [trxPollLoop]; split <;> simp_all
@[simp] theorem trxPollLoop_phase (c : Cfg) (k : Nat) (s : State) : (trxPollLoop c k s).phase = s.phase := by
  induction k generalizing s with
  | zero => rfl
  | succ k ih => simp only [trxPollLoop]; split <;> simp_all
@[simp] theorem trxPollLoop_opc (c : Cfg) (k : Nat) (s : State) : (trxPollLoop c k s).opc = s.opc := by
  induction k generalizing s with
  | zero => rfl
  | succ k ih => simp only [trxPollLoop]; split <;> simp_all
@[simp] theorem trxPollLoop_argA (c : Cfg) (k : Nat) (s : State) : (trxPollLoop c k s).argA = s.argA := by
  induction k generalizing s with
  | zero => rfl
  | succ k ih => simp only [trxPollLoop]; split <;> simp_all
@[simp] theorem trxPollLoop_argV (c : Cfg) (k : Nat) (s : State) : (trxPollLoop c k s).argV = s.argV := by
  induction k generalizing s with
  | zero => rfl
  | succ k ih => simp only [trxPollLoop]; split <;> simp_all
@[simp] theorem trxPollLoop_pollC (c : Cfg) (k : Nat) (s : State) : (trxPollLoop c k s).pollC = s.pollC := by
  induction k generalizing s with
  | zero => rfl
  | succ k ih => simp only [trxPollLoop]; split <;> simp_all
@[simp] theorem trxPollLoop_crcLo (c : Cfg) (k : Nat) (s : State) : (trxPollLoop c k s).crcLo = s.crcLo := by
  induction k generalizing s with
  | zero => rfl
  | succ k ih => simp only [trxPollLoop]; split <;> simp_all
@[simp] theorem trxPollLoop_crcHi (c : Cfg) (k : Nat) (s : State) : (trxPollLoop c k s).crcHi = s.crcHi := by
  induction k generalizing s with
  | zero => rfl
  | succ k ih => simp only [trxPollLoop]; split <;> simp_all
@[simp] theorem trxPollLoop_status (c : Cfg) (k : Nat) (s : State) : (trxPollLoop c k s).status = s.status := by
  induction k generalizing s with
  | zero => rfl
  | succ k ih => simp only [trxPollLoop]; split <;> simp_all
@[simp] theorem trxPollLoop_err (c : Cfg) (k : Nat) (s : State) : (trxPollLoop c k s).err = s.err := by
  induction k generalizing s with
  | zero => rfl
  | succ k ih => simp only [trxPollLoop]; split <;> simp_all
@[simp] theorem trxPollLoop_n (c : Cfg) (k : Nat) (s : State) : (trxPollLoop c k s).n = s.n := by
  induction k generalizing s with
  | zero => rfl
  | succ k ih => simp only [trxPollLoop]; split <;> simp_all
@[simp] theorem trxPollLoop_rem (c : Cfg) (k : Nat) (s : State) : (trxPollLoop c k s).rem = s.rem := by
  induction k generalizing s with
  | zero => rfl
  | succ k ih => simp only [trxPollLoop]; split <;> simp_all
@[simp] theorem trxPollLoop_vbc (c : Cfg) (k : Nat) (s : State) : (trxPollLoop c k s).vbc = s.vbc := by
  induction k generalizing s with
  | zero => rfl
  | succ k ih => simp only [trxPollLoop]; split <;> simp_all
@[simp] theorem trxPollLoop_page (c : Cfg) (k : Nat) (s : State) : (trxPollLoop c k s).page = s.page := by
  induction k generalizing s with
  | zero => rfl
  | succ k ih => simp only [trxPollLoop]; split <;> simp_all
@[simp] theorem trxPollLoop_idx (c : Cfg) (k : Nat) (s : State) : (trxPollLoop c k s).idx = s.idx := by
  induction k generalizing s with
  | zero => rfl
  | succ k ih => simp only [trxPollLoop]; split <;> simp_all
@[simp] theorem trxPollLoop_send (c : Cfg) (k : Nat) (s : State) : (trxPollLoop c k s).send = s.send := by
  induction k generalizing s with
  | zero => rfl
  | succ k ih => simp only [trxPollLoop]; split <;> simp_all
@[simp] theorem trxPollLoop_recv (c : Cfg) (k : Nat) (s : State) : (trxPollLoop c k s).recv = s.recv := by
  induction k generalizing s with
  | zero => rfl
  | succ k ih => simp only [trxPollLoop]; split <;> simp_all
@[simp] theorem trxPollLoop_out (c : Cfg) (k : Nat) (s : State) : (trxPollLoop c k s).out = s.out := by
  induction k generalizing s with
  | zero => rfl
  | succ k ih => simp only [trxPollLoop]; split <;> simp_all
@[simp] theorem trxPollLoop_text (c : Cfg) (k : Nat) (s : State) : (trxPollLoop c k s).text = s.text := by
  induction k generalizing s with
  | zero => rfl
  | succ k ih => simp only [trxPollLoop]; split <;> simp_all
@[simp] theorem trxPollLoop_response (c : Cfg) (k : Nat) (s : State) : (trxPollLoop c k s).response = s.response := by
  induction k generalizing s with
  | zero => rfl
  | succ k ih => simp only [trxPollLoop]; split <;> simp_all
@[simp] theorem trxPollLoop_requests (c : Cfg) (k : Nat) (s : State) : (trxPollLoop c k s).requests = s.requests := by
  induction k generalizing s with
  | zero => rfl
  | succ k ih => simp only [trxPollLoop]; split <;> simp_all

/-! ## trxPoll -/

@[simp] theorem trxPoll_busy (c : Cfg) (s : State) : (trxPoll c s).busy = s.busy := by
  simp [trxPoll]
@[simp] theorem trxPoll_phase (c : Cfg) (s : State) : (trxPoll c s).phase = s.phase := by
  simp [trxPoll]
@[simp] theorem trxPoll_opc (c : Cfg) (s : State) : (trxPoll c s).opc = s.opc := by
  simp [trxPoll]
@[simp] theorem trxPoll_argA (c : Cfg) (s : State) : (trxPoll c s).argA = s.argA := by
  simp [trxPoll]
@[simp] theorem trxPoll_argV (c : Cfg) (s : State) : (trxPoll c s).argV = s.argV := by
  simp [trxPoll]
@[simp] theorem trxPoll_pollC (c : Cfg) (s : State) : (trxPoll c s).pollC = s.pollC := by
  simp [trxPoll]
@[simp] theorem trxPoll_crcLo (c : Cfg) (s : State) : (trxPoll c s).crcLo = s.crcLo := by
  simp [trxPoll]
@[simp] theorem trxPoll_crcHi (c : Cfg) (s : State) : (trxPoll c s).crcHi = s.crcHi := by
  simp [trxPoll]
@[simp] theorem trxPoll_status (c : Cfg) (s : State) : (trxPoll c s).status = s.status := by
  simp [trxPoll]
@[simp] theorem trxPoll_err (c : Cfg) (s : State) : (trxPoll c s).err = s.err := by
  simp [trxPoll]
@[simp] theorem trxPoll_n (c : Cfg) (s : State) : (trxPoll c s).n = s.n := by
  simp [trxPoll]
@[simp] theorem trxPoll_rem (c : Cfg) (s : State) : (trxPoll c s).rem = s.rem := by
  simp [trxPoll]
@[simp] theorem trxPoll_vbc (c : Cfg) (s : State) : (trxPoll c s).vbc = s.vbc := by
  simp [trxPoll]
@[simp] theorem trxPoll_page (c : Cfg) (s : State) : (trxPoll c s).page = s.page := by
  simp [trxPoll]
@[simp] theorem trxPoll_idx (c : Cfg) (s : State) : (trxPoll c s).idx = s.idx := by
  simp [trxPoll]
@[simp] theorem trxPoll_send (c : Cfg) (s : State) : (trxPoll c s).send = s.send := by
  simp [trxPoll]
@[simp] theorem trxPoll_recv (c : Cfg) (s : State) : (trxPoll c s).recv = s.recv := by
  simp [trxPoll]
@[simp] theorem trxPoll_out (c : Cfg) (s : State) : (trxPoll c s).out = s.out := by
  simp [trxPoll]
@[simp] theorem trxPoll_text (c : Cfg) (s : State) : (trxPoll c s).text = s.text := by
  simp [trxPoll]
@[simp] theorem trxPoll_response (c : Cfg) (s : State) : (trxPoll c s).response = s.response := by
  simp [trxPoll]
@[simp] theorem trxPoll_requests (c : Cfg) (s : State) : (trxPoll c s).requests = s.requests := by
  simp [trxPoll]

/-! ## readError -/

@[simp] theorem readError_busy (c : Cfg) (s : State) : (readError c s).busy = s.busy := by
  simp [readError]
@[simp] theorem readError_phase (c : Cfg) (s : State) : (readError c s).phase = s.phase := by
  simp [readError]
@[simp] theorem readError_opc (c : Cfg) (s : State) : (readError c s).opc = s.opc := by
  simp [readError]
@[simp] theorem readError_argA (c : Cfg) (s : State) : (readError c s).argA = s.argA := by
  simp [readError]
@[simp] theorem readError_argV (c : Cfg) (s : State) : (readError c s).argV = s.argV := by
  simp [readError]
@[simp] theorem readError_tmp (c : Cfg) (s : State) : (readError c s).tmp = s.tmp := by
  simp [readError]
@[simp] theorem readError_pollC (c : Cfg) (s : State) : (readError c s).pollC = s.pollC := by
  simp [readError]
@[simp] theorem readError_pollT (c : Cfg) (s : State) : (readError c s).pollT = s.pollT := by
  simp [readError]
@[simp] theorem readError_seen (c : Cfg) (s : State) : (readError c s).seen = s.seen := by
  simp [readError]
@[simp] theorem readError_crcLo (c : Cfg) (s : State) : (readError c s).crcLo = s.crcLo := by
  simp [readError]
@[simp] theorem readError_crcHi (c : Cfg) (s : State) : (readError c s).crcHi = s.crcHi := by
  simp [readError]
@[simp] theorem readError_status (c : Cfg) (s : State) : (readError c s).status = s.status := by
  simp [readError]
@[simp] theorem readError_n (c : Cfg) (s : State) : (readError c s).n = s.n := by
  simp [readError]
@[simp] theorem readError_rem (c : Cfg) (s : State) : (readError c s).rem = s.rem := by
  simp [readError]
@[simp] theorem readError_vbc (c : Cfg) (s : State) : (readError c s).vbc = s.vbc := by
  simp [readError]
@[simp] theorem readError_page (c : Cfg) (s : State) : (readError c s).page = s.page := by
  simp [readError]
@[simp] theorem readError_idx (c : Cfg) (s : State) : (readError c s).idx = s.idx := by
  simp [readError]
@[simp] theorem readError_send (c : Cfg) (s : State) : (readError c s).send = s.send := by
  simp [readError]
@[simp] theorem readError_recv (c : Cfg) (s : State) : (readError c s).recv = s.recv := by
  simp [readError]
@[simp] theorem readError_out (c : Cfg) (s : State) : (readError c s).out = s.out := by
  simp [readError]
@[simp] theorem readError_text (c : Cfg) (s : State) : (readError c s).text = s.text := by
  simp [readError]
@[simp] theorem readError_response (c : Cfg) (s : State) : (readError c s).response = s.response := by
  simp [readError]
@[simp] theorem readError_requests (c : Cfg) (s : State) : (readError c s).requests = s.requests := by
  simp [readError]

/-! ## readLevel -/

@[simp] theorem readLevel_busy (c : Cfg) (s : State) : (readLevel c s).busy = s.busy := by
  simp [readLevel]
@[simp] theorem readLevel_phase (c : Cfg) (s : State) : (readLevel c s).phase = s.phase := by
  simp [readLevel]
@[simp] theorem readLevel_opc (c : Cfg) (s : State) : (readLevel c s).opc = s.opc := by
  simp [readLevel]
@[simp] theorem readLevel_argA (c : Cfg) (s : State) : (readLevel c s).argA = s.argA := by
  simp [readLevel]
@[simp] theorem readLevel_argV (c : Cfg) (s : State) : (readLevel c s).argV = s.argV := by
  simp [readLevel]
@[simp] theorem readLevel_tmp (c : Cfg) (s : State) : (readLevel c s).tmp = s.tmp := by
  simp [readLevel]
@[simp] theorem readLevel_pollC (c : Cfg) (s : State) : (readLevel c s).pollC = s.pollC := by
  simp [readLevel]
@[simp] theorem readLevel_pollT (c : Cfg) (s : State) : (readLevel c s).pollT = s.pollT := by
  simp [readLevel]
@[simp] theorem readLevel_seen (c : Cfg) (s : State) : (readLevel c s).seen = s.seen := by
  simp [readLevel]
@[simp] theorem readLevel_crcLo (c : Cfg) (s : State) : (readLevel c s).crcLo = s.crcLo := by
  simp [readLevel]
@[simp] theorem readLevel_crcHi (c : Cfg) (s : State) : (readLevel c s).crcHi = s.crcHi := by
  simp [readLevel]
@[simp] theorem readLevel_status (c : Cfg) (s : State) : (readLevel c s).status = s.status := by
  simp [readLevel]
@[simp] theorem readLevel_err (c : Cfg) (s : State) : (readLevel c s).err = s.err := by
  simp [readLevel]
@[simp] theorem readLevel_rem (c : Cfg) (s : State) : (readLevel c s).rem = s.rem := by
  simp [readLevel]
@[simp] theorem readLevel_vbc (c : Cfg) (s : State) : (readLevel c s).vbc = s.vbc := by
  simp [readLevel]
@[simp] theorem readLevel_page (c : Cfg) (s : State) : (readLevel c s).page = s.page := by
  simp [readLevel]
@[simp] theorem readLevel_idx (c : Cfg) (s : State) : (readLevel c s).idx = s.idx := by
  simp [readLevel]
@[simp] theorem readLevel_send (c : Cfg) (s : State) : (readLevel c s).send = s.send := by
  simp [readLevel]
@[simp] theorem readLevel_recv (c : Cfg) (s : State) : (readLevel c s).recv = s.recv := by
  simp [readLevel]
@[simp] theorem readLevel_out (c : Cfg) (s : State) : (readLevel c s).out = s.out := by
  simp [readLevel]
@[simp] theorem readLevel_text (c : Cfg) (s : State) : (readLevel c s).text = s.text := by
  simp [readLevel]
@[simp] theorem readLevel_response (c : Cfg) (s : State) : (readLevel c s).response = s.response := by
  simp [readLevel]
@[simp] theorem readLevel_requests (c : Cfg) (s : State) : (readLevel c s).requests = s.requests := by
  simp [readLevel]

/-! ## readControl -/

@[simp] theorem readControl_busy (c : Cfg) (s : State) : (readControl c s).busy = s.busy := by
  simp [readControl]
@[simp] theorem readControl_phase (c : Cfg) (s : State) : (readControl c s).phase = s.phase := by
  simp [readControl]
@[simp] theorem readControl_opc (c : Cfg) (s : State) : (readControl c s).opc = s.opc := by
  simp [readControl]
@[simp] theorem readControl_argA (c : Cfg) (s : State) : (readControl c s).argA = s.argA := by
  simp [readControl]
@[simp] theorem readControl_argV (c : Cfg) (s : State) : (readControl c s).argV = s.argV := by
  simp [readControl]
@[simp] theorem readControl_tmp (c : Cfg) (s : State) : (readControl c s).tmp = s.tmp := by
  simp [readControl]
@[simp] theorem readControl_pollC (c : Cfg) (s : State) : (readControl c s).pollC = s.pollC := by
  simp [readControl]
@[simp] theorem readControl_pollT (c : Cfg) (s : State) : (readControl c s).pollT = s.pollT := by
  simp [readControl]
@[simp] theorem readControl_seen (c : Cfg) (s : State) : (readControl c s).seen = s.seen := by
  simp [readControl]
@[simp] theorem readControl_crcLo (c : Cfg) (s : State) : (readControl c s).crcLo = s.crcLo := by
  simp [readControl]
@[simp] theorem readControl_crcHi (c : Cfg) (s : State) : (readControl c s).crcHi = s.crcHi := by
  simp [readControl]
@[simp] theorem readControl_status (c : Cfg) (s : State) : (readControl c s).status = s.status := by
  simp [readControl]
@[simp] theorem readControl_err (c : Cfg) (s : State) : (readControl c s).err = s.err := by
  simp [readControl]
@[simp] theorem readControl_n (c : Cfg) (s : State) : (readControl c s).n = s.n := by
  simp [readControl]
@[simp] theorem readControl_page (c : Cfg) (s : State) : (readControl c s).page = s.page := by
  simp [readControl]
@[simp] theorem readControl_idx (c : Cfg) (s : State) : (readControl c s).idx = s.idx := by
  simp [readControl]
@[simp] theorem readControl_send (c : Cfg) (s : State) : (readControl c s).send = s.send := by
  simp [readControl]
@[simp] theorem readControl_recv (c : Cfg) (s : State) : (readControl c s).recv = s.recv := by
  simp [readControl]
@[simp] theorem readControl_out (c : Cfg) (s : State) : (readControl c s).out = s.out := by
  simp [readControl]
@[simp] theorem readControl_text (c : Cfg) (s : State) : (readControl c s).text = s.text := by
  simp [readControl]
@[simp] theorem readControl_response (c : Cfg) (s : State) : (readControl c s).response = s.response := by
  simp [readControl]
@[simp] theorem readControl_requests (c : Cfg) (s : State) : (readControl c s).requests = s.requests := by
  simp [readControl]

/-! ## harvestOne -/

@[simp] theorem harvestOne_busy (c : Cfg) (s : State) : (harvestOne c s).busy = s.busy := by
  simp [harvestOne]
@[simp] theorem harvestOne_phase (c : Cfg) (s : State) : (harvestOne c s).phase = s.phase := by
  simp [harvestOne]
@[simp] theorem harvestOne_opc (c : Cfg) (s : State) : (harvestOne c s).opc = s.opc := by
  simp [harvestOne]
@[simp] theorem harvestOne_argA (c : Cfg) (s : State) : (harvestOne c s).argA = s.argA := by
  simp [harvestOne]
@[simp] theorem harvestOne_argV (c : Cfg) (s : State) : (harvestOne c s).argV = s.argV := by
  simp [harvestOne]
@[simp] theorem harvestOne_tmp (c : Cfg) (s : State) : (harvestOne c s).tmp = s.tmp := by
  simp [harvestOne]
@[simp] theorem harvestOne_pollC (c : Cfg) (s : State) : (harvestOne c s).pollC = s.pollC := by
  simp [harvestOne]
@[simp] theorem harvestOne_pollT (c : Cfg) (s : State) : (harvestOne c s).pollT = s.pollT := by
  simp [harvestOne]
@[simp] theorem harvestOne_seen (c : Cfg) (s : State) : (harvestOne c s).seen = s.seen := by
  simp [harvestOne]
@[simp] theorem harvestOne_crcLo (c : Cfg) (s : State) : (harvestOne c s).crcLo = s.crcLo := by
  simp [harvestOne]
@[simp] theorem harvestOne_crcHi (c : Cfg) (s : State) : (harvestOne c s).crcHi = s.crcHi := by
  simp [harvestOne]
@[simp] theorem harvestOne_status (c : Cfg) (s : State) : (harvestOne c s).status = s.status := by
  simp [harvestOne]
@[simp] theorem harvestOne_err (c : Cfg) (s : State) : (harvestOne c s).err = s.err := by
  simp [harvestOne]
@[simp] theorem harvestOne_n (c : Cfg) (s : State) : (harvestOne c s).n = s.n := by
  simp [harvestOne]
@[simp] theorem harvestOne_rem (c : Cfg) (s : State) : (harvestOne c s).rem = s.rem := by
  simp [harvestOne]
@[simp] theorem harvestOne_vbc (c : Cfg) (s : State) : (harvestOne c s).vbc = s.vbc := by
  simp [harvestOne]
@[simp] theorem harvestOne_page (c : Cfg) (s : State) : (harvestOne c s).page = s.page := by
  simp [harvestOne]
@[simp] theorem harvestOne_send (c : Cfg) (s : State) : (harvestOne c s).send = s.send := by
  simp [harvestOne]
@[simp] theorem harvestOne_out (c : Cfg) (s : State) : (harvestOne c s).out = s.out := by
  simp [harvestOne]
@[simp] theorem harvestOne_text (c : Cfg) (s : State) : (harvestOne c s).text = s.text := by
  simp [harvestOne]
@[simp] theorem harvestOne_response (c : Cfg) (s : State) : (harvestOne c s).response = s.response := by
  simp [harvestOne]
@[simp] theorem harvestOne_requests (c : Cfg) (s : State) : (harvestOne c s).requests = s.requests := by
  simp [harvestOne]

/-! ## harvestLoop -/

@[simp] theorem harvestLoop_busy (c : Cfg) (k : Nat) (s : State) : (harvestLoop c k s).busy = s.busy := by
  induction k generalizing s <;> simp_all [harvestLoop]
@[simp] theorem harvestLoop_phase (c : Cfg) (k : Nat) (s : State) : (harvestLoop c k s).phase = s.phase := by
  induction k generalizing s <;> simp_all [harvestLoop]
@[simp] theorem harvestLoop_opc (c : Cfg) (k : Nat) (s : State) : (harvestLoop c k s).opc = s.opc := by
  induction k generalizing s <;> simp_all [harvestLoop]
@[simp] theorem harvestLoop_argA (c : Cfg) (k : Nat) (s : State) : (harvestLoop c k s).argA = s.argA := by
  induction k generalizing s <;> simp_all [harvestLoop]
@[simp] theorem harvestLoop_argV (c : Cfg) (k : Nat) (s : State) : (harvestLoop c k s).argV = s.argV := by
  induction k generalizing s <;> simp_all [harvestLoop]
@[simp] theorem harvestLoop_tmp (c : Cfg) (k : Nat) (s : State) : (harvestLoop c k s).tmp = s.tmp := by
  induction k generalizing s <;> simp_all [harvestLoop]
@[simp] theorem harvestLoop_pollC (c : Cfg) (k : Nat) (s : State) : (harvestLoop c k s).pollC = s.pollC := by
  induction k generalizing s <;> simp_all [harvestLoop]
@[simp] theorem harvestLoop_pollT (c : Cfg) (k : Nat) (s : State) : (harvestLoop c k s).pollT = s.pollT := by
  induction k generalizing s <;> simp_all [harvestLoop]
@[simp] theorem harvestLoop_seen (c : Cfg) (k : Nat) (s : State) : (harvestLoop c k s).seen = s.seen := by
  induction k generalizing s <;> simp_all [harvestLoop]
@[simp] theorem harvestLoop_crcLo (c : Cfg) (k : Nat) (s : State) : (harvestLoop c k s).crcLo = s.crcLo := by
  induction k generalizing s <;> simp_all [harvestLoop]
@[simp] theorem harvestLoop_crcHi (c : Cfg) (k : Nat) (s : State) : (harvestLoop c k s).crcHi = s.crcHi := by
  induction k generalizing s <;> simp_all [harvestLoop]
@[simp] theorem harvestLoop_status (c : Cfg) (k : Nat) (s : State) : (harvestLoop c k s).status = s.status := by
  induction k generalizing s <;> simp_all [harvestLoop]
@[simp] theorem harvestLoop_err (c : Cfg) (k : Nat) (s : State) : (harvestLoop c k s).err = s.err := by
  induction k generalizing s <;> simp_all [harvestLoop]
@[simp] theorem harvestLoop_n (c : Cfg) (k : Nat) (s : State) : (harvestLoop c k s).n = s.n := by
  induction k generalizing s <;> simp_all [harvestLoop]
@[simp] theorem harvestLoop_rem (c : Cfg) (k : Nat) (s : State) : (harvestLoop c k s).rem = s.rem := by
  induction k generalizing s <;> simp_all [harvestLoop]
@[simp] theorem harvestLoop_vbc (c : Cfg) (k : Nat) (s : State) : (harvestLoop c k s).vbc = s.vbc := by
  induction k generalizing s <;> simp_all [harvestLoop]
@[simp] theorem harvestLoop_page (c : Cfg) (k : Nat) (s : State) : (harvestLoop c k s).page = s.page := by
  induction k generalizing s <;> simp_all [harvestLoop]
@[simp] theorem harvestLoop_send (c : Cfg) (k : Nat) (s : State) : (harvestLoop c k s).send = s.send := by
  induction k generalizing s <;> simp_all [harvestLoop]
@[simp] theorem harvestLoop_out (c : Cfg) (k : Nat) (s : State) : (harvestLoop c k s).out = s.out := by
  induction k generalizing s <;> simp_all [harvestLoop]
@[simp] theorem harvestLoop_text (c : Cfg) (k : Nat) (s : State) : (harvestLoop c k s).text = s.text := by
  induction k generalizing s <;> simp_all [harvestLoop]
@[simp] theorem harvestLoop_response (c : Cfg) (k : Nat) (s : State) : (harvestLoop c k s).response = s.response := by
  induction k generalizing s <;> simp_all [harvestLoop]
@[simp] theorem harvestLoop_requests (c : Cfg) (k : Nat) (s : State) : (harvestLoop c k s).requests = s.requests := by
  induction k generalizing s <;> simp_all [harvestLoop]

/-! ## harvest -/

@[simp] theorem harvest_busy (c : Cfg) (s : State) : (harvest c s).busy = s.busy := by
  simp [harvest]
@[simp] theorem harvest_phase (c : Cfg) (s : State) : (harvest c s).phase = s.phase := by
  simp [harvest]
@[simp] theorem harvest_opc (c : Cfg) (s : State) : (harvest c s).opc = s.opc := by
  simp [harvest]
@[simp] theorem harvest_argA (c : Cfg) (s : State) : (harvest c s).argA = s.argA := by
  simp [harvest]
@[simp] theorem harvest_argV (c : Cfg) (s : State) : (harvest c s).argV = s.argV := by
  simp [harvest]
@[simp] theorem harvest_tmp (c : Cfg) (s : State) : (harvest c s).tmp = s.tmp := by
  simp [harvest]
@[simp] theorem harvest_pollC (c : Cfg) (s : State) : (harvest c s).pollC = s.pollC := by
  simp [harvest]
@[simp] theorem harvest_pollT (c : Cfg) (s : State) : (harvest c s).pollT = s.pollT := by
  simp [harvest]
@[simp] theorem harvest_seen (c : Cfg) (s : State) : (harvest c s).seen = s.seen := by
  simp [harvest]
@[simp] theorem harvest_crcLo (c : Cfg) (s : State) : (harvest c s).crcLo = s.crcLo := by
  simp [harvest]
@[simp] theorem harvest_crcHi (c : Cfg) (s : State) : (harvest c s).crcHi = s.crcHi := by
  simp [harvest]
@[simp] theorem harvest_status (c : Cfg) (s : State) : (harvest c s).status = s.status := by
  simp [harvest]
@[simp] theorem harvest_err (c : Cfg) (s : State) : (harvest c s).err = s.err := by
  simp [harvest]
@[simp] theorem harvest_n (c : Cfg) (s : State) : (harvest c s).n = s.n := by
  simp [harvest]
@[simp] theorem harvest_rem (c : Cfg) (s : State) : (harvest c s).rem = s.rem := by
  simp [harvest]
@[simp] theorem harvest_vbc (c : Cfg) (s : State) : (harvest c s).vbc = s.vbc := by
  simp [harvest]
@[simp] theorem harvest_page (c : Cfg) (s : State) : (harvest c s).page = s.page := by
  simp [harvest]
@[simp] theorem harvest_send (c : Cfg) (s : State) : (harvest c s).send = s.send := by
  simp [harvest]
@[simp] theorem harvest_out (c : Cfg) (s : State) : (harvest c s).out = s.out := by
  simp [harvest]
@[simp] theorem harvest_text (c : Cfg) (s : State) : (harvest c s).text = s.text := by
  simp [harvest]
@[simp] theorem harvest_response (c : Cfg) (s : State) : (harvest c s).response = s.response := by
  simp [harvest]
@[simp] theorem harvest_requests (c : Cfg) (s : State) : (harvest c s).requests = s.requests := by
  simp [harvest]

/-! ## exchange -/

@[simp] theorem exchange_busy (c : Cfg) (cmd : Byte) (s : State) : (exchange c cmd s).busy = s.busy := by
  simp [exchange]
@[simp] theorem exchange_phase (c : Cfg) (cmd : Byte) (s : State) : (exchange c cmd s).phase = s.phase := by
  simp [exchange]
@[simp] theorem exchange_opc (c : Cfg) (cmd : Byte) (s : State) : (exchange c cmd s).opc = s.opc := by
  simp [exchange]
@[simp] theorem exchange_argA (c : Cfg) (cmd : Byte) (s : State) : (exchange c cmd s).argA = s.argA := by
  simp [exchange]
@[simp] theorem exchange_argV (c : Cfg) (cmd : Byte) (s : State) : (exchange c cmd s).argV = s.argV := by
  simp [exchange]
@[simp] theorem exchange_pollC (c : Cfg) (cmd : Byte) (s : State) : (exchange c cmd s).pollC = s.pollC := by
  simp [exchange]
@[simp] theorem exchange_crcLo (c : Cfg) (cmd : Byte) (s : State) : (exchange c cmd s).crcLo = s.crcLo := by
  simp [exchange]
@[simp] theorem exchange_crcHi (c : Cfg) (cmd : Byte) (s : State) : (exchange c cmd s).crcHi = s.crcHi := by
  simp [exchange]
@[simp] theorem exchange_status (c : Cfg) (cmd : Byte) (s : State) : (exchange c cmd s).status = s.status := by
  simp [exchange]
@[simp] theorem exchange_err (c : Cfg) (cmd : Byte) (s : State) : (exchange c cmd s).err = s.err := by
  simp [exchange]
@[simp] theorem exchange_n (c : Cfg) (cmd : Byte) (s : State) : (exchange c cmd s).n = s.n := by
  simp [exchange]
@[simp] theorem exchange_rem (c : Cfg) (cmd : Byte) (s : State) : (exchange c cmd s).rem = s.rem := by
  simp [exchange]
@[simp] theorem exchange_vbc (c : Cfg) (cmd : Byte) (s : State) : (exchange c cmd s).vbc = s.vbc := by
  simp [exchange]
@[simp] theorem exchange_page (c : Cfg) (cmd : Byte) (s : State) : (exchange c cmd s).page = s.page := by
  simp [exchange]
@[simp] theorem exchange_send (c : Cfg) (cmd : Byte) (s : State) : (exchange c cmd s).send = s.send := by
  simp [exchange]
@[simp] theorem exchange_recv (c : Cfg) (cmd : Byte) (s : State) : (exchange c cmd s).recv = s.recv := by
  simp [exchange]
@[simp] theorem exchange_out (c : Cfg) (cmd : Byte) (s : State) : (exchange c cmd s).out = s.out := by
  simp [exchange]
@[simp] theorem exchange_text (c : Cfg) (cmd : Byte) (s : State) : (exchange c cmd s).text = s.text := by
  simp [exchange]
@[simp] theorem exchange_response (c : Cfg) (cmd : Byte) (s : State) : (exchange c cmd s).response = s.response := by
  simp [exchange]
@[simp] theorem exchange_requests (c : Cfg) (cmd : Byte) (s : State) : (exchange c cmd s).requests = s.requests := by
  simp [exchange]

/-! ## receive -/

@[simp] theorem receive_busy (c : Cfg) (s : State) : (receive c s).busy = s.busy := by
  simp [receive]
@[simp] theorem receive_phase (c : Cfg) (s : State) : (receive c s).phase = s.phase := by
  simp [receive]
@[simp] theorem receive_opc (c : Cfg) (s : State) : (receive c s).opc = s.opc := by
  simp [receive]
@[simp] theorem receive_argA (c : Cfg) (s : State) : (receive c s).argA = s.argA := by
  simp [receive]
@[simp] theorem receive_argV (c : Cfg) (s : State) : (receive c s).argV = s.argV := by
  simp [receive]
@[simp] theorem receive_tmp (c : Cfg) (s : State) : (receive c s).tmp = s.tmp := by
  simp [receive]
@[simp] theorem receive_pollC (c : Cfg) (s : State) : (receive c s).pollC = s.pollC := by
  simp [receive]
@[simp] theorem receive_pollT (c : Cfg) (s : State) : (receive c s).pollT = s.pollT := by
  simp [receive]
@[simp] theorem receive_seen (c : Cfg) (s : State) : (receive c s).seen = s.seen := by
  simp [receive]
@[simp] theorem receive_crcLo (c : Cfg) (s : State) : (receive c s).crcLo = s.crcLo := by
  simp [receive]
@[simp] theorem receive_crcHi (c : Cfg) (s : State) : (receive c s).crcHi = s.crcHi := by
  simp [receive]
@[simp] theorem receive_err (c : Cfg) (s : State) : (receive c s).err = s.err := by
  simp [receive]
@[simp] theorem receive_page (c : Cfg) (s : State) : (receive c s).page = s.page := by
  simp [receive]
@[simp] theorem receive_send (c : Cfg) (s : State) : (receive c s).send = s.send := by
  simp [receive]
@[simp] theorem receive_out (c : Cfg) (s : State) : (receive c s).out = s.out := by
  simp [receive]
@[simp] theorem receive_text (c : Cfg) (s : State) : (receive c s).text = s.text := by
  simp [receive]
@[simp] theorem receive_response (c : Cfg) (s : State) : (receive c s).response = s.response := by
  simp [receive]
@[simp] theorem receive_requests (c : Cfg) (s : State) : (receive c s).requests = s.requests := by
  simp [receive]

/-! ## resolve -/

@[simp] theorem resolve_busy (c : Cfg) (s : State) : (resolve c s).busy = s.busy := by
  simp only [resolve]; (repeat' split) <;> simp
@[simp] theorem resolve_phase (c : Cfg) (s : State) : (resolve c s).phase = s.phase := by
  simp only [resolve]; (repeat' split) <;> simp
@[simp] theorem resolve_opc (c : Cfg) (s : State) : (resolve c s).opc = s.opc := by
  simp only [resolve]; (repeat' split) <;> simp
@[simp] theorem resolve_argA (c : Cfg) (s : State) : (resolve c s).argA = s.argA := by
  simp only [resolve]; (repeat' split) <;> simp
@[simp] theorem resolve_argV (c : Cfg) (s : State) : (resolve c s).argV = s.argV := by
  simp only [resolve]; (repeat' split) <;> simp
@[simp] theorem resolve_tmp (c : Cfg) (s : State) : (resolve c s).tmp = s.tmp := by
  simp only [resolve]; (repeat' split) <;> simp
@[simp] theorem resolve_pollC (c : Cfg) (s : State) : (resolve c s).pollC = s.pollC := by
  simp only [resolve]; (repeat' split) <;> simp
@[simp] theorem resolve_pollT (c : Cfg) (s : State) : (resolve c s).pollT = s.pollT := by
  simp only [resolve]; (repeat' split) <;> simp
@[simp] theorem resolve_seen (c : Cfg) (s : State) : (resolve c s).seen = s.seen := by
  simp only [resolve]; (repeat' split) <;> simp
@[simp] theorem resolve_crcLo (c : Cfg) (s : State) : (resolve c s).crcLo = s.crcLo := by
  simp only [resolve]; (repeat' split) <;> simp
@[simp] theorem resolve_crcHi (c : Cfg) (s : State) : (resolve c s).crcHi = s.crcHi := by
  simp only [resolve]; (repeat' split) <;> simp
@[simp] theorem resolve_page (c : Cfg) (s : State) : (resolve c s).page = s.page := by
  simp only [resolve]; (repeat' split) <;> simp
@[simp] theorem resolve_send (c : Cfg) (s : State) : (resolve c s).send = s.send := by
  simp only [resolve]; (repeat' split) <;> simp
@[simp] theorem resolve_out (c : Cfg) (s : State) : (resolve c s).out = s.out := by
  simp only [resolve]; (repeat' split) <;> simp
@[simp] theorem resolve_text (c : Cfg) (s : State) : (resolve c s).text = s.text := by
  simp only [resolve]; (repeat' split) <;> simp
@[simp] theorem resolve_response (c : Cfg) (s : State) : (resolve c s).response = s.response := by
  simp only [resolve]; (repeat' split) <;> simp
@[simp] theorem resolve_requests (c : Cfg) (s : State) : (resolve c s).requests = s.requests := by
  simp only [resolve]; (repeat' split) <;> simp

/-! ## transceive -/

@[simp] theorem transceive_busy (c : Cfg) (cmd : Byte) (s : State) : (transceive c cmd s).busy = s.busy := by
  simp [transceive]
@[simp] theorem transceive_phase (c : Cfg) (cmd : Byte) (s : State) : (transceive c cmd s).phase = s.phase := by
  simp [transceive]
@[simp] theorem transceive_opc (c : Cfg) (cmd : Byte) (s : State) : (transceive c cmd s).opc = s.opc := by
  simp [transceive]
@[simp] theorem transceive_argA (c : Cfg) (cmd : Byte) (s : State) : (transceive c cmd s).argA = s.argA := by
  simp [transceive]
@[simp] theorem transceive_argV (c : Cfg) (cmd : Byte) (s : State) : (transceive c cmd s).argV = s.argV := by
  simp [transceive]
@[simp] theorem transceive_pollC (c : Cfg) (cmd : Byte) (s : State) : (transceive c cmd s).pollC = s.pollC := by
  simp [transceive]
@[simp] theorem transceive_crcLo (c : Cfg) (cmd : Byte) (s : State) : (transceive c cmd s).crcLo = s.crcLo := by
  simp [transceive]
@[simp] theorem transceive_crcHi (c : Cfg) (cmd : Byte) (s : State) : (transceive c cmd s).crcHi = s.crcHi := by
  simp [transceive]
@[simp] theorem transceive_page (c : Cfg) (cmd : Byte) (s : State) : (transceive c cmd s).page = s.page := by
  simp [transceive]
@[simp] theorem transceive_send (c : Cfg) (cmd : Byte) (s : State) : (transceive c cmd s).send = s.send := by
  simp [transceive]
@[simp] theorem transceive_out (c : Cfg) (cmd : Byte) (s : State) : (transceive c cmd s).out = s.out := by
  simp [transceive]
@[simp] theorem transceive_text (c : Cfg) (cmd : Byte) (s : State) : (transceive c cmd s).text = s.text := by
  simp [transceive]
@[simp] theorem transceive_response (c : Cfg) (cmd : Byte) (s : State) : (transceive c cmd s).response = s.response := by
  simp [transceive]
@[simp] theorem transceive_requests (c : Cfg) (cmd : Byte) (s : State) : (transceive c cmd s).requests = s.requests := by
  simp [transceive]

/-! ## sendWithCrc -/

@[simp] theorem sendWithCrc_busy (c : Cfg) (s : State) : (sendWithCrc c s).busy = s.busy := by
  simp [sendWithCrc]
@[simp] theorem sendWithCrc_phase (c : Cfg) (s : State) : (sendWithCrc c s).phase = s.phase := by
  simp [sendWithCrc]
@[simp] theorem sendWithCrc_opc (c : Cfg) (s : State) : (sendWithCrc c s).opc = s.opc := by
  simp [sendWithCrc]
@[simp] theorem sendWithCrc_argA (c : Cfg) (s : State) : (sendWithCrc c s).argA = s.argA := by
  simp [sendWithCrc]
@[simp] theorem sendWithCrc_argV (c : Cfg) (s : State) : (sendWithCrc c s).argV = s.argV := by
  simp [sendWithCrc]
@[simp] theorem sendWithCrc_page (c : Cfg) (s : State) : (sendWithCrc c s).page = s.page := by
  simp [sendWithCrc]
@[simp] theorem sendWithCrc_out (c : Cfg) (s : State) : (sendWithCrc c s).out = s.out := by
  simp [sendWithCrc]
@[simp] theorem sendWithCrc_text (c : Cfg) (s : State) : (sendWithCrc c s).text = s.text := by
  simp [sendWithCrc]
@[simp] theorem sendWithCrc_response (c : Cfg) (s : State) : (sendWithCrc c s).response = s.response := by
  simp [sendWithCrc]
@[simp] theorem sendWithCrc_requests (c : Cfg) (s : State) : (sendWithCrc c s).requests = s.requests := by
  simp [sendWithCrc]

/-! ## rdPage -/

@[simp] theorem rdPage_busy (c : Cfg) (page : Byte) (s : State) : (rdPage c page s).busy = s.busy := by
  simp [rdPage]
@[simp] theorem rdPage_phase (c : Cfg) (page : Byte) (s : State) : (rdPage c page s).phase = s.phase := by
  simp [rdPage]
@[simp] theorem rdPage_opc (c : Cfg) (page : Byte) (s : State) : (rdPage c page s).opc = s.opc := by
  simp [rdPage]
@[simp] theorem rdPage_argA (c : Cfg) (page : Byte) (s : State) : (rdPage c page s).argA = s.argA := by
  simp [rdPage]
@[simp] theorem rdPage_argV (c : Cfg) (page : Byte) (s : State) : (rdPage c page s).argV = s.argV := by
  simp [rdPage]
@[simp] theorem rdPage_page (c : Cfg) (page : Byte) (s : State) : (rdPage c page s).page = s.page := by
  simp [rdPage]
@[simp] theorem rdPage_out (c : Cfg) (page : Byte) (s : State) : (rdPage c page s).out = s.out := by
  simp [rdPage]
@[simp] theorem rdPage_text (c : Cfg) (page : Byte) (s : State) : (rdPage c page s).text = s.text := by
  simp [rdPage]
@[simp] theorem rdPage_response (c : Cfg) (page : Byte) (s : State) : (rdPage c page s).response = s.response := by
  simp [rdPage]
@[simp] theorem rdPage_requests (c : Cfg) (page : Byte) (s : State) : (rdPage c page s).requests = s.requests := by
  simp [rdPage]

/-! ## wrPage -/

@[simp] theorem wrPage_busy (c : Cfg) (page : Byte) (d : PageData) (s : State) : (wrPage c page d s).busy = s.busy := by
  simp [wrPage]
@[simp] theorem wrPage_phase (c : Cfg) (page : Byte) (d : PageData) (s : State) : (wrPage c page d s).phase = s.phase := by
  simp [wrPage]
@[simp] theorem wrPage_opc (c : Cfg) (page : Byte) (d : PageData) (s : State) : (wrPage c page d s).opc = s.opc := by
  simp [wrPage]
@[simp] theorem wrPage_argA (c : Cfg) (page : Byte) (d : PageData) (s : State) : (wrPage c page d s).argA = s.argA := by
  simp [wrPage]
@[simp] theorem wrPage_argV (c : Cfg) (page : Byte) (d : PageData) (s : State) : (wrPage c page d s).argV = s.argV := by
  simp [wrPage]
@[simp] theorem wrPage_page (c : Cfg) (page : Byte) (d : PageData) (s : State) : (wrPage c page d s).page = s.page := by
  simp [wrPage]
@[simp] theorem wrPage_out (c : Cfg) (page : Byte) (d : PageData) (s : State) : (wrPage c page d s).out = s.out := by
  simp [wrPage]
@[simp] theorem wrPage_text (c : Cfg) (page : Byte) (d : PageData) (s : State) : (wrPage c page d s).text = s.text := by
  simp [wrPage]
@[simp] theorem wrPage_response (c : Cfg) (page : Byte) (d : PageData) (s : State) : (wrPage c page d s).response = s.response := by
  simp [wrPage]
@[simp] theorem wrPage_requests (c : Cfg) (page : Byte) (d : PageData) (s : State) : (wrPage c page d s).requests = s.requests := by
  simp [wrPage]

/-! ## writeChunk -/

@[simp] theorem writeChunk_busy (c : Cfg) (s : State) : (writeChunk c s).busy = s.busy := by
  simp [writeChunk]
@[simp] theorem writeChunk_phase (c : Cfg) (s : State) : (writeChunk c s).phase = s.phase := by
  simp [writeChunk]
@[simp] theorem writeChunk_opc (c : Cfg) (s : State) : (writeChunk c s).opc = s.opc := by
  simp [writeChunk]
@[simp] theorem writeChunk_argA (c : Cfg) (s : State) : (writeChunk c s).argA = s.argA := by
  simp [writeChunk]
@[simp] theorem writeChunk_argV (c : Cfg) (s : State) : (writeChunk c s).argV = s.argV := by
  simp [writeChunk]
@[simp] theorem writeChunk_page (c : Cfg) (s : State) : (writeChunk c s).page = s.page := by
  simp [writeChunk]
@[simp] theorem writeChunk_out (c : Cfg) (s : State) : (writeChunk c s).out = s.out := by
  simp [writeChunk]
@[simp] theorem writeChunk_text (c : Cfg) (s : State) : (writeChunk c s).text = s.text := by
  simp [writeChunk]
@[simp] theorem writeChunk_response (c : Cfg) (s : State) : (writeChunk c s).response = s.response := by
  simp [writeChunk]
@[simp] theorem writeChunk_requests (c : Cfg) (s : State) : (writeChunk c s).requests = s.requests := by
  simp [writeChunk]

/-! ## writeChunks -/

@[simp] theorem writeChunks_busy (c : Cfg) (k : Nat) (s : State) : (writeChunks c k s).busy = s.busy := by
  induction k generalizing s <;> simp_all [writeChunks]
@[simp] theorem writeChunks_phase (c : Cfg) (k : Nat) (s : State) : (writeChunks c k s).phase = s.phase := by
  induction k generalizing s <;> simp_all [writeChunks]
@[simp] theorem writeChunks_opc (c : Cfg) (k : Nat) (s : State) : (writeChunks c k s).opc = s.opc := by
  induction k generalizing s <;> simp_all [writeChunks]
@[simp] theorem writeChunks_argA (c : Cfg) (k : Nat) (s : State) : (writeChunks c k s).argA = s.argA := by
  induction k generalizing s <;> simp_all [writeChunks]
@[simp] theorem writeChunks_argV (c : Cfg) (k : Nat) (s : State) : (writeChunks c k s).argV = s.argV := by
  induction k generalizing s <;> simp_all [writeChunks]
@[simp] theorem writeChunks_out (c : Cfg) (k : Nat) (s : State) : (writeChunks c k s).out = s.out := by
  induction k generalizing s <;> simp_all [writeChunks]
@[simp] theorem writeChunks_text (c : Cfg) (k : Nat) (s : State) : (writeChunks c k s).text = s.text := by
  induction k generalizing s <;> simp_all [writeChunks]
@[simp] theorem writeChunks_response (c : Cfg) (k : Nat) (s : State) : (writeChunks c k s).response = s.response := by
  induction k generalizing s <;> simp_all [writeChunks]
@[simp] theorem writeChunks_requests (c : Cfg) (k : Nat) (s : State) : (writeChunks c k s).requests = s.requests := by
  induction k generalizing s <;> simp_all [writeChunks]

/-! ## reqPres -/

@[simp] theorem reqPres_busy (c : Cfg) (mode : Byte) (s : State) : (reqPres c mode s).busy = s.busy := by
  simp [reqPres, requestFrame]
@[simp] theorem reqPres_phase (c : Cfg) (mode : Byte) (s : State) : (reqPres c mode s).phase = s.phase := by
  simp [reqPres, requestFrame]
@[simp] theorem reqPres_opc (c : Cfg) (mode : Byte) (s : State) : (reqPres c mode s).opc = s.opc := by
  simp [reqPres, requestFrame]
@[simp] theorem reqPres_argA (c : Cfg) (mode : Byte) (s : State) : (reqPres c mode s).argA = s.argA := by
  simp [reqPres, requestFrame]
@[simp] theorem reqPres_argV (c : Cfg) (mode : Byte) (s : State) : (reqPres c mode s).argV = s.argV := by
  simp [reqPres, requestFrame]
@[simp] theorem reqPres_pollC (c : Cfg) (mode : Byte) (s : State) : (reqPres c mode s).pollC = s.pollC := by
  simp [reqPres, requestFrame]
@[simp] theorem reqPres_crcLo (c : Cfg) (mode : Byte) (s : State) : (reqPres c mode s).crcLo = s.crcLo := by
  simp [reqPres, requestFrame]
@[simp] theorem reqPres_crcHi (c : Cfg) (mode : Byte) (s : State) : (reqPres c mode s).crcHi = s.crcHi := by
  simp [reqPres, requestFrame]
@[simp] theorem reqPres_page (c : Cfg) (mode : Byte) (s : State) : (reqPres c mode s).page = s.page := by
  simp [reqPres, requestFrame]
@[simp] theorem reqPres_out (c : Cfg) (mode : Byte) (s : State) : (reqPres c mode s).out = s.out := by
  simp [reqPres, requestFrame]
@[simp] theorem reqPres_text (c : Cfg) (mode : Byte) (s : State) : (reqPres c mode s).text = s.text := by
  simp [reqPres, requestFrame]
@[simp] theorem reqPres_response (c : Cfg) (mode : Byte) (s : State) : (reqPres c mode s).response = s.response := by
  simp [reqPres, requestFrame]
@[simp] theorem reqPres_requests (c : Cfg) (mode : Byte) (s : State) : (reqPres c mode s).requests = s.requests := by
  simp [reqPres, requestFrame]

/-! ## antiColl -/

@[simp] theorem antiColl_busy (c : Cfg) (s : State) : (antiColl c s).busy = s.busy := by
  simp [antiColl, anticollFrame]
@[simp] theorem antiColl_phase (c : Cfg) (s : State) : (antiColl c s).phase = s.phase := by
  simp [antiColl, anticollFrame]
@[simp] theorem antiColl_opc (c : Cfg) (s : State) : (antiColl c s).opc = s.opc := by
  simp [antiColl, anticollFrame]
@[simp] theorem antiColl_argA (c : Cfg) (s : State) : (antiColl c s).argA = s.argA := by
  simp [antiColl, anticollFrame]
@[simp] theorem antiColl_argV (c : Cfg) (s : State) : (antiColl c s).argV = s.argV := by
  simp [antiColl, anticollFrame]
@[simp] theorem antiColl_pollC (c : Cfg) (s : State) : (antiColl c s).pollC = s.pollC := by
  simp [antiColl, anticollFrame]
@[simp] theorem antiColl_crcLo (c : Cfg) (s : State) : (antiColl c s).crcLo = s.crcLo := by
  simp [antiColl, anticollFrame]
@[simp] theorem antiColl_crcHi (c : Cfg) (s : State) : (antiColl c s).crcHi = s.crcHi := by
  simp [antiColl, anticollFrame]
@[simp] theorem antiColl_page (c : Cfg) (s : State) : (antiColl c s).page = s.page := by
  simp [antiColl, anticollFrame]
@[simp] theorem antiColl_out (c : Cfg) (s : State) : (antiColl c s).out = s.out := by
  simp [antiColl, anticollFrame]
@[simp] theorem antiColl_text (c : Cfg) (s : State) : (antiColl c s).text = s.text := by
  simp [antiColl, anticollFrame]
@[simp] theorem antiColl_response (c : Cfg) (s : State) : (antiColl c s).response = s.response := by
  simp [antiColl, anticollFrame]
@[simp] theorem antiColl_requests (c : Cfg) (s : State) : (antiColl c s).requests = s.requests := by
  simp [antiColl, anticollFrame]

/-! ## gate -/

@[simp] theorem gate_busy (c : Cfg) (s : State) : (gate c s).busy = s.busy := by
  simp only [gate]; split <;> simp
@[simp] theorem gate_phase (c : Cfg) (s : State) : (gate c s).phase = s.phase := by
  simp only [gate]; split <;> simp
@[simp] theorem gate_opc (c : Cfg) (s : State) : (gate c s).opc = s.opc := by
  simp only [gate]; split <;> simp
@[simp] theorem gate_argA (c : Cfg) (s : State) : (gate c s).argA = s.argA := by
  simp only [gate]; split <;> simp
@[simp] theorem gate_argV (c : Cfg) (s : State) : (gate c s).argV = s.argV := by
  simp only [gate]; split <;> simp
@[simp] theorem gate_pollC (c : Cfg) (s : State) : (gate c s).pollC = s.pollC := by
  simp only [gate]; split <;> simp
@[simp] theorem gate_crcLo (c : Cfg) (s : State) : (gate c s).crcLo = s.crcLo := by
  simp only [gate]; split <;> simp
@[simp] theorem gate_crcHi (c : Cfg) (s : State) : (gate c s).crcHi = s.crcHi := by
  simp only [gate]; split <;> simp
@[simp] theorem gate_page (c : Cfg) (s : State) : (gate c s).page = s.page := by
  simp only [gate]; split <;> simp
@[simp] theorem gate_out (c : Cfg) (s : State) : (gate c s).out = s.out := by
  simp only [gate]; split <;> simp
@[simp] theorem gate_text (c : Cfg) (s : State) : (gate c s).text = s.text := by
  simp only [gate]; split <;> simp
@[simp] theorem gate_response (c : Cfg) (s : State) : (gate c s).response = s.response := by
  simp only [gate]; split <;> simp
@[simp] theorem gate_requests (c : Cfg) (s : State) : (gate c s).requests = s.requests := by
  simp only [gate]; split <;> simp

end Sys2Proof.Machine
end

