-- ==== Sys2Proof/Laws/Crc.lean ====
section
/-!
SUPPORT. What the FIFO load, the CRC poll loop and CRCCALC can do.
-/

namespace Sys2Proof.Machine

/-! ## FIFO load (rules R111 and R123) -/

theorem loadOne_did (c : Cfg) (s : State) :
    Did c s (loadOne c s) [.write c.aFifoData (s.send.getD s.idx.toNat 0)] 0 :=
  (wrReg_did c _ _ s).local_ rfl rfl rfl

/-- The load loop, entered at index `i` with `k` bytes left, writes these bytes in order and leaves `IDX` at their end. -/
theorem loadLoop_spec (c : Cfg) (k : Nat) (s : State) (hk : s.idx.toNat + k = s.send.length)
    (hs : s.send.length ≤ sendCap) :
    Did c s (loadLoop c k s) (loadTrace c (s.send.drop s.idx.toNat)) 0 ∧
      (loadLoop c k s).idx.toNat = s.send.length := by
  induction k generalizing s with
  | zero =>
    have hz : s.send.drop s.idx.toNat = [] := List.drop_eq_nil_of_le (by omega)
    rw [hz]
    exact ⟨Did.refl c s, by simpa [loadLoop] using hk⟩
  | succ k ih =>
    have hc : s.send.length ≤ 255 := hs
    have h1 : (1 : BitVec 11).toNat = 1 := rfl
    have hi : (loadOne c s).idx.toNat = s.idx.toNat + 1 := by
      simp only [loadOne, BitVec.toNat_add, h1]; omega
    obtain ⟨hd, hx⟩ := ih (loadOne c s) (by simp only [hi, loadOne_send]; omega) (by simpa using hs)
    refine ⟨?_, by simpa [loadLoop] using hx⟩
    have hlt : s.idx.toNat < s.send.length := by omega
    have ht := (loadOne_did c s).trans hd
    rw [hi, loadOne_send] at ht
    rw [List.drop_eq_getElem_cons hlt]
    rw [List.getD_eq_getElem _ _ hlt] at ht
    exact ht

/-- The FIFO load: every byte of `SEND`, in index order. -/
theorem loadFifo_did (c : Cfg) (s : State) (hs : s.send.length ≤ sendCap) :
    Did c s (loadFifo c s) (loadTrace c s.send) 0 := by
  have h := (loadLoop_spec c s.send.length (clearIdx s) (by simp) (by simpa using hs)).1
  simp only [clearIdx_send, clearIdx_idx] at h
  exact h.from_ rfl rfl rfl

/-! ## The CRC poll loop (rule R112) -/

theorem crcPollRead_did (c : Cfg) (s : State) : Did c s (crcPollRead c s) [.read c.aDivIrq (s.answer 0)] 1 :=
  (readTmp_did c c.aDivIrq s).local_ rfl rfl rfl

theorem crcPollRead_tmp (c : Cfg) (s : State) : (crcPollRead c s).tmp = s.answer 0 := readTmp_tmp c c.aDivIrq s

theorem readTrace_succ (a : Byte) (f : Nat → Byte) (k : Nat) :
    readTrace a f (k + 1) = .read a (f 0) :: readTrace a (fun j => f (1 + j)) k := by
  simp [readTrace, List.range_succ_eq_map, Function.comp_def, Nat.add_comm]

/-- One read whose test fails, then a loop that ends: the ends of the poll loop add up. -/
theorem PollEnds.cons {n m f p} (h0 : f 0 &&& m = 0) (h : PollEnds n m (fun j => f (1 + j)) p) :
    PollEnds (n + 1) m f (p + 1) where
  atLeastOnce := by omega
  atMost := by have := h.atMost; omega
  notBefore j hj := by
    cases j with
    | zero => exact h0
    | succ j => have := h.notBefore j (by omega); rwa [Nat.add_comm 1 j] at this
  stops := by
    have h1 := h.atLeastOnce
    rcases h.stops with e | e
    · exact .inl (by omega)
    · refine .inr ?_
      rwa [show p + 1 - 1 = 1 + (p - 1) by omega]

/-- A first read whose test succeeds ends the loop. -/
theorem PollEnds.first {n m f} (hn : 1 ≤ n) (h0 : f 0 &&& m ≠ 0) : PollEnds n m f 1 where
  atLeastOnce := le_refl 1
  atMost := hn
  notBefore j hj := by omega
  stops := .inr h0

/-- The number of reads of a poll loop is determined by the answers. -/
theorem PollEnds.unique {n m f p q} (hp : PollEnds n m f p) (hq : PollEnds n m f q) : p = q := by
  have key : ∀ {p q}, PollEnds n m f p → PollEnds n m f q → ¬ p < q := by
    intro p q hp hq hlt
    rcases hp.stops with e | e
    · have := hq.atMost; omega
    · exact e (hq.notBefore (p - 1) (by have := hp.atLeastOnce; omega))
  have h1 := key hp hq
  have h2 := key hq hp
  omega

theorem crcPollRead_pollC (c : Cfg) (s : State) (h : s.pollC.toNat < nCrcPoll) :
    (crcPollRead c s).pollC.toNat = s.pollC.toNat + 1 := by
  have h1 : (1 : BitVec 8).toNat = 1 := rfl
  simp only [nCrcPoll] at h
  simp only [crcPollRead, readTmp_pollC, BitVec.toNat_add, h1]
  omega

/-- A poll loop with at least one read left ends; `POLLC` counts the reads. -/
theorem crcPollLoop_spec (c : Cfg) (k : Nat) (s : State) (hk : s.pollC.toNat + k < nCrcPoll) :
    ∃ p, PollEnds (k + 1) c.mCrcDone.byte s.answer p ∧
      Did c s (crcPollLoop c (k + 1) s) (readTrace c.aDivIrq s.answer p) p ∧
      (crcPollLoop c (k + 1) s).pollC.toNat = s.pollC.toNat + p := by
  induction k generalizing s with
  | zero =>
    refine ⟨1, ⟨le_refl 1, le_refl 1, fun j hj => by omega, .inl rfl⟩, ?_, ?_⟩
    · simpa [crcPollLoop, readTrace, List.range_succ] using crcPollRead_did c s
    · simpa [crcPollLoop] using crcPollRead_pollC c s (by omega)
  | succ k ih =>
    rw [crcPollLoop]
    simp only [crcPollRead_tmp]
    have hc := crcPollRead_pollC c s (by omega)
    by_cases hd : s.answer 0 &&& c.mCrcDone.byte = 0
    · obtain ⟨p, hp, hdid, hct⟩ := ih (crcPollRead c s) (by omega)
      have hans : (crcPollRead c s).answer = fun j => s.answer (1 + j) :=
        funext fun j => (crcPollRead_did c s).answer j
      rw [hans] at hp hdid
      refine ⟨p + 1, hp.cons hd, ?_, ?_⟩
      · rw [readTrace_succ, if_neg (by simp [crcDone, hd]), Nat.add_comm p 1]
        exact (crcPollRead_did c s).trans hdid
      · rw [if_neg (by simp [crcDone, hd]), hct, hc]
        omega
    · refine ⟨1, .first (by omega) hd, ?_, ?_⟩
      · rw [if_pos (by simpa [crcDone] using hd)]
        simpa [readTrace, List.range_succ] using crcPollRead_did c s
      · rw [if_pos (by simpa [crcDone] using hd), hc]

/-! ## CRCCALC (rule R110) -/

/-- The poll loop of step S5. -/
theorem crcPoll_spec (c : Cfg) (s : State) :
    ∃ p, PollEnds nCrcPoll c.mCrcDone.byte s.answer p ∧ Did c s (crcPoll c s) (readTrace c.aDivIrq s.answer p) p ∧
      (crcPoll c s).pollC.toNat = p := by
  obtain ⟨p, hp, hd, hct⟩ := crcPollLoop_spec c 254 (clearCrcPoll s) (by simp [nCrcPoll])
  exact ⟨p, hp, hd.from_ rfl rfl rfl, hct.trans (Nat.zero_add p)⟩

theorem readCrcLow_did (c : Cfg) (s : State) : Did c s (readCrcLow c s) [.read c.aCrcResultL (s.answer 0)] 1 :=
  (rdReg_did c _ s).local_ rfl rfl rfl

theorem readCrcHigh_did (c : Cfg) (s : State) : Did c s (readCrcHigh c s) [.read c.aCrcResultH (s.answer 0)] 1 :=
  (rdReg_did c _ s).local_ rfl rfl rfl

theorem readCrcLow_value (c : Cfg) (s : State) : (readCrcLow c s).crcLo = s.answer 0 := rdReg_value c _ s

theorem readCrcHigh_value (c : Cfg) (s : State) : (readCrcHigh c s).crcHi = s.answer 0 := rdReg_value c _ s

/-- CRCCALC: its trace, the two bytes read back, whatever ended the poll, and the count of its reads. -/
theorem crcCalc_spec (c : Cfg) (s : State) (hs : s.send.length ≤ sendCap) :
    ∃ p, PollEnds nCrcPoll c.mCrcDone.byte (fun j => s.answer (2 + j)) p ∧
      Did c s (crcCalc c s) (crcTrace c s.send s.answer p) (4 + p) ∧
      (crcCalc c s).crcLo = s.answer (2 + p) ∧ (crcCalc c s).crcHi = s.answer (3 + p) ∧
      (crcCalc c s).pollC.toNat = p := by
  have h : Did c s (wrReg c c.aCommand c.cmdCalcCrc (loadFifo c (setBits c c.aFifoLevel c.mFlush.byte
      (clrBits c c.aDivIrq c.mCrcDone.byte s)))) _ _ :=
    (((clrBits_did c c.aDivIrq c.mCrcDone.byte s).trans (setBits_did c c.aFifoLevel c.mFlush.byte _)).trans
      (loadFifo_did c _ (by simpa using hs))).trans (wrReg_did c c.aCommand c.cmdCalcCrc _)
  simp only [(clrBits_did c c.aDivIrq c.mCrcDone.byte s).answer, setBits_send, clrBits_send] at h
  unfold crcCalc
  dsimp only
  generalize wrReg c c.aCommand c.cmdCalcCrc _ = s4 at h ⊢
  obtain ⟨p, hp, hd, hct⟩ := crcPoll_spec c s4
  have hf : s4.answer = fun j => s.answer (2 + j) := funext fun j => h.answer j
  rw [hf] at hp hd
  have h5 := h.trans hd
  generalize crcPoll c s4 = s5 at h5 hct ⊢
  have h6 := h5.trans (readCrcLow_did c s5)
  have h7 := h6.trans (readCrcHigh_did c _)
  have e5 : s5.answer 0 = s.answer (2 + p) := by rw [h5.answer]; congr 1
  have e6 : (readCrcLow c s5).answer 0 = s.answer (3 + p) := by rw [h6.answer]; congr 1; omega
  rw [e5, e6, show 1 + 1 + 0 + 0 + p + 1 + 1 = 4 + p by omega] at h7
  refine ⟨p, hp, ?_, ?_, ?_, by rw [readCrcHigh_pollC, readCrcLow_pollC, hct]⟩
  · simpa [crcTrace] using h7
  · rw [readCrcHigh_crcLo, readCrcLow_value, e5]
  · rw [readCrcHigh_value, e6]

end Sys2Proof.Machine
end

