-- ==== Sys2Proof/Laws/Transceive.lean ====
section
/-!
SUPPORT. What the transceive poll loop, the harvest and TRANSCV can do.
-/

namespace Sys2Proof.Machine

/-! ## The poll loop (rule R124) -/

theorem trxPollRead_did (c : Cfg) (s : State) : Did c s (trxPollRead c s) [.read c.aComIrq (s.answer 0)] 1 :=
  (readTmp_did c c.aComIrq s).local_ rfl rfl rfl

theorem trxPollRead_seen (c : Cfg) (s : State) : (trxPollRead c s).seen = (s.seen || rxDone (s.answer 0)) := by
  simp only [trxPollRead, readTmp_seen, readTmp_tmp]

theorem trxPollRead_tmp (c : Cfg) (s : State) : (trxPollRead c s).tmp = s.answer 0 := readTmp_tmp c c.aComIrq s

theorem trxPollRead_pollT (c : Cfg) (s : State) (h : s.pollT.toNat < nTrxPoll) :
    (trxPollRead c s).pollT.toNat = s.pollT.toNat + 1 := by
  have h1 : (1 : BitVec 11).toNat = 1 := rfl
  simp only [nTrxPoll] at h
  simp only [trxPollRead, readTmp_pollT, BitVec.toNat_add, h1]
  omega

/-- A poll loop with at least one read left and the bit not seen yet ends; `SEEN` says whether its last read showed
the bit, and `POLLT` counts the reads. -/
theorem trxPollLoop_spec (c : Cfg) (k : Nat) (s : State) (hs : s.seen = false) (hk : s.pollT.toNat + k < nTrxPoll) :
    ∃ p, PollEnds (k + 1) mRxDone s.answer p ∧
      Did c s (trxPollLoop c (k + 1) s) (readTrace c.aComIrq s.answer p) p ∧
      (trxPollLoop c (k + 1) s).seen = rxDone (s.answer (p - 1)) ∧
      (trxPollLoop c (k + 1) s).pollT.toNat = s.pollT.toNat + p := by
  induction k generalizing s with
  | zero =>
    refine ⟨1, ⟨le_refl 1, le_refl 1, fun j hj => by omega, .inl rfl⟩, ?_, ?_, ?_⟩
    · simpa [trxPollLoop, readTrace, List.range_succ] using trxPollRead_did c s
    · simp [trxPollLoop, trxPollRead_seen, hs]
    · simpa [trxPollLoop] using trxPollRead_pollT c s (by omega)
  | succ k ih =>
    rw [trxPollLoop]
    simp only [trxPollRead_seen, hs, Bool.false_or]
    have hc := trxPollRead_pollT c s (by omega)
    by_cases hd : s.answer 0 &&& mRxDone = 0
    · have hb : rxDone (s.answer 0) = false := by simpa [rxDone] using hd
      obtain ⟨p, hp, hdid, hse, hct⟩ := ih (trxPollRead c s) (by rw [trxPollRead_seen, hs, hb]; rfl) (by omega)
      have hans : (trxPollRead c s).answer = fun j => s.answer (1 + j) :=
        funext fun j => (trxPollRead_did c s).answer j
      rw [hans] at hp hdid hse
      have h1 := hp.atLeastOnce
      refine ⟨p + 1, hp.cons hd, ?_, ?_, ?_⟩
      · rw [readTrace_succ, hb, Nat.add_comm p 1]
        exact (trxPollRead_did c s).trans hdid
      · rw [hb, show p + 1 - 1 = 1 + (p - 1) by omega]
        exact hse
      · rw [hb, if_neg (by simp), hct, hc]
        omega
    · have hb : rxDone (s.answer 0) = true := by simpa [rxDone] using hd
      refine ⟨1, .first (by omega) hd, ?_, ?_, ?_⟩
      · rw [hb]
        simpa [readTrace, List.range_succ] using trxPollRead_did c s
      · rw [hb, if_pos rfl, trxPollRead_seen, hs, hb]; rfl
      · rw [hb, if_pos rfl, hc]

/-- The poll loop of step S7. -/
theorem trxPoll_spec (c : Cfg) (s : State) :
    ∃ p, PollEnds nTrxPoll mRxDone s.answer p ∧ Did c s (trxPoll c s) (readTrace c.aComIrq s.answer p) p ∧
      (trxPoll c s).seen = rxDone (s.answer (p - 1)) ∧ (trxPoll c s).pollT.toNat = p := by
  obtain ⟨p, hp, hd, hse, hct⟩ := trxPollLoop_spec c 1999 (clearPoll s) rfl (by simp [nTrxPoll])
  exact ⟨p, hp, hd.from_ rfl rfl rfl, hse, hct.trans (Nat.zero_add p)⟩

/-! ## Steps S1 to S8 (rules R121 to R125) -/

/-- The set-up, the load, the start, the poll and the stop of an exchange. -/
theorem exchange_spec (c : Cfg) (cmd : Byte) (s : State) (hs : s.send.length ≤ sendCap) :
    ∃ p, PollEnds nTrxPoll mRxDone (fun j => s.answer (2 + j)) p ∧
      Did c s (exchange c cmd s) (exchangeTrace c cmd s.send s.answer p) (3 + p) ∧
      (exchange c cmd s).seen = rxDone (s.answer (1 + p)) ∧ (exchange c cmd s).pollT.toNat = p := by
  have h : Did c s (wrReg c c.aCommand cmd (loadFifo c (setBits c c.aFifoLevel c.mFlush.byte
      (wrReg c c.aCommand c.cmdIdle (wrReg c c.aComIEn c.vIrqEn s))))) _ _ :=
    ((((wrReg_did c c.aComIEn c.vIrqEn s).trans (wrReg_did c c.aCommand c.cmdIdle _)).trans
      (setBits_did c c.aFifoLevel c.mFlush.byte _)).trans (loadFifo_did c _ (by simpa using hs))).trans
      (wrReg_did c c.aCommand cmd _)
  simp only [((wrReg_did c c.aComIEn c.vIrqEn s).trans (wrReg_did c c.aCommand c.cmdIdle _)).answer,
    setBits_send, wrReg_send] at h
  unfold exchange
  dsimp only
  generalize wrReg c c.aCommand cmd _ = s5 at h ⊢
  have h6 := h.trans (setBits_did c c.aBitFraming mStart s5)
  rw [show s5.answer 0 = s.answer 1 by rw [h.answer]] at h6
  generalize setBits c c.aBitFraming mStart s5 = s6 at h6 ⊢
  obtain ⟨p, hp, hd, hse, hct⟩ := trxPoll_spec c s6
  have hf : s6.answer = fun j => s.answer (2 + j) := funext fun j => h6.answer j
  rw [hf] at hp hd hse
  have hp1 := hp.atLeastOnce
  have h7 := h6.trans hd
  generalize trxPoll c s6 = s7 at h7 hse hct ⊢
  have h8 := h7.trans (clrBits_did c c.aBitFraming mStart s7)
  have e7 : s7.answer 0 = s.answer (2 + p) := by rw [h7.answer]; congr 1
  rw [e7, show 0 + 0 + 1 + 0 + 0 + 1 + p + 1 = 3 + p by omega] at h8
  refine ⟨p, hp, ?_, ?_, by rw [clrBits_pollT, hct]⟩
  · have hm : (127#8 : Byte) = ~~~mStart := rfl
    rw [exchangeTrace, hm]
    simpa using h8
  · rw [clrBits_seen, hse]
    exact congrArg (fun j => rxDone (s.answer j)) (by omega)

/-! ## Steps S12 and S13 (rules R129 and R130) -/

theorem harvestOne_did (c : Cfg) (s : State) : Did c s (harvestOne c s) [.read c.aFifoData (s.answer 0)] 1 :=
  (rdReg_did c _ s).local_ rfl rfl rfl

theorem harvestOne_recv (c : Cfg) (s : State) : (harvestOne c s).recv = s.recv ++ [s.answer 0] := by
  simp only [harvestOne, rdReg_value]

/-- The harvest loop appends the next `k` answers to `RECV`, in order. -/
theorem harvestLoop_spec (c : Cfg) (k : Nat) (s : State) :
    Did c s (harvestLoop c k s) (readTrace c.aFifoData s.answer k) k ∧
      (harvestLoop c k s).recv = s.recv ++ (List.range k).map s.answer := by
  induction k generalizing s with
  | zero => exact ⟨Did.refl c s, by simp [harvestLoop]⟩
  | succ k ih =>
    obtain ⟨hd, hr⟩ := ih (harvestOne c s)
    have hans : (harvestOne c s).answer = fun j => s.answer (1 + j) :=
      funext fun j => (harvestOne_did c s).answer j
    rw [hans] at hd hr
    refine ⟨?_, ?_⟩
    · have h := (harvestOne_did c s).trans hd
      rw [Nat.add_comm 1 k] at h
      rw [readTrace_succ]
      exact h
    · rw [harvestLoop, hr, harvestOne_recv, List.range_succ_eq_map]
      simp [Function.comp_def, Nat.add_comm]

theorem readLevel_did (c : Cfg) (s : State) : Did c s (readLevel c s) [.read c.aFifoLevel (s.answer 0)] 1 :=
  (rdReg_did c _ s).local_ rfl rfl rfl

theorem readLevel_n (c : Cfg) (s : State) : (readLevel c s).n = s.answer 0 := rdReg_value c _ s

theorem readControl_did (c : Cfg) (s : State) : Did c s (readControl c s) [.read c.aControl (s.answer 0)] 1 :=
  (rdReg_did c _ s).local_ rfl rfl rfl

theorem readControl_vbc (c : Cfg) (s : State) :
    (readControl c s).vbc = BitVec.ofInt 12 (validBits s.n (lastBits (s.answer 0))) := by
  simp only [readControl, rdReg_value]

theorem readError_did (c : Cfg) (s : State) : Did c s (readError c s) [.read c.aError (s.answer 0)] 1 :=
  (rdReg_did c _ s).local_ rfl rfl rfl

theorem readError_err (c : Cfg) (s : State) : (readError c s).err = s.answer 0 := rdReg_value c _ s

/-- The mathematical integer of rule R129 is that of the byte read. -/
theorem validBits_lastBits (level control : Byte) : validBits level (lastBits control) = validBitCount level control := by
  have h : (lastBits control).toNat = control.toNat % 8 := by
    have : control &&& mLastBits = control &&& 0x07#8 := rfl
    simp only [lastBits, BitVec.toNat_setWidth, BitVec.toNat_and]
    have h7 : (mLastBits).toNat = 2 ^ 3 - 1 := rfl
    rw [h7, Nat.and_two_pow_sub_one_eq_mod]; omega
  have hz : lastBits control ≠ 0 ↔ control.toNat % 8 ≠ 0 := by
    rw [← h]
    constructor
    · intro hne h0; exact hne (BitVec.eq_of_toNat_eq (by simpa using h0))
    · intro hne h0; exact hne (by rw [h0]; rfl)
  unfold validBits validBitCount
  rw [h]
  simp only [hz]

/-- The range of the valid-bit count (rule R24). -/
theorem validBitCount_range (level control : Byte) :
    -7 ≤ validBitCount level control ∧ validBitCount level control ≤ 2040 := by
  have := level.isLt
  unfold validBitCount
  dsimp only
  split <;> omega

/-- 12 bits hold the whole range of rule R24. -/
theorem vbc_toInt (i : Int) (h : -7 ≤ i ∧ i ≤ 2040) : (BitVec.ofInt 12 i).toInt = i := by
  rw [BitVec.toInt_ofInt]
  simp only [Int.bmod_def]
  omega

/-- Steps S11 to S13: the level, the control register and the harvest. -/
theorem receive_spec (c : Cfg) (s : State) :
    Did c s (receive c s) (receiveTrace c s.answer) (2 + min (s.answer 0).toNat 16) ∧
      (receive c s).status = statusOk ∧
      (receive c s).recv = s.recv ++ (List.range (min (s.answer 0).toNat 16)).map (fun k => s.answer (2 + k)) ∧
      (receive c s).vbc = BitVec.ofInt 12 (validBitCount (s.answer 0) (s.answer 1)) := by
  have h1 : Did c s (readLevel c (succeed s)) [.read c.aFifoLevel (s.answer 0)] 1 :=
    (readLevel_did c (succeed s)).from_ rfl rfl rfl
  have n1 : (readLevel c (succeed s)).n = s.answer 0 := readLevel_n c (succeed s)
  have r1 : (readLevel c (succeed s)).recv = s.recv := by simp
  have t1 : (readLevel c (succeed s)).status = statusOk := by simp
  unfold receive
  generalize readLevel c (succeed s) = s1 at h1 n1 r1 t1 ⊢
  have e1 : s1.answer 0 = s.answer 1 := h1.answer 0
  have h2 := h1.trans (readControl_did c s1)
  have v2 := readControl_vbc c s1
  have n2 : (readControl c s1).n = s.answer 0 := by simp [n1]
  have r2 : (readControl c s1).recv = s.recv := by simp [r1]
  have t2 : (readControl c s1).status = statusOk := by simp [t1]
  rw [e1] at h2 v2
  rw [n1, validBits_lastBits] at v2
  generalize readControl c s1 = s2 at h2 v2 n2 r2 t2 ⊢
  have hm : harvestCount s2.n = min (s.answer 0).toNat 16 := by rw [n2]; rfl
  unfold harvest
  rw [hm]
  obtain ⟨hd, hr⟩ := harvestLoop_spec c (min (s.answer 0).toNat 16) (clearIdx s2)
  have hf : (clearIdx s2).answer = fun k => s.answer (2 + k) := funext fun k => h2.answer k
  rw [hf] at hd hr
  refine ⟨?_, ?_, ?_, ?_⟩
  · simpa [receiveTrace] using h2.trans (hd.from_ rfl rfl rfl)
  · simpa using t2
  · simpa [r2] using hr
  · simpa using v2

/-! ## TRANSCV (rule R120) -/

/-- The three outcomes of TRANSCV, each with its trace and its results (rules R126 to R131). -/
theorem transceive_spec (c : Cfg) (cmd : Byte) (s : State) (hs : s.send.length ≤ sendCap) :
    ∃ p, PollEnds nTrxPoll mRxDone (fun j => s.answer (2 + j)) p ∧
      ((s.answer (1 + p) &&& mRxDone = 0 ∧
          Did c s (transceive c cmd s) (exchangeTrace c cmd s.send s.answer p) (3 + p) ∧
          (transceive c cmd s).status = statusErr ∧ (transceive c cmd s).recv = [] ∧ (transceive c cmd s).vbc = 0) ∨
        (s.answer (1 + p) &&& mRxDone ≠ 0 ∧ s.answer (3 + p) &&& mErr ≠ 0 ∧
          Did c s (transceive c cmd s)
            (exchangeTrace c cmd s.send s.answer p ++ [.read c.aError (s.answer (3 + p))]) (4 + p) ∧
          (transceive c cmd s).status = statusErr ∧ (transceive c cmd s).recv = [] ∧ (transceive c cmd s).vbc = 0) ∨
        (s.answer (1 + p) &&& mRxDone ≠ 0 ∧ s.answer (3 + p) &&& mErr = 0 ∧
          Did c s (transceive c cmd s)
            (exchangeTrace c cmd s.send s.answer p ++ .read c.aError (s.answer (3 + p)) ::
              receiveTrace c (fun k => s.answer (4 + p + k)))
            (6 + p + min (s.answer (4 + p)).toNat 16) ∧
          (transceive c cmd s).status = statusOk ∧
          (transceive c cmd s).recv =
            (List.range (min (s.answer (4 + p)).toNat 16)).map (fun k => s.answer (6 + p + k)) ∧
          (transceive c cmd s).vbc = BitVec.ofInt 12 (validBitCount (s.answer (4 + p)) (s.answer (5 + p))))) := by
  obtain ⟨p, hp, hd, hse, _⟩ := exchange_spec c cmd (clearResults s) (by simpa using hs)
  have hf : (clearResults s).answer = s.answer := rfl
  have t8 : (exchange c cmd (clearResults s)).status = statusErr := by simp
  have r8 : (exchange c cmd (clearResults s)).recv = [] := by simp
  have v8 : (exchange c cmd (clearResults s)).vbc = 0 := by simp
  rw [hf] at hp hd hse
  have h8 : Did c s _ (exchangeTrace c cmd s.send s.answer p) (3 + p) := hd.from_ (s' := s) rfl rfl rfl
  refine ⟨p, hp, ?_⟩
  unfold transceive
  generalize exchange c cmd (clearResults s) = s8 at h8 hse t8 r8 v8 ⊢
  unfold resolve
  by_cases hx : s.answer (1 + p) &&& mRxDone = 0
  · have hb : s8.seen = false := by rw [hse]; simpa [rxDone] using hx
    rw [hb]
    exact .inl ⟨hx, h8, t8, r8, v8⟩
  · have hb : s8.seen = true := by rw [hse]; simpa [rxDone] using hx
    rw [hb]
    simp only [if_true]
    have e8 : s8.answer 0 = s.answer (3 + p) := h8.answer 0
    have h9 := h8.trans (readError_did c s8)
    have w9 := readError_err c s8
    have t9 : (readError c s8).status = statusErr := by simp [t8]
    have r9 : (readError c s8).recv = [] := by simp [r8]
    have v9 : (readError c s8).vbc = 0 := by simp [v8]
    rw [e8] at h9 w9
    rw [show 3 + p + 1 = 4 + p by omega] at h9
    generalize readError c s8 = s9 at h9 w9 t9 r9 v9 ⊢
    rw [w9]
    by_cases he : s.answer (3 + p) &&& mErr = 0
    · have hg : hasError (s.answer (3 + p)) = false := by simpa [hasError] using he
      rw [hg]
      obtain ⟨hd, hst, hr, hv⟩ := receive_spec c s9
      have hf : s9.answer = fun k => s.answer (4 + p + k) := funext fun k => h9.answer k
      rw [hf] at hd hr hv
      rw [r9] at hr
      simp only [Nat.add_zero] at hd hr hv
      have hk : 4 + p + (2 + min (s.answer (4 + p)).toNat 16) = 6 + p + min (s.answer (4 + p)).toNat 16 := by omega
      refine .inr (.inr ⟨hx, he, ?_, hst, ?_, ?_⟩)
      · have h := h9.trans hd
        rw [hk] at h
        simpa using h
      · simp only [List.nil_append] at hr
        rw [if_neg (by simp), hr]
        refine List.map_congr_left fun k _ => ?_
        exact congrArg s.answer (by omega)
      · rw [if_neg (by simp), hv, show 4 + p + 1 = 5 + p by omega]
    · have hg : hasError (s.answer (3 + p)) = true := by simpa [hasError] using he
      rw [hg]
      exact .inr (.inl ⟨hx, he, h9, t9, r9, v9⟩)

theorem receive_latches (c : Cfg) (s : State) :
    (receive c s).n = s.answer 0 ∧ (receive c s).rem = lastBits (s.answer 1) := by
  have h1 : Did c s (readLevel c (succeed s)) [.read c.aFifoLevel (s.answer 0)] 1 :=
    (readLevel_did c (succeed s)).from_ rfl rfl rfl
  have e1 : (readLevel c (succeed s)).answer 0 = s.answer 1 := h1.answer 0
  refine ⟨?_, ?_⟩
  · simp only [receive, harvest_n, readControl_n, readLevel_n]
    rfl
  · have : (readControl c (readLevel c (succeed s))).rem = lastBits ((readLevel c (succeed s)).answer 0) := by
      simp only [readControl, rdReg_value]
    simp only [receive, harvest_rem, this, e1]

/-- The latches TRANSCV leaves: the poll's, the error byte where it was read, and the level and the remainder where
these were (rules R124, R127 and R129). -/
theorem transceive_latches (c : Cfg) (cmd : Byte) (s : State) (hs : s.send.length ≤ sendCap) :
    ∃ p, PollEnds nTrxPoll mRxDone (fun j => s.answer (2 + j)) p ∧ (transceive c cmd s).pollT.toNat = p ∧
      (transceive c cmd s).seen = rxDone (s.answer (1 + p)) ∧
      (s.answer (1 + p) &&& mRxDone ≠ 0 → (transceive c cmd s).err = s.answer (3 + p)) ∧
      (s.answer (1 + p) &&& mRxDone ≠ 0 → s.answer (3 + p) &&& mErr = 0 →
        (transceive c cmd s).n = s.answer (4 + p) ∧ (transceive c cmd s).rem = lastBits (s.answer (5 + p))) := by
  obtain ⟨p, hp, hd, hse, hct⟩ := exchange_spec c cmd (clearResults s) (by simpa using hs)
  have hf : (clearResults s).answer = s.answer := rfl
  rw [hf] at hp hd hse
  have h8 : Did c s _ (exchangeTrace c cmd s.send s.answer p) (3 + p) := hd.from_ (s' := s) rfl rfl rfl
  refine ⟨p, hp, ?_⟩
  unfold transceive
  generalize exchange c cmd (clearResults s) = s8 at h8 hse hct ⊢
  refine ⟨by rw [resolve_pollT, hct], by rw [resolve_seen, hse], ?_⟩
  have e8 : s8.answer 0 = s.answer (3 + p) := h8.answer 0
  have w9 : (readError c s8).err = s.answer (3 + p) := (readError_err c s8).trans e8
  have h9 := h8.trans (readError_did c s8)
  have e9 : (readError c s8).answer 0 = s.answer (4 + p) := (h9.answer 0).trans (congrArg s.answer (by omega))
  have e10 : (readError c s8).answer 1 = s.answer (5 + p) := (h9.answer 1).trans (congrArg s.answer (by omega))
  have hb : s.answer (1 + p) &&& mRxDone ≠ 0 → s8.seen = true := fun h => by rw [hse]; simpa [rxDone] using h
  refine ⟨fun h => ?_, fun h he => ?_⟩
  · unfold resolve
    rw [hb h, if_pos rfl]
    dsimp only
    split
    · exact w9
    · rw [receive_err, w9]
  · unfold resolve
    rw [hb h, if_pos rfl]
    dsimp only
    rw [w9, if_neg (by simpa [hasError] using he), ← e9, ← e10]
    exact receive_latches c _

end Sys2Proof.Machine
end

