-- ==== Sys2Proof/Laws/Exec.lean ====
section
/-!
SUPPORT. What the host port and the operations over CRCCALC and TRANSCV can do, and that they depend on the frame in
`SEND` and on the chip's answers alone (rules R11 and R21).
-/

namespace Sys2Proof.Machine

/-! ## The host port -/

/-- While `BUSY` = 1 a request has no effect (rule R77). -/
theorem exec_busy {s : State} (h : s.busy = true) (i : Instr) : exec i s = .next s := by
  cases i <;> exact if_pos h

/-- While `BUSY` = 0 a request runs from its acceptance to its end (rules R77 and R29). -/
theorem exec_idle {s : State} (h : s.busy = false) (i : Instr) : exec i s = .next (operate Config.cfg i s) := by
  have hb : ¬ s.busy = true := by simp [h]
  cases i <;> exact if_neg hb

/-- Acceptance does nothing outside the block. -/
theorem accept_did (c : Cfg) (i : Instr) (s : State) : Did c s (accept i s) [] 0 := by
  cases i <;> exact (Did.refl c s).local_ rfl rfl rfl

theorem finish_did {c s t xs k} (h : Did c s t xs k) (r : Response) : Did c s (finish r t) xs k :=
  h.local_ rfl rfl rfl

/-! ## Padding (rule R162) -/

theorem padText_length (t : List Byte) :
    (padText t).length % 4 = 0 ∧ t.length ≤ (padText t).length ∧ (padText t).length < t.length + 4 := by
  simp only [padText, padCount, List.length_append, List.length_replicate, pageBytes]
  omega

/-- The chunk loop moves `PAGE` on by one per chunk (rule R163). -/
theorem writeChunks_page (c : Cfg) (k : Nat) (s : State) : (writeChunks c k s).page = s.page + BitVec.ofNat 8 k := by
  induction k generalizing s with
  | zero => simp [writeChunks]
  | succ k ih =>
    rw [writeChunks, ih, nextPage_page, writeChunk_page, BitVec.add_assoc, BitVec.ofNat_add k 1, BitVec.add_comm 1]
    rfl

/-! ## Operations as functions of the frame and the answers -/

/-- From `a` and from `b` the same has been done outside, leading to `a'` and `b'` with equal results of an exchange. -/
structure Alike (c : Cfg) (a b a' b' : State) : Prop where
  did : ∃ xs k, Did c a a' xs k ∧ Did c b b' xs k
  status : a'.status = b'.status
  recv : a'.recv = b'.recv
  vbc : a'.vbc = b'.vbc

theorem Alike.answer {c a b a' b'} (h : Alike c a b a' b') (hab : a.answer = b.answer) : a'.answer = b'.answer := by
  obtain ⟨xs, k, ha, hb⟩ := h.did
  funext j
  rw [ha.answer, hb.answer, hab]

/-- CRCCALC depends on the bytes and the answers alone. -/
theorem crcCalc_alike (c : Cfg) (a b : State) (hs : a.send = b.send) (hc : a.send.length ≤ sendCap)
    (hab : a.answer = b.answer) :
    (∃ xs k, Did c a (crcCalc c a) xs k ∧ Did c b (crcCalc c b) xs k) ∧
      (crcCalc c a).crcLo = (crcCalc c b).crcLo ∧ (crcCalc c a).crcHi = (crcCalc c b).crcHi := by
  obtain ⟨p, hp, hd, hl, hh, _⟩ := crcCalc_spec c a hc
  obtain ⟨q, hq, he, hl', hh', _⟩ := crcCalc_spec c b (hs ▸ hc)
  rw [← hab] at hq he hl' hh'
  cases hp.unique hq
  rw [hs] at hd
  exact ⟨⟨_, _, hd, he⟩, by rw [hl, hl'], by rw [hh, hh']⟩

/-- TRANSCV depends on the command, the frame and the answers alone. -/
theorem transceive_alike (c : Cfg) (cmd : Byte) (a b : State) (hs : a.send = b.send) (hc : a.send.length ≤ sendCap)
    (hab : a.answer = b.answer) : Alike c a b (transceive c cmd a) (transceive c cmd b) := by
  obtain ⟨p, hp, ha⟩ := transceive_spec c cmd a hc
  obtain ⟨q, hq, hb⟩ := transceive_spec c cmd b (hs ▸ hc)
  rw [← hab] at hq hb
  cases hp.unique hq
  rw [hs] at ha
  rcases ha with ⟨h1, d, e1, e2, e3⟩ | ⟨h1, h2, d, e1, e2, e3⟩ | ⟨h1, h2, d, e1, e2, e3⟩ <;>
    rcases hb with ⟨g1, d', f1, f2, f3⟩ | ⟨g1, g2, d', f1, f2, f3⟩ | ⟨g1, g2, d', f1, f2, f3⟩ <;>
    first
    | exact absurd g1 h1
    | exact absurd h1 g1
    | exact absurd g2 h2
    | exact absurd h2 g2
    | exact ⟨⟨_, _, d, d'⟩, by rw [e1, f1], by rw [e2, f2], by rw [e3, f3]⟩

/-- A change of registers before: the same has been done outside. -/
theorem Alike.before {c a b a0 b0 a' b' xs k} (h : Alike c a b a' b') (ha : Did c a0 a xs k) (hb : Did c b0 b xs k) :
    Alike c a0 b0 a' b' := by
  obtain ⟨ys, l, da, db⟩ := h.did
  exact ⟨⟨_, _, ha.trans da, hb.trans db⟩, h.status, h.recv, h.vbc⟩

/-- The answers after the same has been done outside are the same. -/
theorem Did.answer_eq {c a b a' b' xs k} (ha : Did c a a' xs k) (hb : Did c b b' xs k) (hab : a.answer = b.answer) :
    a'.answer = b'.answer := by
  funext j
  rw [ha.answer, hb.answer, hab]

/-- The exchange of a frame head with its CRC depends on the head and the answers alone. -/
theorem sendWithCrc_alike (c : Cfg) (a b : State) (hs : a.send = b.send) (hc : a.send.length ≤ 6)
    (hab : a.answer = b.answer) : Alike c a b (sendWithCrc c a) (sendWithCrc c b) := by
  have hcap : a.send.length ≤ sendCap := le_trans hc (by decide)
  obtain ⟨⟨xs, k, da, db⟩, hl, hh⟩ := crcCalc_alike c a b hs hcap hab
  have da' : Did c a (appendCrc (crcCalc c a)) xs k := da.local_ rfl rfl rfl
  have db' : Did c b (appendCrc (crcCalc c b)) xs k := db.local_ rfl rfl rfl
  refine (transceive_alike c c.cmdTransceive _ _ ?_ ?_ (da'.answer_eq db' hab)).before da' db'
  · simp [hs, hl, hh]
  · simp only [appendCrc_send, crcCalc_send, List.length_append, List.length_cons, List.length_nil]
    exact le_trans (Nat.add_le_add_right hc 2) (by decide)

/-- REQPRES depends on the mode and the answers alone. -/
theorem reqPres_alike (c : Cfg) (mode : Byte) (a b : State) (hab : a.answer = b.answer) :
    Alike c a b (reqPres c mode a) (reqPres c mode b) := by
  have da := (wrReg_did c c.aBitFraming vFrame7 a).local_
    (u := requestFrame mode (wrReg c c.aBitFraming vFrame7 a)) rfl rfl rfl
  have db := (wrReg_did c c.aBitFraming vFrame7 b).local_
    (u := requestFrame mode (wrReg c c.aBitFraming vFrame7 b)) rfl rfl rfl
  exact (transceive_alike c c.cmdTransceive (requestFrame mode (wrReg c c.aBitFraming vFrame7 a))
    (requestFrame mode (wrReg c c.aBitFraming vFrame7 b)) rfl (by simp) (da.answer_eq db hab)).before da db

/-- ANTICOLL depends on the answers alone. -/
theorem antiColl_alike (c : Cfg) (a b : State) (hab : a.answer = b.answer) :
    Alike c a b (antiColl c a) (antiColl c b) := by
  have da := (wrReg_did c c.aBitFraming vFrame8 a).local_
    (u := anticollFrame (wrReg c c.aBitFraming vFrame8 a)) rfl rfl rfl
  have db := (wrReg_did c c.aBitFraming vFrame8 b).local_
    (u := anticollFrame (wrReg c c.aBitFraming vFrame8 b)) rfl rfl rfl
  exact (transceive_alike c c.cmdTransceive (anticollFrame (wrReg c c.aBitFraming vFrame8 a))
    (anticollFrame (wrReg c c.aBitFraming vFrame8 b)) rfl (by decide : (2 : Nat) ≤ 255) (da.answer_eq db hab)).before
    da db

end Sys2Proof.Machine
end

