-- ==== Sys2Proof/Laws/Sequencer.lean ====
section
/-!
SUPPORT. What a tick of the sequencer can do, and that the ticks of an operation lead to what its meaning gives.
-/

namespace Sys2Proof.Machine

/-! ## One tick -/

/-- `t` is `s` with registers changed: the transport, the chip's answers and the requests are as before. -/
structure LocalChange (s t : State) : Prop where
  bus : t.bus = s.bus
  answers : t.answers = s.answers
  drawn : t.drawn = s.drawn
  requests : t.requests = s.requests

theorem LocalChange.refl (s : State) : LocalChange s s := ⟨rfl, rfl, rfl, rfl⟩
theorem LocalChange.trans {s t u} (h : LocalChange s t) (g : LocalChange t u) : LocalChange s u :=
  ⟨g.bus.trans h.bus, g.answers.trans h.answers, g.drawn.trans h.drawn, g.requests.trans h.requests⟩

theorem enterLoad_local (a b s) : LocalChange s (enterLoad a b s) := ⟨rfl, rfl, rfl, rfl⟩
theorem afterLoad_local (a b s) : LocalChange s (afterLoad a b s) := ⟨rfl, rfl, rfl, rfl⟩
theorem enterPages_local (s) : LocalChange s (enterPages s) := by
  unfold enterPages; dsimp only; split
  · exact ⟨rfl, rfl, rfl, rfl⟩
  · split <;> exact ⟨rfl, rfl, rfl, rfl⟩
theorem afterReadPage_local (s) : LocalChange s (afterReadPage s) := by
  unfold afterReadPage; dsimp only; split <;> exact ⟨rfl, rfl, rfl, rfl⟩
theorem afterWritePage_local (s) : LocalChange s (afterWritePage s) := by
  unfold afterWritePage; split <;> exact ⟨rfl, rfl, rfl, rfl⟩
theorem afterTrx_local (x s) : LocalChange s (afterTrx x s) := by
  cases x <;> simp only [afterTrx]
  · exact ⟨rfl, rfl, rfl, rfl⟩
  · split
    · exact ⟨rfl, rfl, rfl, rfl⟩
    · split <;> exact ⟨rfl, rfl, rfl, rfl⟩
  · split
    · exact ⟨rfl, rfl, rfl, rfl⟩
    · split
      · exact enterPages_local s
      · exact ⟨rfl, rfl, rfl, rfl⟩
  · split
    · exact ⟨rfl, rfl, rfl, rfl⟩
    · split
      · exact ⟨rfl, rfl, rfl, rfl⟩
      · split
        · exact afterReadPage_local s
        · exact afterWritePage_local s
theorem afterCrc_local (s) : LocalChange s (afterCrc s) := by
  unfold afterCrc; repeat' split
  all_goals exact ⟨rfl, rfl, rfl, rfl⟩

/-- From `s` to `t` one transaction was made, a read of which returned the chip's next answer. -/
def OneXact (c : Cfg) (s t : State) : Prop := t.requests = s.requests ∧
  ((∃ a v, Did c s t [.write a v] 0) ∨ ∃ a, Did c s t [.read a (s.answer 0)] 1)

theorem wrReg_oneXact (c : Cfg) (a v : Byte) (s : State) : OneXact c s (wrReg c a v s) :=
    ⟨by simp, .inl ⟨a, v, wrReg_did c a v s⟩⟩
theorem rdReg_oneXact (c : Cfg) (a : Byte) (s : State) : OneXact c s (rdReg c a s).2 :=
    ⟨by simp, .inr ⟨a, rdReg_did c a s⟩⟩
theorem OneXact.then_ {c s t u} (h : OneXact c s t) (g : LocalChange t u) : OneXact c s u := by
  refine ⟨g.requests.trans h.1, ?_⟩
  rcases h.2 with ⟨a, v, d⟩ | ⟨a, d⟩
  · exact .inl ⟨a, v, d.local_ g.bus g.answers g.drawn⟩
  · exact .inr ⟨a, d.local_ g.bus g.answers g.drawn⟩
theorem OneXact.then_rfl {c s t u} (h : OneXact c s t) (a : u.bus = t.bus) (b : u.answers = t.answers)
    (d : u.drawn = t.drawn) (e : u.requests = t.requests) : OneXact c s u := h.then_ ⟨a, b, d, e⟩

/-- A tick of CRCCALC is one transaction, and leaves the requests alone (rules R28 and R77). -/
theorem tickCrc_oneXact (c : Cfg) (k : CrcStep) (s : State) : OneXact c s (tickCrc c k s) := by
  cases k <;> simp only [tickCrc]
  · exact (rdReg_oneXact c _ s).then_rfl rfl rfl rfl rfl
  · exact (wrReg_oneXact c _ _ s).then_rfl rfl rfl rfl rfl
  · exact (rdReg_oneXact c _ s).then_rfl rfl rfl rfl rfl
  · exact (wrReg_oneXact c _ _ s).then_rfl rfl rfl rfl rfl
  · exact (wrReg_oneXact c _ _ s).then_rfl rfl rfl rfl rfl
  · exact (wrReg_oneXact c _ _ s).then_rfl rfl rfl rfl rfl
  · exact (rdReg_oneXact c _ s).then_rfl rfl rfl rfl rfl
  · exact (rdReg_oneXact c _ s).then_rfl rfl rfl rfl rfl
  · exact ((rdReg_oneXact c _ s).then_rfl (u := readCrcHigh c s) rfl rfl rfl rfl).then_ (afterCrc_local _)

/-- A tick of TRANSCV is one transaction, and leaves the requests alone (rules R28 and R77). -/
theorem tickTrx_oneXact (c : Cfg) (x : Exchange) (k : TrxStep) (s : State) : OneXact c s (tickTrx c x k s) := by
  cases k <;> simp only [tickTrx]
  · exact (wrReg_oneXact c _ _ s).then_rfl rfl rfl rfl rfl
  · exact (wrReg_oneXact c _ _ s).then_rfl rfl rfl rfl rfl
  · exact (rdReg_oneXact c _ s).then_rfl rfl rfl rfl rfl
  · exact (wrReg_oneXact c _ _ s).then_rfl rfl rfl rfl rfl
  · exact (wrReg_oneXact c _ _ s).then_rfl rfl rfl rfl rfl
  · exact (wrReg_oneXact c _ _ s).then_rfl rfl rfl rfl rfl
  · exact (rdReg_oneXact c _ s).then_rfl rfl rfl rfl rfl
  · exact (wrReg_oneXact c _ _ s).then_rfl rfl rfl rfl rfl
  · exact (rdReg_oneXact c _ s).then_rfl rfl rfl rfl rfl
  · exact (rdReg_oneXact c _ s).then_rfl rfl rfl rfl rfl
  · split
    · exact (wrReg_oneXact c _ _ s).then_rfl rfl rfl rfl rfl
    · exact (wrReg_oneXact c _ _ s).then_ (afterTrx_local x _)
  · have : OneXact c s (readError c s) := (rdReg_oneXact c c.aError s).then_rfl rfl rfl rfl rfl
    split
    · exact this.then_ (afterTrx_local x _)
    · exact this.then_rfl rfl rfl rfl rfl
  · exact (rdReg_oneXact c _ s).then_rfl rfl rfl rfl rfl
  · have : OneXact c s (clearIdx (readControl c s)) := (rdReg_oneXact c c.aControl s).then_rfl rfl rfl rfl rfl
    split
    · exact this.then_ (afterTrx_local x _)
    · exact this.then_rfl rfl rfl rfl rfl
  · have : OneXact c s (harvestOne c s) := (rdReg_oneXact c c.aFifoData s).then_rfl rfl rfl rfl rfl
    split
    · exact this.then_rfl rfl rfl rfl rfl
    · exact this.then_ (afterTrx_local x _)

/-- A tick of an operation in flight is one transaction, and leaves the requests alone (rules R28 and R77). -/
theorem tick_oneXact (c : Cfg) (s : State) (h : s.phase ≠ .idle) : OneXact c s (tick c s) := by
  unfold tick
  split
  · exact absurd ‹_› h
  · exact (wrReg_oneXact c _ _ s).then_rfl rfl rfl rfl rfl
  · exact (wrReg_oneXact c _ _ s).then_rfl rfl rfl rfl rfl
  · exact (rdReg_oneXact c _ s).then_rfl rfl rfl rfl rfl
  · exact (wrReg_oneXact c _ _ s).then_rfl rfl rfl rfl rfl
  · exact (wrReg_oneXact c _ _ s).then_rfl rfl rfl rfl rfl
  · exact tickCrc_oneXact c _ s
  · exact tickTrx_oneXact c _ _ s

/-! ## Ticks in a row -/

/-- `n` ticks lead from `s` to `t`, each of an operation in flight. -/
inductive Runs (c : Cfg) : State → State → Nat → Prop
  | nil (s) : Runs c s s 0
  | cons {s t n} (hb : s.busy = true) (hp : s.phase ≠ .idle) (h : Runs c (tick c s) t n) : Runs c s t (n + 1)

theorem Runs.trans {c s t u n m} (h : Runs c s t n) (g : Runs c t u m) : Runs c s u (n + m) := by
  induction h with
  | nil s => simpa using g
  | cons hb hp h ih => rw [Nat.add_right_comm]; exact .cons hb hp (ih g)

theorem Runs.one {c s t} (hb : s.busy = true) (hp : s.phase ≠ .idle) (h : tick c s = t) : Runs c s t 1 := by
  subst h; exact .cons hb hp (.nil _)

/-- Ticks of an operation in flight lead from `s` to `t`. -/
def RunsTo (c : Cfg) (s t : State) : Prop := ∃ n, Runs c s t n
theorem RunsTo.trans {c s t u} (h : RunsTo c s t) (g : RunsTo c t u) : RunsTo c s u := by
  obtain ⟨n, h⟩ := h; obtain ⟨m, g⟩ := g; exact ⟨_, h.trans g⟩
theorem RunsTo.one {c s t} (hb : s.busy = true) (hp : s.phase ≠ .idle) (h : tick c s = t) : RunsTo c s t :=
    ⟨1, .one hb hp h⟩
theorem RunsTo.refl (c s) : RunsTo c s s := ⟨0, .nil s⟩

@[simp] theorem goTo_goTo (p q s) : goTo p (goTo q s) = goTo p s := rfl
theorem wrReg_goTo (c a v p s) : wrReg c a v (goTo p s) = goTo p (wrReg c a v s) := rfl
theorem readTmp_goTo (c a p s) : readTmp c a (goTo p s) = goTo p (readTmp c a s) := rfl
theorem rdReg_goTo2 (c a p s) : (rdReg c a (goTo p s)).2 = goTo p (rdReg c a s).2 := rfl
theorem rdReg_goTo1 (c a p s) : (rdReg c a (goTo p s)).1 = (rdReg c a s).1 := rfl
theorem writeSet_goTo (c a m p s) : writeSet c a m (goTo p s) = goTo p (writeSet c a m s) := rfl
theorem writeClear_goTo (c a m p s) : writeClear c a m (goTo p s) = goTo p (writeClear c a m s) := rfl
theorem loadOne_goTo (c p s) : loadOne c (goTo p s) = goTo p (loadOne c s) := rfl
theorem clearIdx_goTo (p s) : clearIdx (goTo p s) = goTo p (clearIdx s) := rfl
theorem crcPollRead_goTo (c p s) : crcPollRead c (goTo p s) = goTo p (crcPollRead c s) := rfl
theorem trxPollRead_goTo (c p s) : trxPollRead c (goTo p s) = goTo p (trxPollRead c s) := rfl
theorem harvestOne_goTo (c p s) : harvestOne c (goTo p s) = goTo p (harvestOne c s) := rfl
theorem readCrcLow_goTo (c p s) : readCrcLow c (goTo p s) = goTo p (readCrcLow c s) := rfl
theorem readCrcHigh_goTo (c p s) : readCrcHigh c (goTo p s) = goTo p (readCrcHigh c s) := rfl
theorem readError_goTo (c p s) : readError c (goTo p s) = goTo p (readError c s) := rfl
theorem readLevel_goTo (c p s) : readLevel c (goTo p s) = goTo p (readLevel c s) := rfl
theorem readControl_goTo (c p s) : readControl c (goTo p s) = goTo p (readControl c s) := rfl
theorem clearCrcPoll_goTo (p s) : clearCrcPoll (goTo p s) = goTo p (clearCrcPoll s) := rfl
theorem clearPoll_goTo (p s) : clearPoll (goTo p s) = goTo p (clearPoll s) := rfl
theorem succeed_goTo (p s) : succeed (goTo p s) = goTo p (succeed s) := rfl
theorem clearResults_goTo (p s) : clearResults (goTo p s) = goTo p (clearResults s) := rfl
theorem appendCrc_goTo (p s) : appendCrc (goTo p s) = goTo p (appendCrc s) := rfl
theorem finish_goTo (r p s) : finish r (goTo p s) = finish r s := rfl

theorem afterCrc_goTo (p s) : afterCrc (goTo p s) = afterCrc s := rfl
theorem enterPages_goTo (p s) : enterPages (goTo p s) = enterPages s := by
  unfold enterPages; dsimp only
  by_cases h : s.runs .rdtext
  · rw [if_pos h, if_pos (show (goTo p s).runs .rdtext = true from h)]; rfl
  · rw [if_neg h, if_neg (show ¬ (goTo p s).runs .rdtext = true from h)]; rfl
theorem afterTrx_goTo (x p s) : afterTrx x (goTo p s) = afterTrx x s := by
  cases x
  · rfl
  · rfl
  · simp only [afterTrx, enterPages_goTo]; rfl
  · rfl

section
variable (c : Cfg)

/-- The load loop, tick by tick (rules R111 and R123). -/
theorem runs_loadLoop (load cmd : Phase) (hl : load ≠ .idle)
   (ht : ∀ s, s.phase = load → tick c s = afterLoad load cmd (loadOne c s))
   (k : Nat) (s : State) (hb : s.busy = true) (hk : s.idx.toNat + (k + 1) = s.send.length)
       (hs : s.send.length ≤ sendCap) :
   RunsTo c (goTo load s) (goTo cmd (loadLoop c (k + 1) s)) := by
  induction k generalizing s with
  | zero =>
    refine .one hb hl ?_
    rw [ht _ rfl, loadOne_goTo]
    have hi : (loadOne c s).idx.toNat = s.idx.toNat + 1 := by
      have hc : s.send.length ≤ 255 := hs
      have h1 : (1 : BitVec 11).toNat = 1 := rfl
      simp only [loadOne, BitVec.toNat_add, h1]; omega
    unfold afterLoad
    rw [if_neg]
    · rfl
    · show ¬ (loadOne c s).idx.toNat < (loadOne c s).send.length
      rw [hi, loadOne_send]; omega
  | succ k ih =>
    have hi : (loadOne c s).idx.toNat = s.idx.toNat + 1 := by
      have hc : s.send.length ≤ 255 := hs
      have h1 : (1 : BitVec 11).toNat = 1 := rfl
      simp only [loadOne, BitVec.toNat_add, h1]; omega
    have := ih (loadOne c s) (by simpa using hb) (by rw [hi, loadOne_send]; omega) (by simpa using hs)
    refine .trans (.one hb hl ?_) this
    rw [ht _ rfl, loadOne_goTo]
    unfold afterLoad
    rw [if_pos]
    · rfl
    · show (loadOne c s).idx.toNat < (loadOne c s).send.length
      rw [hi, loadOne_send]; omega

/-- The FIFO load, tick by tick. -/
theorem runs_loadFifo (load cmd : Phase) (hl : load ≠ .idle)
   (ht : ∀ s, s.phase = load → tick c s = afterLoad load cmd (loadOne c s)) (p : Phase) (s : State)
       (hb : s.busy = true) (hs : s.send.length ≤ sendCap) :
   RunsTo c (enterLoad load cmd (goTo p s)) (goTo cmd (loadFifo c s)) := by
  unfold enterLoad loadFifo
  rw [clearIdx_goTo]
  dsimp only
  by_cases h : s.send = []
  · rw [if_pos (show (goTo p (clearIdx s)).send = [] from h), h]; exact .refl _ _
  · rw [if_neg (show ¬ (goTo p (clearIdx s)).send = [] from h)]
    obtain ⟨k, hk⟩ : ∃ k, s.send.length = k + 1 := ⟨s.send.length - 1, by have := List.length_pos_of_ne_nil h; omega⟩
    rw [hk]
    exact runs_loadLoop c load cmd hl ht k (clearIdx s) hb (by simp [hk]) (by simpa using hs)

/-- The CRC poll loop, tick by tick (rule R112). -/
theorem runs_crcPoll (k : Nat) (s : State) (hb : s.busy = true) (hk : s.pollC.toNat + (k + 1) = nCrcPoll) :
   RunsTo c (goTo (.crc .poll) s) (goTo (.crc .resultLow) (crcPollLoop c (k + 1) s)) := by
  have hi : (crcPollRead c s).pollC.toNat = s.pollC.toNat + 1 := by
    have h1 : (1 : BitVec 8).toNat = 1 := rfl
    simp only [crcPollRead, readTmp_pollC, BitVec.toNat_add, h1]; simp only [nCrcPoll] at hk; omega
  have ht : tick c (goTo (.crc .poll) s) = goTo
      (.crc (if crcDone c (crcPollRead c s).tmp || (crcPollRead c s).pollC.toNat == nCrcPoll then .resultLow else
      .poll)) (crcPollRead c s) := rfl
  induction k generalizing s with
  | zero =>
    refine .one hb (by simp [goTo]) ?_
    have e : crcPollLoop c 1 s = crcPollRead c s := by simp [crcPollLoop]
    have hq : ((crcPollRead c s).pollC.toNat == nCrcPoll) = true := by rw [hi]; simpa using hk
    rw [ht, hq, Bool.or_true, if_pos rfl, e]
  | succ k ih =>
    refine .trans (.one hb (by simp [goTo]) ht) ?_
    have hq : ((crcPollRead c s).pollC.toNat == nCrcPoll) = false := by rw [hi]; simpa using
        (by omega : ¬ s.pollC.toNat + 1 = nCrcPoll)
    rw [hq, Bool.or_false]
    rw [crcPollLoop]
    split
    · exact .refl _ _
    · have hi' : (crcPollRead c (crcPollRead c s)).pollC.toNat = (crcPollRead c s).pollC.toNat + 1 := by
        have h1 : (1 : BitVec 8).toNat = 1 := rfl
        rw [crcPollRead]
        simp only [readTmp_pollC, BitVec.toNat_add, h1]; simp only [nCrcPoll] at hk; omega
      exact ih (crcPollRead c s) (by simpa using hb) (by rw [hi]; omega) hi' rfl

/-- CRCCALC, tick by tick, up to what follows it. -/
theorem runs_crcCalc (s : State) (hb : s.busy = true) (hs : s.send.length ≤ sendCap) :
    RunsTo c (goTo (.crc .clearRead) s) (afterCrc (crcCalc c s)) := by
  have n1 : ∀ k, Phase.crc k ≠ .idle := fun k => by simp
  refine .trans (.one hb (n1 _) (t := goTo (.crc .clearWrite) (readTmp c c.aDivIrq s)) rfl) ?_
  refine .trans (.one (by simpa [goTo] using hb) (n1 _)
      (t := goTo (.crc .flushRead) (clrBits c c.aDivIrq c.mCrcDone.byte s)) rfl) ?_
  unfold crcCalc
  generalize h1 : clrBits c c.aDivIrq c.mCrcDone.byte s = s1
  have hb1 : s1.busy = true := by rw [← h1]; simpa using hb
  have hs1 : s1.send.length ≤ sendCap := by rw [← h1]; simpa using hs
  dsimp only
  refine .trans (.one hb1 (n1 _) (t := goTo (.crc .flushWrite) (readTmp c c.aFifoLevel s1)) rfl) ?_
  refine .trans (.one (by simpa [goTo] using hb1) (n1 _)
      (t := enterLoad (.crc .load) (.crc .command)
      (goTo (.crc .flushWrite) (setBits c c.aFifoLevel c.mFlush.byte s1))) rfl) ?_
  generalize h2 : setBits c c.aFifoLevel c.mFlush.byte s1 = s2
  have hb2 : s2.busy = true := by rw [← h2]; simpa using hb1
  have hs2 : s2.send.length ≤ sendCap := by rw [← h2]; simpa using hs1
  refine .trans (runs_loadFifo c _ _ (n1 _) (fun s h => by simp only [tick, h, tickCrc]) _ s2 hb2 hs2) ?_
  generalize h3 : loadFifo c s2 = s3
  have hb3 : s3.busy = true := by rw [← h3]; simpa using hb2
  refine .trans (.one hb3 (n1 _) (t := goTo (.crc .poll) (clearCrcPoll (wrReg c c.aCommand c.cmdCalcCrc s3))) rfl) ?_
  generalize h4 : wrReg c c.aCommand c.cmdCalcCrc s3 = s4
  have hb4 : s4.busy = true := by rw [← h4]; simpa using hb3
  refine .trans (runs_crcPoll c 254 (clearCrcPoll s4) hb4 rfl) ?_
  show RunsTo c (goTo _ (crcPoll c s4)) _
  generalize h5 : crcPoll c s4 = s5
  have hb5 : s5.busy = true := by rw [← h5]; simpa using hb4
  refine .trans (.one hb5 (n1 _) (t := goTo (.crc .resultHigh) (readCrcLow c s5)) rfl) ?_
  exact .one (by simpa [goTo] using hb5) (n1 _) rfl

/-- The transceive poll loop, tick by tick (rule R124). -/
theorem runs_trxPoll (x : Exchange) (k : Nat) (s : State) (hb : s.busy = true)
    (hk : s.pollT.toNat + (k + 1) = nTrxPoll) :
   RunsTo c (goTo (.trx x .poll) s) (goTo (.trx x .stopRead) (trxPollLoop c (k + 1) s)) := by
  have hi : (trxPollRead c s).pollT.toNat = s.pollT.toNat + 1 := by
    have h1 : (1 : BitVec 11).toNat = 1 := rfl
    simp only [trxPollRead, readTmp_pollT, BitVec.toNat_add, h1]; simp only [nTrxPoll] at hk; omega
  have ht : tick c (goTo (.trx x .poll) s) = goTo
      (.trx x (if (trxPollRead c s).seen || (trxPollRead c s).pollT.toNat == nTrxPoll then .stopRead else .poll))
      (trxPollRead c s) := rfl
  induction k generalizing s with
  | zero =>
    refine .one hb (by simp [goTo]) ?_
    have e : trxPollLoop c 1 s = trxPollRead c s := by simp [trxPollLoop]
    have hq : ((trxPollRead c s).pollT.toNat == nTrxPoll) = true := by rw [hi]; simpa using hk
    rw [ht, hq, Bool.or_true, if_pos rfl, e]
  | succ k ih =>
    refine .trans (.one hb (by simp [goTo]) ht) ?_
    have hq : ((trxPollRead c s).pollT.toNat == nTrxPoll) = false := by rw [hi]; simpa using
        (by omega : ¬ s.pollT.toNat + 1 = nTrxPoll)
    rw [hq, Bool.or_false]
    rw [trxPollLoop]
    split
    · exact .refl _ _
    · have hi' : (trxPollRead c (trxPollRead c s)).pollT.toNat = (trxPollRead c s).pollT.toNat + 1 := by
        have h1 : (1 : BitVec 11).toNat = 1 := rfl
        rw [trxPollRead]
        simp only [readTmp_pollT, BitVec.toNat_add, h1]; simp only [nTrxPoll] at hk; omega
      exact ih (trxPollRead c s) (by simpa using hb) (by rw [hi]; omega) hi' rfl

/-- The harvest loop, tick by tick (rule R130). -/
theorem runs_harvest (x : Exchange) (k : Nat) (s : State) (hb : s.busy = true)
    (hk : s.idx.toNat + (k + 1) = harvestCount s.n) :
   RunsTo c (goTo (.trx x .harvest) s) (afterTrx x (harvestLoop c (k + 1) s)) := by
  have hc : harvestCount s.n ≤ 16 := by unfold harvestCount recvCap; omega
  have hi : (harvestOne c s).idx.toNat = s.idx.toNat + 1 := by
    have h1 : (1 : BitVec 11).toNat = 1 := rfl
    simp only [harvestOne, BitVec.toNat_add, h1]; omega
  have ht : tick c (goTo (.trx x .harvest) s) = if (harvestOne c s).idx.toNat < harvestCount (harvestOne c s).n then
      goTo (.trx x .harvest) (harvestOne c s) else afterTrx x (goTo (.trx x .harvest) (harvestOne c s)) := rfl
  have hn : (harvestOne c s).n = s.n := by simp
  rw [afterTrx_goTo, hn] at ht
  induction k generalizing s with
  | zero =>
    refine .one hb (by simp [goTo]) ?_
    rw [ht, if_neg (by omega)]; rfl
  | succ k ih =>
    refine .trans (.one hb (by simp [goTo]) ht) ?_
    rw [if_pos (by omega)]
    have hi' : (harvestOne c (harvestOne c s)).idx.toNat = (harvestOne c s).idx.toNat + 1 := by
      have h1 : (1 : BitVec 11).toNat = 1 := rfl
      rw [harvestOne]
      simp only [BitVec.toNat_add, h1]; omega
    exact ih (harvestOne c s) (by simpa using hb) (by rw [hi, hn]; omega) (by rw [hn]; exact hc) hi' (by
      have e : tick c (goTo (.trx x .harvest) (harvestOne c s)) = if (harvestOne c (harvestOne c s)).idx.toNat <
          harvestCount (harvestOne c (harvestOne c s)).n then goTo (.trx x .harvest) (harvestOne c (harvestOne c s))
          else afterTrx x (goTo (.trx x .harvest) (harvestOne c (harvestOne c s))) := rfl
      rw [afterTrx_goTo] at e
      rw [e]; simp) (by simp)

theorem trxCommand_n {s t : State} (h : t.argA = s.argA) (x) : trxCommand c x t = trxCommand c x s := by
  cases x <;> simp [trxCommand, h]

/-- TRANSCV, tick by tick, up to what follows it. -/
theorem runs_transceive (x : Exchange) (s : State) (hb : s.busy = true) (hs : s.send.length ≤ sendCap) :
    RunsTo c (goTo (.trx x .enable) (clearResults s)) (afterTrx x (transceive c (trxCommand c x s) s)) := by
  have n1 : ∀ k, Phase.trx x k ≠ .idle := fun k => by simp
  unfold transceive
  have ha : (clearResults s).argA = s.argA := rfl
  rw [← trxCommand_n c ha x]
  generalize h0 : clearResults s = s0
  have hb0 : s0.busy = true := by rw [← h0]; simpa using hb
  have hs0 : s0.send.length ≤ sendCap := by rw [← h0]; simpa using hs
  unfold exchange
  dsimp only
  refine .trans (.one hb0 (n1 _) (t := goTo (.trx x .idle) (wrReg c c.aComIEn c.vIrqEn s0)) rfl) ?_
  refine .trans (.one (by simpa [goTo] using hb0) (n1 _)
      (t := goTo (.trx x .flushRead) (wrReg c c.aCommand c.cmdIdle (wrReg c c.aComIEn c.vIrqEn s0))) rfl) ?_
  rw [← trxCommand_n c (show (wrReg c c.aCommand c.cmdIdle (wrReg c c.aComIEn c.vIrqEn s0)).argA = s0.argA by simp) x]
  generalize h1 : wrReg c c.aCommand c.cmdIdle (wrReg c c.aComIEn c.vIrqEn s0) = s1
  have hb1 : s1.busy = true := by rw [← h1]; simpa using hb0
  have hs1 : s1.send.length ≤ sendCap := by rw [← h1]; simpa using hs0
  refine .trans (.one hb1 (n1 _) (t := goTo (.trx x .flushWrite) (readTmp c c.aFifoLevel s1)) rfl) ?_
  refine .trans (.one (by simpa [goTo] using hb1) (n1 _)
      (t := enterLoad (.trx x .load) (.trx x .command)
      (goTo (.trx x .flushWrite) (setBits c c.aFifoLevel c.mFlush.byte s1))) rfl) ?_
  rw [← trxCommand_n c (show (loadFifo c (setBits c c.aFifoLevel c.mFlush.byte s1)).argA = s1.argA by simp) x]
  generalize h2 : setBits c c.aFifoLevel c.mFlush.byte s1 = s2
  have hb2 : s2.busy = true := by rw [← h2]; simpa using hb1
  have hs2 : s2.send.length ≤ sendCap := by rw [← h2]; simpa using hs1
  refine .trans (runs_loadFifo c _ _ (n1 _) (fun s h => by simp only [tick, h, tickTrx]) _ s2 hb2 hs2) ?_
  generalize h3 : loadFifo c s2 = s3
  have hb3 : s3.busy = true := by rw [← h3]; simpa using hb2
  refine .trans (.one hb3 (n1 _) (t := goTo (.trx x .startRead) (wrReg c c.aCommand (trxCommand c x s3) s3))
      (by cases x <;> rfl)) ?_
  generalize h4 : wrReg c c.aCommand (trxCommand c x s3) s3 = s4
  have hb4 : s4.busy = true := by rw [← h4]; simpa using hb3
  refine .trans (.one hb4 (n1 _) (t := goTo (.trx x .startWrite) (readTmp c c.aBitFraming s4)) rfl) ?_
  refine .trans (.one (by simpa [goTo] using hb4) (n1 _)
      (t := goTo (.trx x .poll) (clearPoll (setBits c c.aBitFraming mStart s4))) rfl) ?_
  generalize h5 : setBits c c.aBitFraming mStart s4 = s5
  have hb5 : s5.busy = true := by rw [← h5]; simpa using hb4
  refine .trans (runs_trxPoll c x 1999 (clearPoll s5) hb5 rfl) ?_
  show RunsTo c (goTo _ (trxPoll c s5)) _
  generalize h6 : trxPoll c s5 = s6
  have hb6 : s6.busy = true := by rw [← h6]; simpa using hb5
  refine .trans (.one hb6 (n1 _) (t := goTo (.trx x .stopWrite) (readTmp c c.aBitFraming s6)) rfl) ?_
  refine .trans (.one (by simpa [goTo] using hb6) (n1 _)
      (t := if (clrBits c c.aBitFraming mStart s6).seen then goTo (.trx x .error) (clrBits c c.aBitFraming mStart s6)
      else afterTrx x (goTo (.trx x .stopWrite) (clrBits c c.aBitFraming mStart s6))) rfl) ?_
  rw [afterTrx_goTo]
  generalize h7 : clrBits c c.aBitFraming mStart s6 = s7
  have hb7 : s7.busy = true := by rw [← h7]; simpa using hb6
  unfold resolve
  dsimp only
  split
  case isFalse => exact .refl _ _
  refine .trans (.one hb7 (n1 _) (t := if hasError (readError c s7).err then afterTrx x
      (goTo (.trx x .error) (readError c s7)) else goTo (.trx x .level) (succeed (readError c s7))) rfl) ?_
  rw [afterTrx_goTo]
  generalize h8 : readError c s7 = s8
  have hb8 : s8.busy = true := by rw [← h8]; simpa using hb7
  split
  · exact .refl _ _
  unfold receive
  generalize h9 : succeed s8 = s9
  have hb9 : s9.busy = true := by rw [← h9]; simpa using hb8
  refine .trans (.one hb9 (n1 _) (t := goTo (.trx x .control) (readLevel c s9)) rfl) ?_
  refine .trans (.one (by simpa [goTo] using hb9) (n1 _)
      (t := if harvestCount (clearIdx (readControl c (readLevel c s9))).n = 0 then afterTrx x
      (goTo (.trx x .control) (clearIdx (readControl c (readLevel c s9)))) else goTo (.trx x .harvest)
      (clearIdx (readControl c (readLevel c s9)))) rfl) ?_
  rw [afterTrx_goTo]
  generalize h10 : readControl c (readLevel c s9) = s10
  have hb10 : s10.busy = true := by rw [← h10]; simpa using hb9
  unfold harvest
  split
  · rename_i hz
    have : harvestCount s10.n = 0 := hz
    rw [this]; exact .refl _ _
  · rename_i hz
    have hz' : ¬ harvestCount s10.n = 0 := hz
    obtain ⟨k, hk⟩ : ∃ k, harvestCount s10.n = k + 1 := ⟨harvestCount s10.n - 1, by omega⟩
    rw [hk]
    exact runs_harvest c x k (clearIdx s10) hb10 (by simp [hk])
end

/-! ## Operations, tick by tick -/

section
variable (c : Cfg)

theorem runs_eq {s : State} {i : Instr} {j : Instr} (h : s.opc = i.opcode) : s.runs j = (i.opcode == j.opcode) := by
  simp [State.runs, h]

/-- A page access, tick by tick, up to what follows it. -/
theorem runs_sendWithCrc (s : State) (hb : s.busy = true) (hs : s.send.length ≤ 6)
    (ho : s.opc ≠ (Instr.crccalc []).opcode) :
    RunsTo c (enterCrc s) (afterTrx .page (sendWithCrc c s)) := by
  refine .trans (runs_crcCalc c s hb (le_trans hs (by decide))) ?_
  unfold afterCrc
  rw [if_neg (by simpa [State.runs] using ho)]
  have := runs_transceive c .page (appendCrc (crcCalc c s)) (by simpa using hb) (by simp [sendCap]; omega)
  exact this

/-- REQPRES, tick by tick, up to what follows it. -/
theorem runs_reqPres (s : State) (hb : s.busy = true) :
    RunsTo c (goTo .framing7 s) (afterTrx .request (reqPres c (presenceMode s) s)) := by
  refine .trans (.one hb (by simp [goTo])
      (t := goTo (.trx .request .enable)
      (clearResults (requestFrame (presenceMode s) (wrReg c c.aBitFraming vFrame7 s)))) rfl) ?_
  exact runs_transceive c .request (requestFrame (presenceMode s) (wrReg c c.aBitFraming vFrame7 s))
      (by simpa using hb) (by simp [sendCap])

/-- ANTICOLL, tick by tick, up to what follows it. -/
theorem runs_antiColl (s : State) (hb : s.busy = true) :
    RunsTo c (goTo .framing8 s) (afterTrx .anticoll (antiColl c s)) := by
  refine .trans (.one hb (by simp [goTo])
      (t := goTo (.trx .anticoll .enable) (clearResults (anticollFrame (wrReg c c.aBitFraming vFrame8 s)))) rfl) ?_
  exact runs_transceive c .anticoll (anticollFrame (wrReg c c.aBitFraming vFrame8 s)) (by simpa using hb)
      (by decide : 2 ≤ 255)

/-- A session, tick by tick: the gate, and after a passed gate what `pages` does. -/
theorem runs_session (i : Instr) (pages : State → State) (s : State) (hb : s.busy = true) (ho : s.opc = i.opcode)
    (hi : i = .rdtext ∨ ∃ t, i = .wrtext t)
    (hp : (gate c s).status = statusOk → RunsTo c (enterPages (gate c s)) (pages (gate c s))) :
    RunsTo c (goTo .framing7 s) (session c pages s) := by
  have hm : presenceMode s = airReqIdle := by
    unfold presenceMode; rw [runs_eq ho]
    rcases hi with rfl | ⟨t, rfl⟩ <;> rfl
  have h1 := runs_reqPres c s hb
  rw [hm] at h1
  refine .trans h1 ?_
  have hr : ∀ g : State, g.opc = s.opc → g.runs (.reqpres 0) = false ∧ g.runs .anticoll = false := by
    intro g hg
    rw [runs_eq (hg.trans ho), runs_eq (hg.trans ho)]
    rcases hi with rfl | ⟨t, rfl⟩ <;> exact ⟨rfl, rfl⟩
  unfold session
  unfold gate at hp ⊢
  dsimp only at hp ⊢
  simp only [afterTrx]
  rw [if_neg (by rw [(hr _ (by simp)).1]; simp)]
  by_cases hst : (reqPres c airReqIdle s).status = statusOk
  · rw [if_pos hst] at hp ⊢
    simp only [hst, if_true]
    refine .trans (runs_antiColl c _ (by simpa using hb)) ?_
    simp only [afterTrx]
    rw [if_neg (by rw [(hr _ (by simp)).2]; simp)]
    by_cases hst2 : (antiColl c (reqPres c airReqIdle s)).status = statusOk
    · rw [if_pos hst2, if_pos hst2]; exact hp hst2
    · rw [if_neg hst2, if_neg hst2]; exact .refl _ _
  · rw [if_neg hst]
    simp only [hst, if_false]; exact .refl _ _

/-- The page loop of RDTEXT, tick by tick. -/
theorem runs_readWindow (s : State) (hb : s.busy = true) (ho : s.opc = Instr.rdtext.opcode) : RunsTo c (enterPages s)
    (readWindow c s) := by
  have step : ∀ (p : Byte) (X : State), X.busy = true → X.opc = Instr.rdtext.opcode →
     RunsTo c (enterCrc (readFrame p { X with page := p })) (afterReadPage (rdPage c p { X with page := p })) := by
    intro p X hX hoX
    have h := runs_sendWithCrc c (readFrame p { X with page := p }) hX (by simp [readFrame])
        (by show X.opc ≠ _; rw [hoX]; decide)
    refine h.trans ?_
    have ho2 : (rdPage c p { X with page := p }).opc = Instr.rdtext.opcode := by simp [rdPage, hoX]
    simp only [afterTrx]
    have e : ∀ (j : Instr), (sendWithCrc c (readFrame p { X with page := p })).runs j =
        (Instr.rdtext.opcode == j.opcode) := fun j => runs_eq ho2
    rw [e, e, e]
    exact .refl _ _
  unfold enterPages
  rw [if_pos (by rw [runs_eq ho]; rfl)]
  refine (step 4#8 (clearOut s) hb ho).trans ?_
  unfold afterReadPage readWindow
  simp only [readPages]
  generalize h4 : appendPage (rdPage c 4#8 { clearOut s with page := 4#8 }) = s4
  have b4 : s4.busy = true := by rw [← h4]; simpa [rdPage] using hb
  have o4 : s4.opc = Instr.rdtext.opcode := by rw [← h4]; simpa [rdPage] using ho
  have p4 : s4.page = 4#8 := by rw [← h4]; simp [rdPage]
  rw [if_neg (by rw [p4]; decide)]
  have n4 : nextPage s4 = { s4 with page := 5#8 } := by unfold nextPage; rw [p4]; rfl
  rw [n4]
  refine (step 5#8 s4 b4 o4).trans ?_
  unfold afterReadPage
  generalize h5 : appendPage (rdPage c 5#8 { s4 with page := 5#8 }) = s5
  have b5 : s5.busy = true := by rw [← h5]; simpa [rdPage] using b4
  have o5 : s5.opc = Instr.rdtext.opcode := by rw [← h5]; simpa [rdPage] using o4
  have p5 : s5.page = 5#8 := by rw [← h5]; simp [rdPage]
  dsimp only
  rw [if_neg (by rw [p5]; decide)]
  have n5 : nextPage s5 = { s5 with page := 6#8 } := by unfold nextPage; rw [p5]; rfl
  rw [n5]
  refine (step 6#8 s5 b5 o5).trans ?_
  unfold afterReadPage
  generalize h6 : appendPage (rdPage c 6#8 { s5 with page := 6#8 }) = s6
  have b6 : s6.busy = true := by rw [← h6]; simpa [rdPage] using b5
  have o6 : s6.opc = Instr.rdtext.opcode := by rw [← h6]; simpa [rdPage] using o5
  have p6 : s6.page = 6#8 := by rw [← h6]; simp [rdPage]
  dsimp only
  rw [if_neg (by rw [p6]; decide)]
  have n6 : nextPage s6 = { s6 with page := 7#8 } := by unfold nextPage; rw [p6]; rfl
  rw [n6]
  refine (step 7#8 s6 b6 o6).trans ?_
  unfold afterReadPage
  generalize h7 : appendPage (rdPage c 7#8 { s6 with page := 7#8 }) = s7
  have p7 : s7.page = 7#8 := by rw [← h7]; simp [rdPage]
  have : s7.page = pageLastRead := p7
  dsimp only
  rw [if_pos this]
  exact .refl _ _

/-- The chunk loop of WRTEXT, tick by tick. -/
theorem runs_writeChunks (t : List Byte) (k : Nat) (s : State) (hb : s.busy = true)
    (ho : s.opc = (Instr.wrtext t).opcode)
   (h4 : 4 ≤ s.page.toNat) (hl : s.text.length ≤ 1008) (hk : 4 * (s.page.toNat - 4) + 4 * (k + 1) = s.text.length) :
   RunsTo c (enterCrc (chunkFrame s)) (finish (.written 1) (writeChunks c (k + 1) s)) := by
  have hst : RunsTo c (enterCrc (chunkFrame s)) (afterWritePage (writeChunk c s)) := by
    have h := runs_sendWithCrc c (chunkFrame s) hb (by simp [chunkFrame])
        (by show s.opc ≠ _; rw [ho]; simp [Instr.opcode])
    refine h.trans ?_
    have ho2 : (writeChunk c s).opc = (Instr.wrtext t).opcode := by simp [writeChunk, chunkFrame, ho]
    simp only [afterTrx]
    have e : ∀ (j : Instr), (sendWithCrc c (chunkFrame s)).runs j = ((Instr.wrtext t).opcode == j.opcode) := fun j =>
        runs_eq ho2
    rw [e, e, e]
    exact .refl _ _
  have hp : (writeChunk c s).page = s.page := by simp [writeChunk, chunkFrame]
  have ht : (writeChunk c s).text = s.text := by simp [writeChunk, chunkFrame]
  refine hst.trans ?_
  clear hst
  unfold afterWritePage
  have hci : chunkIndex (writeChunk c s) = 4 * (s.page.toNat - 4) := by unfold chunkIndex; rw [hp]; rfl
  rw [hci, ht]
  have h1 : (1 : BitVec 8).toNat = 1 := rfl
  induction k generalizing s with
  | zero =>
    rw [if_neg (by simp only [pageBytes]; omega)]
    exact .refl _ _
  | succ k ih =>
    rw [if_pos (by simp only [pageBytes]; omega)]
    generalize hs' : nextPage (writeChunk c s) = s'
    have hpg : s'.page.toNat = s.page.toNat + 1 := by
      rw [← hs', nextPage_page, BitVec.toNat_add, hp, h1]; omega
    have htx : s'.text = s.text := by rw [← hs']; simp [writeChunk, chunkFrame]
    have hb' : s'.busy = true := by rw [← hs']; simpa [writeChunk, chunkFrame] using hb
    have ho' : s'.opc = (Instr.wrtext t).opcode := by rw [← hs']; simpa [writeChunk, chunkFrame] using ho
    have hst : RunsTo c (enterCrc (chunkFrame s')) (afterWritePage (writeChunk c s')) := by
      have h := runs_sendWithCrc c (chunkFrame s') hb' (by simp [chunkFrame])
          (by show s'.opc ≠ _; rw [ho']; simp [Instr.opcode])
      refine h.trans ?_
      have ho2 : (writeChunk c s').opc = (Instr.wrtext t).opcode := by simp [writeChunk, chunkFrame, ho']
      simp only [afterTrx]
      have e : ∀ (j : Instr), (sendWithCrc c (chunkFrame s')).runs j = ((Instr.wrtext t).opcode == j.opcode) := fun j
          => runs_eq ho2
      rw [e, e, e]
      exact .refl _ _
    have hp' : (writeChunk c s').page = s'.page := by simp [writeChunk, chunkFrame]
    have ht' : (writeChunk c s').text = s'.text := by simp [writeChunk, chunkFrame]
    have hci' : chunkIndex (writeChunk c s') = 4 * (s'.page.toNat - 4) := by unfold chunkIndex; rw [hp']; rfl
    refine hst.trans ?_
    unfold afterWritePage
    rw [hci', ht']
    have hw : writeChunks c (k + 1 + 1) s = writeChunks c (k + 1) s' := by rw [← hs']; rfl
    rw [hw]
    exact ih s' hb' ho' (by omega) (by rw [htx]; exact hl) (by rw [htx]; omega) hp' ht' hci'

/-- WRTEXT after a passed gate, tick by tick. -/
theorem runs_writeText (t : List Byte) (s : State) (hb : s.busy = true) (ho : s.opc = (Instr.wrtext t).opcode)
    (hl : s.text.length ≤ 1008) :
    RunsTo c (enterPages s) (writeText c s) := by
  have hpl := padText_length s.text
  have hbt : (beginChunks s).text = padText s.text := rfl
  unfold enterPages writeText
  rw [if_neg (by rw [runs_eq ho]; simp [Instr.opcode])]
  dsimp only
  by_cases h : (beginChunks s).text = []
  · rw [if_pos h, h]; exact .refl _ _
  · rw [if_neg h]
    have hpos := List.length_pos_of_ne_nil h
    rw [hbt] at hpos
    obtain ⟨k, hk⟩ : ∃ k, (beginChunks s).text.length / pageBytes = k + 1 :=
        ⟨(beginChunks s).text.length / pageBytes - 1, by
      rw [hbt]; simp only [pageBytes]; omega⟩
    rw [hk]
    rw [hbt] at hk; simp only [pageBytes] at hk
    refine runs_writeChunks c t k (beginChunks s) hb ho (by show 4 ≤ (4#8 : Byte).toNat; decide) (by rw [hbt]; omega) ?_
    have : (beginChunks s).page.toNat = 4 := rfl
    rw [this, hbt]; omega

/-- Every operation, tick by tick, from its first transaction to its end. -/
theorem runs_operate (i : Instr) (s : State) (hw : i.wellFormed = true) :
    RunsTo c (startOp i s) (operate c i s) := by
  cases i with
  | init => exact .one rfl (by show Phase.softReset ≠ .idle; decide) rfl
  | wrreg a v => exact .one rfl (by show Phase.regWrite ≠ .idle; decide) rfl
  | rdreg a => exact .one rfl (by show Phase.regRead ≠ .idle; decide) rfl
  | crccalc d =>
    simp only [Instr.wellFormed, decide_eq_true_eq] at hw
    have h := runs_crcCalc c (accept (.crccalc d) s) rfl hw
    have ho : (crcCalc c (accept (.crccalc d) s)).opc = (Instr.crccalc d).opcode := by simp; rfl
    unfold afterCrc at h
    rw [if_pos (by exact (runs_eq ho).trans rfl)] at h
    exact h
  | transcv cmd d =>
    simp only [Instr.wellFormed, decide_eq_true_eq] at hw
    exact runs_transceive c .host (accept (.transcv cmd d) s) rfl hw
  | reqpres m =>
    have h := runs_reqPres c (accept (.reqpres m) s) rfl
    have ho : (reqPres c (presenceMode (accept (.reqpres m) s)) (accept (.reqpres m) s)).opc =
        (Instr.reqpres m).opcode := by simp; rfl
    simp only [afterTrx] at h
    rw [if_pos (by exact (runs_eq ho).trans rfl)] at h
    exact h
  | anticoll =>
    have h := runs_antiColl c (accept .anticoll s) rfl
    have ho : (antiColl c (accept .anticoll s)).opc = Instr.anticoll.opcode := by simp; rfl
    simp only [afterTrx] at h
    rw [if_pos (by exact (runs_eq ho).trans rfl)] at h
    exact h
  | rdpage p =>
    have h := runs_sendWithCrc c (readFrame p (accept (.rdpage p) s)) rfl (by simp) (by show (7#8 : Byte) ≠ 3#8; decide)
    refine h.trans ?_
    have ho2 : (rdPage c p (accept (.rdpage p) s)).opc = (Instr.rdpage p).opcode := by simp [rdPage]; rfl
    simp only [afterTrx]
    rw [if_pos (by exact (runs_eq ho2).trans rfl)]
    exact .refl _ _
  | wrpage p b0 b1 b2 b3 =>
    have h := runs_sendWithCrc c (writeFrame p (operandPage (accept (.wrpage p b0 b1 b2 b3) s))
        (accept (.wrpage p b0 b1 b2 b3) s)) rfl (by simp) (by show (8#8 : Byte) ≠ 3#8; decide)
    refine h.trans ?_
    have ho2 : (wrPage c p (operandPage (accept (.wrpage p b0 b1 b2 b3) s)) (accept (.wrpage p b0 b1 b2 b3) s)).opc =
        (Instr.wrpage p b0 b1 b2 b3).opcode := by simp [wrPage]; rfl
    simp only [afterTrx]
    rw [if_neg (by rw [show (sendWithCrc c
        (writeFrame p (operandPage (accept (.wrpage p b0 b1 b2 b3) s)) (accept (.wrpage p b0 b1 b2 b3) s))).runs
        (.rdpage 0) = _ from runs_eq ho2]; simp [Instr.opcode])]
    rw [if_pos (by exact (runs_eq ho2).trans (by simp [Instr.opcode]))]
    exact .refl _ _
  | rdtext =>
    exact runs_session c .rdtext (readWindow c) (accept .rdtext s) rfl rfl (.inl rfl)
        (fun _ => runs_readWindow c _ (by rw [gate_busy]; rfl) (by rw [gate_opc]; rfl))
  | wrtext t =>
    simp only [Instr.wellFormed, decide_eq_true_eq, textMax] at hw
    exact runs_session c (.wrtext t) (writeText c) (accept (.wrtext t) s) rfl rfl (.inr ⟨t, rfl⟩)
        (fun _ => runs_writeText c t _ (by rw [gate_busy]; rfl) (by rw [gate_opc]; rfl) (by rw [gate_text]; exact hw))
end

/-- Ticks are cycles, with `BUSY` = 1 before each. -/
theorem Runs.cycles {c s t n} (h : Runs c s t n) : (cycle c)^[n] s = t ∧ ∀ k < n, ((cycle c)^[k] s).busy = true := by
  induction h with
  | nil s => exact ⟨rfl, fun k hk => by omega⟩
  | cons hb hp h ih =>
    rename_i s t n
    have e : cycle c s = tick c s := by simp [cycle, hb]
    refine ⟨by rw [Function.iterate_succ_apply, e]; exact ih.1, fun k hk => ?_⟩
    cases k with
    | zero => exact hb
    | succ k => rw [Function.iterate_succ_apply, e]; exact ih.2 k (by omega)

/-- Ticks are transactions, one each. -/
theorem Runs.transactions {c s t n} (h : Runs c s t n) : ∃ xs, t.bus = s.bus ++ wires c xs ∧ xs.length = n := by
  induction h with
  | nil s => exact ⟨[], by simp, rfl⟩
  | cons hb hp h ih =>
    obtain ⟨xs, h1, h2⟩ := ih
    rename_i s t n
    rcases (tick_oneXact c s hp).2 with ⟨a, v, d⟩ | ⟨a, d⟩
    · exact ⟨.write a v :: xs, by rw [h1, d.bus]; simp, by simp [h2]⟩
    · exact ⟨.read a (s.answer 0) :: xs, by rw [h1, d.bus]; simp, by simp [h2]⟩

theorem wires_length (c : Cfg) (xs : List Xact) : (wires c xs).length = 4 * xs.length := by
  induction xs with
  | nil => rfl
  | cons x xs ih => rw [wires_cons, List.length_append, ih, List.length_cons]; cases x <;> simp [Xact.wire] <;> omega


end Sys2Proof.Machine
end

