-- ==== Sys2Proof/Laws/Invariant.lean ====
section
/-!
SUPPORT. A tick and an acceptance keep the invariant of the block.
-/

namespace Sys2Proof.Machine

/-- The part of the invariant that does not speak of `PHASE`. -/
structure CoreInv (s : State) : Prop where
  csReleased : s.cs = false
  statusRange : s.status = statusOk ∨ s.status = statusErr
  failedEmpty : s.status = statusErr → s.recv = [] ∧ s.vbc = 0
  vbcRange : -7 ≤ s.vbc.toInt ∧ s.vbc.toInt ≤ 2040
  pollRange : s.pollT.toNat ≤ nTrxPoll
  sendFits : s.send.length ≤ sendCap
  recvFits : s.recv.length ≤ recvCap
  outFits : s.out.length ≤ 16 ∧ s.out.length % 4 = 0
  textFits : s.text.length ≤ textMax

/-- The part of the invariant about the pages of a session. -/
structure PageWindows (s : State) : Prop where
  rd : s.opc = 0x09#8 → 4 ≤ s.page.toNat ∧ s.page.toNat ≤ 7 ∧ s.out.length ≤ 4 * (s.page.toNat - 4)
  wr : s.opc = 0x0A#8 → 4 ≤ s.page.toNat ∧ chunkIndex s + 4 ≤ s.text.length ∧ s.text.length % 4 = 0

theorem BlockInv.base {s} (h : BlockInv s) : CoreInv s :=
    ⟨h.csReleased, h.statusRange, h.failedEmpty, h.vbcRange, h.pollRange, h.sendFits, h.recvFits, h.outFits,
    h.textFits⟩
theorem BlockInv.win {s} (h : BlockInv s) (hp : inPageAccess s.phase = true) : PageWindows s :=
    ⟨fun o => h.readWindow o hp, fun o => h.writeWindow o hp⟩

theorem blockInv_of {s : State} (b : CoreInv s) (busy : s.busy = true ↔ s.phase ≠ .idle)
    (own : phaseFits s.opc s.phase = true)
   (needs : phaseInv s s.phase) (head : (∃ k, s.phase = .crc k) → s.opc ≠ 0x03#8 → s.send.length ≤ 6)
   (win : inPageAccess s.phase = true → PageWindows s) : BlockInv s :=
  ⟨b.csReleased, busy, own, needs, b.statusRange, b.failedEmpty, b.vbcRange, b.pollRange, b.sendFits, b.recvFits,
      b.outFits, b.textFits, head,
   fun o h => (win h).rd o, fun o h => (win h).wr o⟩

theorem finish_inv {s : State} (b : CoreInv s) (r : Response) : BlockInv (finish r s) :=
  blockInv_of (s := finish r s) ⟨b.1, b.2, b.3, b.4, b.5, b.6, b.7, b.8, b.9⟩ (by simp [finish])
      (by simp [finish, phaseFits]) (by simp [finish, phaseInv])
    (by simp [finish]) (by simp [finish, inPageAccess])

theorem vbc_zero_range : -7 ≤ (0 : BitVec 12).toInt ∧ (0 : BitVec 12).toInt ≤ 2040 := by decide

theorem enterTrx_inv {s : State} (x : Exchange) (b : CoreInv s) (hb : s.busy = true)
    (own : phaseFits s.opc (.trx x .enable) = true)
   (win : x = .page → PageWindows s) : BlockInv (enterTrx x s) := by
  refine blockInv_of (s := enterTrx x s)
      ⟨b.1, .inr rfl, fun _ => ⟨rfl, rfl⟩, vbc_zero_range, b.5, b.6, by simp [enterTrx, goTo], b.8, b.9⟩ ?_ own ?_ ?_
      ?_
  · simp [enterTrx, goTo, hb]
  · exact ⟨rfl, rfl, rfl⟩
  · rintro ⟨k, hk⟩; simp [enterTrx, goTo] at hk
  · intro h
    cases x <;> simp [enterTrx, goTo, inPageAccess] at h
    exact ⟨(win rfl).1, (win rfl).2⟩

theorem enterCrc_inv {s : State} (b : CoreInv s) (hb : s.busy = true) (own : phaseFits s.opc (.crc .clearRead) = true)
   (hs : s.opc ≠ 0x03#8 → s.send.length ≤ 6) (win : PageWindows s) : BlockInv (enterCrc s) :=
  blockInv_of (s := enterCrc s) ⟨b.1, b.2, b.3, b.4, b.5, b.6, b.7, b.8, b.9⟩ (by simp [enterCrc, goTo, hb]) own
      (by simp [enterCrc, goTo, phaseInv])
    (fun _ h => hs h) (fun _ => ⟨win.1, win.2⟩)

theorem CoreInv.send6 {s t : State} (b : CoreInv s) (h1 : t.cs = s.cs) (h2 : t.status = s.status)
    (h3 : t.recv = s.recv) (h4 : t.vbc = s.vbc) (h5 : t.pollT = s.pollT)
   (h6 : t.send.length ≤ 255) (h7 : t.out.length ≤ 16 ∧ t.out.length % 4 = 0) (h8 : t.text.length ≤ 1008) : CoreInv t :=
  ⟨h1 ▸ b.1, h2 ▸ b.2, by rw [h2, h3, h4]; exact b.3, by rw [h4]; exact b.4, by rw [h5]; exact b.5, h6,
    by rw [h3]; exact b.7, h7, h8⟩

theorem runs_iff (s : State) (j : Instr) : s.runs j = true ↔ s.opc = j.opcode := by simp [State.runs]

theorem opc_of_session {s : State} (h : phaseFits s.opc (.trx .page .enable) = true)
    (h1 : ¬ s.runs (.rdpage 0) = true) (h2 : ¬ s.runs (.wrpage 0 0 0 0 0) = true) (h3 : ¬ s.runs .rdtext = true) :
    s.opc = 0x0A#8 := by
  rw [runs_iff] at h1 h2 h3
  simp only [phaseFits, Bool.or_eq_true, beq_iff_eq] at h
  simp only [Instr.opcode] at h1 h2 h3
  tauto

theorem pageBytes_length (a b) : (PageData.bytes (pageData a b)).length = 0 ∨ (PageData.bytes (pageData a b)).length =
    4 := by
  cases pageData a b <;> simp [PageData.bytes]

/-- What follows an exchange keeps the invariant. -/
theorem afterTrx_inv {s : State} (x : Exchange) (b : CoreInv s) (hb : s.busy = true)
    (own : phaseFits s.opc (.trx x .enable) = true)
   (win : x = .page → PageWindows s) : BlockInv (afterTrx x s) := by
  have hl1 : (1 : BitVec 8).toNat = 1 := rfl
  cases x with
  | host => exact finish_inv b _
  | request =>
    simp only [afterTrx]
    split
    · exact finish_inv b _
    · rename_i h1
      split
      · refine blockInv_of (s := goTo .framing8 s) ⟨b.1, b.2, b.3, b.4, b.5, b.6, b.7, b.8, b.9⟩ (by simp [goTo, hb])
            ?_ (by simp [goTo, phaseInv]) (by simp [goTo]) (by simp [goTo, inPageAccess])
        rw [runs_iff] at h1
        simp only [phaseFits, Bool.or_eq_true, beq_iff_eq] at own
        simp only [Instr.opcode] at h1
        simp only [goTo, phaseFits, Bool.or_eq_true, beq_iff_eq]; tauto
      · exact finish_inv b _
  | anticoll =>
    simp only [afterTrx]
    split
    · exact finish_inv b _
    · rename_i h1
      split
      · rw [runs_iff] at h1
        simp only [phaseFits, Bool.or_eq_true, beq_iff_eq] at own
        simp only [Instr.opcode] at h1
        unfold enterPages
        dsimp only
        split
        · rename_i h2
          rw [runs_iff] at h2; simp only [Instr.opcode] at h2
          refine enterCrc_inv ?_ hb (by simp [readFrame, clearOut, phaseFits, h2]) (by simp [readFrame])
              ⟨fun _ => ?_, fun h => ?_⟩
          · exact b.send6 rfl rfl rfl rfl rfl (by simp [readFrame]) (by simp [readFrame, clearOut]) b.textFits
          · simp [readFrame, clearOut, pageFirst]
          · simp [readFrame, clearOut, h2] at h
        · rename_i h2
          rw [runs_iff] at h2; simp only [Instr.opcode] at h2
          have h3 : s.opc = 0x0A#8 := by tauto
          have hp := padText_length s.text
          have htf := b.textFits
          simp only [textMax] at htf
          have bb : CoreInv (beginChunks s) := b.send6 rfl rfl rfl rfl rfl b.sendFits b.outFits
              (by rw [beginChunks_text]; omega)
          split
          · exact finish_inv bb _
          · rename_i hne
            have hpos := List.length_pos_of_ne_nil hne
            refine enterCrc_inv (bb.send6 rfl rfl rfl rfl rfl (by simp [chunkFrame]) bb.outFits bb.textFits) hb ?_
                (by simp [chunkFrame]) ⟨fun h => ?_, fun _ => ?_⟩
            · show phaseFits s.opc _ = true
              simp [phaseFits, h3]
            · have : s.opc = 9#8 := h
              rw [h3] at this; exact absurd this (by decide)
            · have e1 : (chunkFrame (beginChunks s)).page = 4#8 := rfl
              have e2 : (chunkFrame (beginChunks s)).text = padText s.text := rfl
              rw [beginChunks_text] at hpos
              unfold chunkIndex
              rw [e1, e2]
              refine ⟨by decide, ?_, hp.1⟩
              have : pageBytes * ((4#8 : Byte).toNat - pageFirst.toNat) = 0 := by decide
              rw [this]; omega
      · exact finish_inv b _
  | page =>
    simp only [afterTrx]
    split
    · exact finish_inv b _
    split
    · exact finish_inv b _
    rename_i h1 h2
    have w := win rfl
    split
    · rename_i h3
      rw [runs_iff] at h3; simp only [Instr.opcode] at h3
      obtain ⟨l1, l2, l3⟩ := w.rd h3
      have ho : (appendPage s).out.length ≤ 4 * (s.page.toNat - 3) ∧ (appendPage s).out.length % 4 = 0 := by
        rw [appendPage_out, List.length_append]
        have := b.outFits
        rcases pageBytes_length s.status s.recv with h | h <;> rw [h] <;> omega
      have bb : CoreInv (appendPage s) := b.send6 rfl rfl rfl rfl rfl b.sendFits (by omega) b.textFits
      unfold afterReadPage
      dsimp only
      split
      · exact finish_inv bb _
      · rename_i hne
        have hne' : s.page.toNat ≠ 7 := fun h => hne (BitVec.eq_of_toNat_eq h)
        have hpg : (nextPage (appendPage s)).page.toNat = s.page.toNat + 1 := by
          show (s.page + 1).toNat = _
          rw [BitVec.toNat_add, hl1]; omega
        refine enterCrc_inv (bb.send6 rfl rfl rfl rfl rfl (by simp [readFrame]) bb.outFits bb.textFits) hb
            (by show phaseFits s.opc _ = true; simp [phaseFits, h3]) (by simp [readFrame]) ⟨fun _ => ?_, fun h => ?_⟩
        · show 4 ≤ (nextPage (appendPage s)).page.toNat ∧ (nextPage (appendPage s)).page.toNat ≤ 7 ∧
              (appendPage s).out.length ≤ 4 * ((nextPage (appendPage s)).page.toNat - 4)
          rw [hpg]; omega
        · have : s.opc = 10#8 := h
          rw [h3] at this; exact absurd this (by decide)
    · rename_i h3
      have h4 := opc_of_session own h1 h2 h3
      obtain ⟨l1, l2, l3⟩ := w.wr h4
      unfold afterWritePage
      split
      · rename_i hlt
        have htf := b.textFits
        simp only [textMax] at htf
        have hpf : pageFirst.toNat = 4 := rfl
        simp only [chunkIndex, pageBytes, hpf] at hlt l2
        have hpg : (nextPage s).page.toNat = s.page.toNat + 1 := by
          show (s.page + 1).toNat = _
          rw [BitVec.toNat_add, hl1]; omega
        refine enterCrc_inv (b.send6 rfl rfl rfl rfl rfl (by simp [chunkFrame]) b.outFits b.textFits) hb
            (by show phaseFits s.opc _ = true; simp [phaseFits, h4]) (by simp [chunkFrame]) ⟨fun h => ?_, fun _ => ?_⟩
        · have : s.opc = 9#8 := h
          rw [h4] at this; exact absurd this (by decide)
        · show 4 ≤ (nextPage s).page.toNat ∧ 4 * ((nextPage s).page.toNat - 4) + 4 ≤ s.text.length ∧ s.text.length % 4
              = 0
          rw [hpg]; omega
      · exact finish_inv (s := nextPage s) (b.send6 rfl rfl rfl rfl rfl b.sendFits b.outFits b.textFits) _

/-- From `s` to `t` no register the invariant speaks of has changed, and chip-select is released. -/
structure Keeps (s t : State) : Prop where
  cs : t.cs = false
  busy : t.busy = s.busy
  opc : t.opc = s.opc
  send : t.send = s.send
  out : t.out = s.out
  text : t.text = s.text
  page : t.page = s.page
  status : t.status = s.status
  recv : t.recv = s.recv
  vbc : t.vbc = s.vbc
  pollT : t.pollT = s.pollT

theorem Keeps.base {s t} (k : Keeps s t) (b : CoreInv s) : CoreInv t :=
  ⟨k.cs, by rw [k.status]; exact b.2, by rw [k.status, k.recv, k.vbc]; exact b.3, by rw [k.vbc]; exact b.4,
    by rw [k.pollT]; exact b.5,
   by rw [k.send]; exact b.6, by rw [k.recv]; exact b.7, by rw [k.out]; exact b.8, by rw [k.text]; exact b.9⟩

theorem PageWindows.of {s t : State} (w : PageWindows s) (h1 : t.opc = s.opc) (h2 : t.page = s.page)
    (h3 : t.out = s.out) (h4 : t.text = s.text) : PageWindows t := by
  refine ⟨by rw [h1, h2, h3]; exact w.1, ?_⟩
  have : chunkIndex t = chunkIndex s := by unfold chunkIndex; rw [h2]
  rw [h1, h2, this, h4]; exact w.2

theorem wrReg_keeps (c a v s) : Keeps s (wrReg c a v s) := by constructor <;> simp
theorem rdReg_keeps (c a s) : Keeps s (rdReg c a s).2 := by constructor <;> simp
theorem readTmp_keeps (c a s) : Keeps s (readTmp c a s) := by constructor <;> simp
theorem readCrcLow_keeps (c s) : Keeps s (readCrcLow c s) := by constructor <;> simp [readCrcLow]
theorem readCrcHigh_keeps (c s) : Keeps s (readCrcHigh c s) := by constructor <;> simp [readCrcHigh]
theorem crcPollRead_keeps (c s) : Keeps s (crcPollRead c s) := by constructor <;> simp [crcPollRead]
theorem loadOne_keeps (c s) : Keeps s (loadOne c s) := by constructor <;> simp [loadOne]
theorem writeSet_keeps (c a m s) : Keeps s (writeSet c a m s) := wrReg_keeps ..
theorem writeClear_keeps (c a m s) : Keeps s (writeClear c a m s) := wrReg_keeps ..
theorem readError_keeps (c s) : Keeps s (readError c s) := by constructor <;> simp [readError]
theorem readLevel_keeps (c s) : Keeps s (readLevel c s) := by constructor <;> simp [readLevel]

theorem goTo_inv {s t : State} (p : Phase) (i : BlockInv s) (hb : s.busy = true) (b : CoreInv t)
    (hbt : t.busy = s.busy) (ho : t.opc = s.opc)
   (hsend : t.send = s.send) (hout : t.out = s.out) (htext : t.text = s.text) (hpage : t.page = s.page)
   (hp : p ≠ .idle) (own : phaseFits s.opc s.phase = phaseFits s.opc p) (needs : phaseInv (goTo p t) p)
   (hc : (∃ k, p = .crc k) → ∃ k, s.phase = .crc k) (hw : inPageAccess p = true → inPageAccess s.phase = true) :
       BlockInv (goTo p t) := by
  refine blockInv_of (s := goTo p t) ⟨b.1, b.2, b.3, b.4, b.5, b.6, b.7, b.8, b.9⟩ ?_ ?_ needs ?_ ?_
  · simp [goTo, hbt, hb, hp]
  · show phaseFits t.opc p = true
    rw [ho, ← own]; exact i.phaseOwner
  · rintro ⟨k, hk⟩ h
    show t.send.length ≤ 6
    rw [hsend]
    exact i.frameHead (hc ⟨k, hk⟩) (by rw [← ho]; exact h)
  · intro h
    exact (i.win (hw h)).of ho hpage hout htext

theorem keeps_inv {s t : State} (p : Phase) (i : BlockInv s) (hb : s.busy = true) (k : Keeps s t)
   (hp : p ≠ .idle) (own : phaseFits s.opc s.phase = phaseFits s.opc p) (needs : phaseInv (goTo p t) p)
   (hc : (∃ k, p = .crc k) → ∃ k, s.phase = .crc k) (hw : inPageAccess p = true → inPageAccess s.phase = true) :
       BlockInv (goTo p t) :=
  goTo_inv p i hb (k.base i.base) k.busy k.opc k.send k.out k.text k.page hp own needs hc hw

theorem phaseFits_trx (o x k k') : phaseFits o (.trx x k) = phaseFits o (.trx x k') := by cases x <;> rfl
theorem inPageAccess_trx (x k k') : inPageAccess (.trx x k) = inPageAccess (.trx x k') := by cases x <;> rfl

theorem Keeps.after {s t u} (k : Keeps s t) (cs : u.cs = t.cs) (b1 : u.busy = t.busy) (b2 : u.opc = t.opc)
    (b3 : u.send = t.send) (b4 : u.out = t.out)
  (b5 : u.text = t.text) (b6 : u.page = t.page) (b7 : u.status = t.status) (b8 : u.recv = t.recv) (b9 : u.vbc = t.vbc)
      (b10 : u.pollT = t.pollT) : Keeps s u :=
  ⟨cs.trans k.cs, b1.trans k.busy, b2.trans k.opc, b3.trans k.send, b4.trans k.out, b5.trans k.text, b6.trans k.page,
      b7.trans k.status, b8.trans k.recv, b9.trans k.vbc, b10.trans k.pollT⟩

theorem tickCrc_inv (c : Cfg) (k : CrcStep) (s : State) (h : s.phase = .crc k) (i : BlockInv s) (hb : s.busy = true) :
    BlockInv (tickCrc c k s) := by
  have hb1 : (1 : BitVec 11).toNat = 1 := rfl
  have hb8 : (1 : BitVec 8).toNat = 1 := rfl
  have own := i.phaseOwner
  have needs := i.phaseNeeds
  rw [h] at own needs
  have n1 : ∀ k, Phase.crc k ≠ .idle := fun k => by simp
  have ow : ∀ k', phaseFits s.opc s.phase = phaseFits s.opc (.crc k') := fun k' => by rw [h]; rfl
  have hcr : ∃ k, s.phase = .crc k := ⟨_, h⟩
  have hw : inPageAccess s.phase = true := by rw [h]; rfl
  have hhead := i.frameHead hcr
  have hld : ∀ t : State, Keeps s t → BlockInv (enterLoad (.crc .load) (.crc .command) t) := by
    intro t kt
    have k' : Keeps s (clearIdx t) := kt.after rfl rfl rfl rfl rfl rfl rfl rfl rfl rfl rfl
    unfold enterLoad; dsimp only
    split
    · exact keeps_inv _ i hb k' (n1 _) (ow _) trivial (fun _ => hcr) (fun _ => hw)
    · rename_i hne
      exact keeps_inv _ i hb k' (n1 _) (ow _) (by show (0 : Nat) < _; exact List.length_pos_of_ne_nil hne)
          (fun _ => hcr) (fun _ => hw)
  cases k <;> simp only [tickCrc]
  · exact keeps_inv _ i hb (readTmp_keeps c _ s) (n1 _) (ow _) trivial (fun _ => hcr) (fun _ => hw)
  · exact keeps_inv _ i hb (writeClear_keeps c _ _ s) (n1 _) (ow _) trivial (fun _ => hcr) (fun _ => hw)
  · exact keeps_inv _ i hb (readTmp_keeps c _ s) (n1 _) (ow _) trivial (fun _ => hcr) (fun _ => hw)
  · exact hld _ (writeSet_keeps c _ _ s)
  · unfold afterLoad
    split
    · rename_i hlt
      exact keeps_inv _ i hb (loadOne_keeps c s) (n1 _) (ow _) hlt (fun _ => hcr) (fun _ => hw)
    · exact keeps_inv _ i hb (loadOne_keeps c s) (n1 _) (ow _) trivial (fun _ => hcr) (fun _ => hw)
  · exact keeps_inv _ i hb ((wrReg_keeps c c.aCommand c.cmdCalcCrc s).after rfl rfl rfl rfl rfl rfl rfl rfl rfl rfl
        rfl) (n1 _) (ow _) (by show (0:Nat) < 255; decide) (fun _ => hcr) (fun _ => hw)
  · split
    · exact keeps_inv _ i hb (crcPollRead_keeps c s) (n1 _) (ow _) trivial (fun _ => hcr) (fun _ => hw)
    · rename_i hn
      have hlt : s.pollC.toNat < nCrcPoll := needs
      refine keeps_inv _ i hb (crcPollRead_keeps c s) (n1 _) (ow _) ?_ (fun _ => hcr) (fun _ => hw)
      show (crcPollRead c s).pollC.toNat < nCrcPoll
      have e : (crcPollRead c s).pollC.toNat = s.pollC.toNat + 1 := by
        simp only [crcPollRead, readTmp_pollC, BitVec.toNat_add, hb8]; simp only [nCrcPoll] at hlt; omega
      simp only [Bool.or_eq_true, beq_iff_eq, not_or] at hn
      omega
  · exact keeps_inv _ i hb (readCrcLow_keeps c s) (n1 _) (ow _) trivial (fun _ => hcr) (fun _ => hw)
  · have k := readCrcHigh_keeps c s
    unfold afterCrc
    split
    · exact finish_inv (k.base i.base) _
    · rename_i hn
      rw [runs_iff, k.opc] at hn
      simp only [Instr.opcode] at hn
      have hs := hhead hn
      have b := k.base i.base
      refine enterTrx_inv .page (b.send6 rfl rfl rfl rfl rfl (by simp; omega) b.outFits b.textFits) (k.busy.trans hb)
          ?_ (fun _ => (i.win hw).of k.opc k.page k.out k.text)
      show phaseFits (readCrcHigh c s).opc _ = true
      rw [k.opc]
      simp only [phaseFits, Bool.or_eq_true, beq_iff_eq] at own ⊢
      tauto

theorem tickTrx_inv (c : Cfg) (x : Exchange) (k : TrxStep) (s : State) (h : s.phase = .trx x k) (i : BlockInv s)
    (hb : s.busy = true) : BlockInv (tickTrx c x k s) := by
  have hb1 : (1 : BitVec 11).toNat = 1 := rfl
  have hb8 : (1 : BitVec 8).toNat = 1 := rfl
  have own := i.phaseOwner
  have needs := i.phaseNeeds
  rw [h] at own needs
  have n1 : ∀ k, Phase.trx x k ≠ .idle := fun k => by simp
  have ow : ∀ k', phaseFits s.opc s.phase = phaseFits s.opc (.trx x k') := fun k' => by rw [h]; exact phaseFits_trx ..
  have hcr : ∀ k', (∃ k, Phase.trx x k' = .crc k) → ∃ k, s.phase = .crc k := fun k' h => by obtain ⟨_, h⟩ := h; cases h
  have hw : ∀ k', inPageAccess (.trx x k') = true → inPageAccess s.phase = true := fun k' h' => by
    rw [h, inPageAccess_trx x k k']; exact h'
  have aft : ∀ t : State, CoreInv t → t.busy = s.busy → t.opc = s.opc → t.page = s.page → t.out = s.out → t.text =
      s.text → BlockInv (afterTrx x t) := by
    intro t b h1 h2 h3 h4 h5
    refine afterTrx_inv x b (h1.trans hb) (by rw [h2, phaseFits_trx _ _ _ k]; exact own) (fun hx => ?_)
    subst hx
    exact (i.win (hw .enable rfl)).of h2 h3 h4 h5
  have kaft : ∀ t : State, Keeps s t → BlockInv (afterTrx x t) := fun t k => aft t (k.base i.base) k.busy k.opc k.page
      k.out k.text
  cases k <;> simp only [tickTrx]
  · exact keeps_inv _ i hb (wrReg_keeps c _ _ s) (n1 _) (ow _) (by simpa [phaseInv, trxFits, goTo] using needs)
        (hcr _) (hw _)
  · exact keeps_inv _ i hb (wrReg_keeps c _ _ s) (n1 _) (ow _) (by simpa [phaseInv, trxFits, goTo] using needs)
        (hcr _) (hw _)
  · exact keeps_inv _ i hb (readTmp_keeps c _ s) (n1 _) (ow _) (by simpa [phaseInv, trxFits, goTo] using needs)
        (hcr _) (hw _)
  · have nd : s.status = statusErr ∧ s.recv = [] ∧ s.vbc = 0 := needs
    have kt := writeSet_keeps c c.aFifoLevel c.mFlush.byte s
    have k' : Keeps s (clearIdx (writeSet c c.aFifoLevel c.mFlush.byte s)) := kt.after rfl rfl rfl rfl rfl rfl rfl rfl
        rfl rfl rfl
    unfold enterLoad; dsimp only
    split
    · exact keeps_inv _ i hb k' (n1 _) (ow _) (by simpa [phaseInv, trxFits, goTo] using needs) (hcr _) (hw _)
    · rename_i hne
      exact keeps_inv _ i hb k' (n1 _) (ow _)
          ⟨k'.status.trans nd.1, k'.recv.trans nd.2.1, k'.vbc.trans nd.2.2,
          (by show (0 : Nat) < _; exact List.length_pos_of_ne_nil hne)⟩ (hcr _) (hw _)
  · have nd : s.status = statusErr ∧ s.recv = [] ∧ s.vbc = 0 ∧ _ := needs
    have k' := loadOne_keeps c s
    unfold afterLoad
    split
    · rename_i hlt
      exact keeps_inv _ i hb k' (n1 _) (ow _) ⟨k'.status.trans nd.1, k'.recv.trans nd.2.1, k'.vbc.trans nd.2.2.1, hlt⟩
          (hcr _) (hw _)
    · exact keeps_inv _ i hb k' (n1 _) (ow _) ⟨k'.status.trans nd.1, k'.recv.trans nd.2.1, k'.vbc.trans nd.2.2.1⟩
          (hcr _) (hw _)
  · exact keeps_inv _ i hb (wrReg_keeps c _ _ s) (n1 _) (ow _) (by simpa [phaseInv, trxFits, goTo] using needs)
        (hcr _) (hw _)
  · exact keeps_inv _ i hb (readTmp_keeps c _ s) (n1 _) (ow _) (by simpa [phaseInv, trxFits, goTo] using needs)
        (hcr _) (hw _)
  · have nd : s.status = statusErr ∧ s.recv = [] ∧ s.vbc = 0 := needs
    have kt := writeSet_keeps c c.aBitFraming mStart s
    have b := kt.base i.base
    refine goTo_inv _ i hb (t := clearPoll (writeSet c c.aBitFraming mStart s))
        ⟨b.1, b.2, b.3, b.4, by show (0:Nat) ≤ _; omega, b.6, b.7, b.8, b.9⟩ kt.busy kt.opc kt.send kt.out kt.text
        kt.page (n1 _) (ow _) ?_ (hcr _) (hw _)
    exact ⟨kt.status.trans nd.1, kt.recv.trans nd.2.1, kt.vbc.trans nd.2.2, rfl, by show (0:Nat) < 2000; decide⟩
  · have nd : s.status = statusErr ∧ s.recv = [] ∧ s.vbc = 0 ∧ s.seen = false ∧ s.pollT.toNat < nTrxPoll := needs
    have e : (trxPollRead c s).pollT.toNat = s.pollT.toNat + 1 := by
      have := nd.2.2.2.2
      simp only [trxPollRead, readTmp_pollT, BitVec.toNat_add, hb1]; simp only [nTrxPoll] at this; omega
    have e1 : (trxPollRead c s).status = s.status := by simp
    have e2 : (trxPollRead c s).recv = s.recv := by simp
    have e3 : (trxPollRead c s).vbc = s.vbc := by simp
    have b : CoreInv (trxPollRead c s) := by
      have b := i.base
      refine ⟨by simp [trxPollRead], by rw [e1]; exact b.2, by rw [e1, e2, e3]; exact b.3, by rw [e3]; exact b.4, by
          have := nd.2.2.2.2; omega, by simpa using b.6, by simpa using b.7, by simpa using b.8, by simpa using b.9⟩
    refine goTo_inv _ i hb b (by simp) (by simp) (by simp) (by simp) (by simp) (by simp) (n1 _) (ow _) ?_ (hcr _) (hw _)
    split
    · exact ⟨e1.trans nd.1, e2.trans nd.2.1, e3.trans nd.2.2.1⟩
    · rename_i hn
      simp only [Bool.or_eq_true, beq_iff_eq, not_or, Bool.not_eq_true] at hn
      refine ⟨e1.trans nd.1, e2.trans nd.2.1, e3.trans nd.2.2.1, hn.1, ?_⟩
      have := nd.2.2.2.2
      show (trxPollRead c s).pollT.toNat < nTrxPoll
      omega
  · exact keeps_inv _ i hb (readTmp_keeps c _ s) (n1 _) (ow _) (by simpa [phaseInv, trxFits, goTo] using needs)
        (hcr _) (hw _)
  · split
    · exact keeps_inv _ i hb (writeClear_keeps c _ _ s) (n1 _) (ow _) (by simpa [phaseInv, trxFits, goTo] using needs)
          (hcr _) (hw _)
    · exact kaft _ (writeClear_keeps c _ _ s)
  · have nd : s.status = statusErr ∧ s.recv = [] ∧ s.vbc = 0 := needs
    have k' := readError_keeps c s
    split
    · exact kaft _ k'
    · have b := k'.base i.base
      refine goTo_inv _ i hb (t := succeed (readError c s))
          ⟨b.1, .inl rfl, fun h => absurd (show statusOk = statusErr from h) (by decide), b.4, b.5, b.6, b.7, b.8,
          b.9⟩ k'.busy k'.opc k'.send k'.out k'.text k'.page (n1 _) (ow _) ?_ (hcr _) (hw _)
      exact ⟨rfl, k'.recv.trans nd.2.1, k'.vbc.trans nd.2.2⟩
  · have nd : s.status = statusOk ∧ s.recv = [] ∧ s.vbc = 0 := needs
    have k' := readLevel_keeps c s
    exact keeps_inv _ i hb k' (n1 _) (ow _) ⟨k'.status.trans nd.1, k'.recv.trans nd.2.1⟩ (hcr _) (hw _)
  · have nd : s.status = statusOk ∧ s.recv = [] := needs
    have e1 : (clearIdx (readControl c s)).status = s.status := by simp
    have e2 : (clearIdx (readControl c s)).recv = s.recv := by simp
    have e3 : (clearIdx (readControl c s)).vbc = BitVec.ofInt 12 (validBitCount s.n (s.answer 0)) := by
      rw [clearIdx_vbc, readControl_vbc, validBits_lastBits]
    have b : CoreInv (clearIdx (readControl c s)) := by
      have b := i.base
      refine ⟨by simp [readControl], .inl (e1.trans nd.1), fun h => ?_,
        by rw [e3, vbc_toInt _ (validBitCount_range _ _)]; exact validBitCount_range _ _, by simpa using b.5,
        by simpa using b.6, by simpa using b.7, by simpa using b.8, by simpa using b.9⟩
      rw [e1, nd.1] at h; exact absurd h (by decide)
    split
    · exact aft _ b (by simp) (by simp) (by simp) (by simp) (by simp)
    · rename_i hz
      refine goTo_inv _ i hb b (by simp) (by simp) (by simp) (by simp) (by simp) (by simp) (n1 _) (ow _) ?_ (hcr _)
          (hw _)
      refine ⟨e1.trans nd.1, ?_, ?_⟩
      · show (clearIdx (readControl c s)).recv.length = (0 : BitVec 11).toNat
        rw [e2, nd.2]; rfl
      · show (0 : BitVec 11).toNat < harvestCount (clearIdx (readControl c s)).n
        have : (0 : BitVec 11).toNat = 0 := rfl
        omega
  · have nd : s.status = statusOk ∧ s.recv.length = s.idx.toNat ∧ s.idx.toNat < harvestCount s.n := needs
    have hc : harvestCount s.n ≤ 16 := by unfold harvestCount recvCap; omega
    have e1 : (harvestOne c s).status = s.status := by simp
    have e2 : (harvestOne c s).recv = s.recv ++ [s.answer 0] := harvestOne_recv c s
    have e3 : (harvestOne c s).idx.toNat = s.idx.toNat + 1 := by
      have := nd.2.2
      simp only [harvestOne, BitVec.toNat_add, hb1]; omega
    have e4 : (harvestOne c s).n = s.n := by simp
    have b : CoreInv (harvestOne c s) := by
      have b := i.base
      refine ⟨by simp [harvestOne], .inl (e1.trans nd.1), fun h => ?_, by simpa using b.4, by simpa using b.5, by
          simpa using b.6, ?_, by simpa using b.8, by simpa using b.9⟩
      · rw [e1, nd.1] at h; exact absurd h (by decide)
      · rw [e2, List.length_append, List.length_singleton]; simp only [recvCap]; omega
    split
    · rename_i hlt
      refine goTo_inv _ i hb b (by simp) (by simp) (by simp) (by simp) (by simp) (by simp) (n1 _) (ow _) ?_ (hcr _)
          (hw _)
      refine ⟨e1.trans nd.1, ?_, hlt⟩
      show (harvestOne c s).recv.length = (harvestOne c s).idx.toNat
      rw [e2, e3, List.length_append, List.length_singleton]; omega
    · exact aft _ b (by simp) (by simp) (by simp) (by simp) (by simp)


/-- A tick keeps the invariant. -/
theorem tick_inv (c : Cfg) (s : State) (i : BlockInv s) (hb : s.busy = true) : BlockInv (tick c s) := by
  have hb1 : (1 : BitVec 11).toNat = 1 := rfl
  have hb8 : (1 : BitVec 8).toNat = 1 := rfl
  have hph := (i.busyPhase).1 hb
  have own := i.phaseOwner
  have needs := i.phaseNeeds
  unfold tick
  split
  · exact i
  · exact finish_inv ((wrReg_keeps c _ _ s).base i.base) _
  · exact finish_inv ((wrReg_keeps c _ _ s).base i.base) _
  · exact finish_inv ((rdReg_keeps c _ s).base i.base) _
  · rename_i h
    rw [h] at own
    have k := (wrReg_keeps c c.aBitFraming vFrame7 s)
    have b := k.base i.base
    exact enterTrx_inv .request (b.send6
        (t := requestFrame (presenceMode (wrReg c c.aBitFraming vFrame7 s)) (wrReg c c.aBitFraming vFrame7 s)) rfl rfl
        rfl rfl rfl (by simp [requestFrame]) b.outFits b.textFits) (by simpa using hb)
        (by simp only [wrReg_opc, requestFrame_opc]; exact own) (by simp)
  · rename_i h
    rw [h] at own
    have k := (wrReg_keeps c c.aBitFraming vFrame8 s)
    have b := k.base i.base
    exact enterTrx_inv .anticoll (b.send6 (t := anticollFrame (wrReg c c.aBitFraming vFrame8 s)) rfl rfl rfl rfl rfl
        (by simp only [anticollFrame_send]; decide) b.outFits b.textFits) (by simpa using hb)
        (by simp only [wrReg_opc, anticollFrame_opc]; exact own) (by simp)
  · rename_i k h
    exact tickCrc_inv c k s h i hb
  · rename_i x k h
    exact tickTrx_inv c x k s h i hb


/-- The acceptance of a well-formed request keeps the invariant. -/
theorem startOp_inv (i : Instr) (s : State) (h : BlockInv s) (hw : i.wellFormed = true) : BlockInv (startOp i s) := by
  have b := h.base
  have vac : ∀ (P : Prop) (o o' : Byte), o ≠ o' → o = o' → P := fun P o o' h1 h2 => absurd h2 h1
  cases i with
  | init =>
    exact blockInv_of (s := startOp .init s) (b.send6 rfl rfl rfl rfl rfl b.sendFits b.outFits b.textFits)
        (iff_of_true rfl (nofun : Phase.softReset ≠ .idle)) rfl trivial
      (fun ⟨_, hk⟩ => nomatch (hk : Phase.softReset = _)) (fun h => nomatch (h : false = true))
  | wrreg a v =>
    exact blockInv_of (s := startOp (.wrreg a v) s) (b.send6 rfl rfl rfl rfl rfl b.sendFits b.outFits b.textFits)
        (iff_of_true rfl (nofun : Phase.regWrite ≠ .idle)) rfl trivial
      (fun ⟨_, hk⟩ => nomatch (hk : Phase.regWrite = _)) (fun h => nomatch (h : false = true))
  | rdreg a =>
    exact blockInv_of (s := startOp (.rdreg a) s) (b.send6 rfl rfl rfl rfl rfl b.sendFits b.outFits b.textFits)
        (iff_of_true rfl (nofun : Phase.regRead ≠ .idle)) rfl trivial
      (fun ⟨_, hk⟩ => nomatch (hk : Phase.regRead = _)) (fun h => nomatch (h : false = true))
  | crccalc d =>
    simp only [Instr.wellFormed, decide_eq_true_eq] at hw
    exact blockInv_of (s := startOp (.crccalc d) s) (b.send6 rfl rfl rfl rfl rfl hw b.outFits b.textFits)
        (iff_of_true rfl (nofun : Phase.crc _ ≠ .idle)) rfl trivial
      (fun _ h => absurd rfl h) (fun _ => ⟨vac _ 3#8 _ (by decide), vac _ 3#8 _ (by decide)⟩)
  | transcv cmd d =>
    simp only [Instr.wellFormed, decide_eq_true_eq] at hw
    exact blockInv_of (s := startOp (.transcv cmd d) s)
        ⟨b.1, .inr rfl, fun _ => ⟨rfl, rfl⟩, vbc_zero_range, b.5, hw, Nat.zero_le _, b.8, b.9⟩
        (iff_of_true rfl (nofun : Phase.trx _ _ ≠ .idle)) rfl ⟨rfl, rfl, rfl⟩
      (fun ⟨_, hk⟩ => nomatch (hk : Phase.trx _ _ = _)) (fun h => nomatch (h : false = true))
  | reqpres m =>
    exact blockInv_of (s := startOp (.reqpres m) s) (b.send6 rfl rfl rfl rfl rfl b.sendFits b.outFits b.textFits)
        (iff_of_true rfl (nofun : Phase.framing7 ≠ .idle)) rfl trivial
      (fun ⟨_, hk⟩ => nomatch (hk : Phase.framing7 = _)) (fun h => nomatch (h : false = true))
  | anticoll =>
    exact blockInv_of (s := startOp .anticoll s) (b.send6 rfl rfl rfl rfl rfl b.sendFits b.outFits b.textFits)
        (iff_of_true rfl (nofun : Phase.framing8 ≠ .idle)) rfl trivial
      (fun ⟨_, hk⟩ => nomatch (hk : Phase.framing8 = _)) (fun h => nomatch (h : false = true))
  | rdpage p =>
    exact blockInv_of (s := startOp (.rdpage p) s)
        (b.send6 rfl rfl rfl rfl rfl (by show (2:Nat) ≤ 255; decide) b.outFits b.textFits)
        (iff_of_true rfl (nofun : Phase.crc _ ≠ .idle)) rfl trivial
      (fun _ _ => by show (2:Nat) ≤ 6; decide) (fun _ => ⟨vac _ 7#8 _ (by decide), vac _ 7#8 _ (by decide)⟩)
  | wrpage p b0 b1 b2 b3 =>
    exact blockInv_of (s := startOp (.wrpage p b0 b1 b2 b3) s)
        (b.send6 rfl rfl rfl rfl rfl (by show (6:Nat) ≤ 255; decide) b.outFits b.textFits)
        (iff_of_true rfl (nofun : Phase.crc _ ≠ .idle)) rfl trivial
      (fun _ _ => by show (6:Nat) ≤ 6; decide) (fun _ => ⟨vac _ 8#8 _ (by decide), vac _ 8#8 _ (by decide)⟩)
  | rdtext =>
    exact blockInv_of (s := startOp .rdtext s) (b.send6 rfl rfl rfl rfl rfl b.sendFits b.outFits b.textFits)
        (iff_of_true rfl (nofun : Phase.framing7 ≠ .idle)) rfl trivial
      (fun ⟨_, hk⟩ => nomatch (hk : Phase.framing7 = _)) (fun h => nomatch (h : false = true))
  | wrtext t =>
    simp only [Instr.wellFormed, decide_eq_true_eq, textMax] at hw
    exact blockInv_of (s := startOp (.wrtext t) s) (b.send6 rfl rfl rfl rfl rfl b.sendFits b.outFits hw)
        (iff_of_true rfl (nofun : Phase.framing7 ≠ .idle)) rfl trivial
      (fun ⟨_, hk⟩ => nomatch (hk : Phase.framing7 = _)) (fun h => nomatch (h : false = true))


end Sys2Proof.Machine
end

