-- ==== Sys2Proof/Laws/PerInstr.lean ====
section
/-!
SUPPORT. Statements for all instructions, one lemma per constructor: the shape of the encoding (rules R76 and R78).
-/

namespace Sys2Proof.Laws.EncodeShape

/-- The total length of a descriptor (rule R78, column "total length"). -/
def totalLength : Instr → Nat
  | .init => 1
  | .wrreg _ _ => 3
  | .rdreg _ => 2
  | .crccalc data => 2 + data.length
  | .transcv _ frame => 3 + frame.length
  | .reqpres _ => 2
  | .anticoll => 1
  | .rdpage _ => 2
  | .wrpage _ _ _ _ _ => 6
  | .rdtext => 1
  | .wrtext text => 3 + text.length

/-- The encoding of an instruction begins with its opcode byte, which is none of the reserved ones (rule R91), and has
the length rule R78 gives it. -/
def Statement (i : Instr) : Prop :=
  (encode i).head? = some i.opcode ∧ i.opcode.toNat ≤ 10 ∧ (encode i).length = totalLength i

theorem init : Statement .init := ⟨rfl, by decide, rfl⟩

theorem wrreg (addr value : Byte) : Statement (.wrreg addr value) := ⟨rfl, by simp [Instr.opcode], rfl⟩

theorem rdreg (addr : Byte) : Statement (.rdreg addr) := ⟨rfl, by simp [Instr.opcode], rfl⟩

theorem crccalc (data : List Byte) : Statement (.crccalc data) :=
  ⟨rfl, by simp [Instr.opcode], by simp [encode, Instr.operandBytes, totalLength]; omega⟩

theorem transcv (cmd : Byte) (frame : List Byte) : Statement (.transcv cmd frame) :=
  ⟨rfl, by simp [Instr.opcode], by simp [encode, Instr.operandBytes, totalLength]; omega⟩

theorem reqpres (mode : Byte) : Statement (.reqpres mode) := ⟨rfl, by simp [Instr.opcode], rfl⟩

theorem anticoll : Statement .anticoll := ⟨rfl, by decide, rfl⟩

theorem rdpage (page : Byte) : Statement (.rdpage page) := ⟨rfl, by simp [Instr.opcode], rfl⟩

theorem wrpage (page b0 b1 b2 b3 : Byte) : Statement (.wrpage page b0 b1 b2 b3) :=
  ⟨rfl, by simp [Instr.opcode], rfl⟩

theorem rdtext : Statement .rdtext := ⟨rfl, by decide, rfl⟩

theorem wrtext (text : List Byte) : Statement (.wrtext text) :=
  ⟨rfl, by simp [Instr.opcode], by simp [encode, Instr.operandBytes, totalLength]; omega⟩

end Sys2Proof.Laws.EncodeShape
end

