-- ==== Sys2Proof/Tests/Slice0.lean ====
section
/-!
SUPPORT. Tests of the model: well-formedness, descriptors, vectors of 95_test_vectors.md, and a state that meets the
hypotheses of each obligation. Every expected result is the spec's.
-/

namespace Sys2Proof.Tests

open Sys2Proof.Machine

/-! ## Well-formedness: an ill-formed term for each check -/

theorem test_wf_crccalc_longest : (Instr.crccalc (List.replicate 255 0)).wellFormed = true := by decide +kernel
theorem test_wf_crccalc_too_long : (Instr.crccalc (List.replicate 256 0)).wellFormed = false := by decide +kernel
theorem test_wf_transcv_longest : (Instr.transcv 0 (List.replicate 255 0)).wellFormed = true := by decide +kernel
theorem test_wf_transcv_too_long : (Instr.transcv 0 (List.replicate 256 0)).wellFormed = false := by decide +kernel
theorem test_wf_wrtext_longest : (Instr.wrtext (List.replicate 1008 0)).wellFormed = true := by decide +kernel
theorem test_wf_wrtext_too_long : (Instr.wrtext (List.replicate 1009 0)).wellFormed = false := by decide +kernel

/-! ## Descriptors, written out from the spec's own examples -/

/-- P1 of 95_test_vectors.md. -/
theorem test_decode_init : decode [0x00] = .ok .init := by decide
/-- V-REG-5. -/
theorem test_decode_wrreg : decode [0x01, 0x41, 0xAA] = .ok (.wrreg 0x41 0xAA) := by decide
/-- V-REG-4. -/
theorem test_decode_rdreg : decode [0x02, 0x22] = .ok (.rdreg 0x22) := by decide
/-- V-CRC-5. -/
theorem test_decode_crccalc : decode [0x03, 0x02, 0x12, 0x34] = .ok (.crccalc [0x12, 0x34]) := by decide
/-- V-CRC-3. -/
theorem test_decode_crccalc_empty : decode [0x03, 0x00] = .ok (.crccalc []) := by decide
/-- V-TRX-1. -/
theorem test_decode_transcv : decode [0x04, 0x0C, 0x01, 0x26] = .ok (.transcv 0x0C [0x26]) := by decide
/-- V-REQ-3. -/
theorem test_decode_reqpres : decode [0x05, 0x52] = .ok (.reqpres 0x52) := by decide
/-- V-ANT-1. -/
theorem test_decode_anticoll : decode [0x06] = .ok .anticoll := by decide
/-- V-RDP-1. -/
theorem test_decode_rdpage : decode [0x07, 0x04] = .ok (.rdpage 0x04) := by decide
/-- V-WRP-1, the pad bytes replaced by others to tell the places apart. -/
theorem test_decode_wrpage : decode [0x08, 0x04, 0x41, 0x42, 0x43, 0x44] = .ok (.wrpage 0x04 0x41 0x42 0x43 0x44) := by
  decide
/-- V-SES-5. -/
theorem test_decode_rdtext : decode [0x09] = .ok .rdtext := by decide
/-- V-SES-1: the low length byte comes first. -/
theorem test_decode_wrtext :
    decode [0x0A, 0x05, 0x00, 0x48, 0x45, 0x4C, 0x4C, 0x4F] = .ok (.wrtext [0x48, 0x45, 0x4C, 0x4C, 0x4F]) := by
  decide
/-- Rule R78: the high length byte counts 256. -/
theorem test_decode_wrtext_high :
    decode ([0x0A, 0x01, 0x01] ++ List.replicate 257 0x41) = .ok (.wrtext (List.replicate 257 0x41)) := by
  decide +kernel

/-- The table's row of each operation, its operands zero, is that operation. -/
theorem test_decode_table :
    (List.range 12).map (decodeTableWord 8) =
      [some .init, some (.wrreg 0 0), some (.rdreg 0), some (.crccalc []), some (.transcv 0 []), some (.reqpres 0),
       some .anticoll, some (.rdpage 0), some (.wrpage 0 0 0 0 0), some .rdtext, some (.wrtext []), none] := by
  decide +kernel

/-- Rule R91, by name. -/
theorem test_decode_reserved : decode [0x0B] = .error (.reservedOpcode 0x0B) := by decide
theorem test_decode_reserved_last : decode [0xFF, 0x00] = .error (.reservedOpcode 0xFF) := by decide
theorem test_decode_short : decode [0x01, 0x0D] = .error .tooShort := by decide
theorem test_decode_long : decode [0x02, 0x06, 0x00] = .error .tooLong := by decide
theorem test_decode_counted_short : decode [0x03, 0x02, 0x30] = .error .tooShort := by decide
/-- V-SES-4. -/
theorem test_decode_text_too_long : decode [0x0A, 0xF1, 0x03] = .error (.textTooLong 1009) := by decide

/-- The textual form of rule R94. -/
theorem test_text_wrreg : (Instr.wrreg 0x0D 0x07).text = "WRREG 0x0D, 0x07" := by decide +kernel
theorem test_text_transcv : (Instr.transcv 0x0C [0x26]).text = "TRANSCV 0x0C, [0x26]" := by decide +kernel

/-! ## The placing of a request -/

/-- The step after reset with a descriptor of the table placed is the operation of its row. -/
theorem test_placed :
    step (State.reset.withFetchWord 8 0x00) = exec .init State.reset ∧
    step (State.reset.withFetchWord 8 0x01) = exec (.wrreg 0 0) State.reset ∧
    step (State.reset.withFetchWord 8 0x02) = exec (.rdreg 0) State.reset ∧
    step (State.reset.withFetchWord 8 0x03) = exec (.crccalc []) State.reset ∧
    step (State.reset.withFetchWord 8 0x04) = exec (.transcv 0 []) State.reset ∧
    step (State.reset.withFetchWord 8 0x05) = exec (.reqpres 0) State.reset ∧
    step (State.reset.withFetchWord 8 0x06) = exec .anticoll State.reset ∧
    step (State.reset.withFetchWord 8 0x07) = exec (.rdpage 0) State.reset ∧
    step (State.reset.withFetchWord 8 0x08) = exec (.wrpage 0 0 0 0 0) State.reset ∧
    step (State.reset.withFetchWord 8 0x09) = exec .rdtext State.reset ∧
    step (State.reset.withFetchWord 8 0x0A) = exec (.wrtext []) State.reset :=
  ⟨rfl, rfl, rfl, rfl, rfl, rfl, rfl, rfl, rfl, rfl, rfl⟩

/-- A reserved opcode placed is answered REFUSED, with no transaction (V-SES-7). -/
theorem test_placed_reserved :
    step (State.reset.withFetchWord 8 0x0B) = .next { State.reset with response := some .refused } := rfl

/-! ## Vectors of 95_test_vectors.md, under the default parameters -/

/-- The block after operation `i`, from reset, when the chip answers `answers`. -/
def after (i : Instr) (answers : List Byte) : State := operate Cfg.defaults i { State.reset with answers := answers }

/-- The operation's response, and what the transport carried. -/
def observed (i : Instr) (answers : List Byte) : Option Response × List BusEvent :=
  ((after i answers).response, (after i answers).bus)

/-- A vector's expected response and trace. -/
def expected (r : Response) (trace : List Xact) : Option Response × List BusEvent :=
  (some r, wires Cfg.defaults trace)

/-- P1, INIT: the bytes 02 and 0F. -/
theorem test_init :
    observed .init [] = (some .done, [.csAssert, .xfer 0x02 none, .xfer 0x0F none, .csRelease]) := by
  decide +kernel

/-- V-REG-5: the bytes 02 and AA. -/
theorem test_wrreg :
    observed (.wrreg 0x41 0xAA) [] = (some .done, [.csAssert, .xfer 0x02 none, .xfer 0xAA none, .csRelease]) := by
  decide +kernel

/-- V-REG-4: the bytes C4 and 00, the second answered 26. -/
theorem test_rdreg :
    observed (.rdreg 0x22) [0x26] =
      (some (.value 0x26), [.csAssert, .xfer 0xC4 none, .xfer 0x00 (some 0x26), .csRelease]) := by
  decide +kernel

/-- V-SET-1. -/
theorem test_setbits :
    (setBits Cfg.defaults 0x0D 0x80 { State.reset with answers := [0x07] }).bus =
      wires Cfg.defaults [.read 0x0D 0x07, .write 0x0D 0x87] := by decide +kernel

/-- V-CLR-2. -/
theorem test_clrbits :
    (clrBits Cfg.defaults 0x05 0x04 { State.reset with answers := [0xFF] }).bus =
      wires Cfg.defaults [.read 0x05 0xFF, .write 0x05 0xFB] := by decide +kernel

/-- V-CRC-5. -/
theorem test_crccalc :
    observed (.crccalc [0x12, 0x34]) [0xFB, 0x00, 0xFB, 0xFB, 0xFF, 0x01, 0x02] =
      expected (.crc 0x01 0x02)
        [.read 0x05 0xFB, .write 0x05 0xFB, .read 0x0A 0x00, .write 0x0A 0x80, .write 0x09 0x12, .write 0x09 0x34,
         .write 0x01 0x03, .read 0x05 0xFB, .read 0x05 0xFB, .read 0x05 0xFF, .read 0x22 0x01, .read 0x21 0x02] := by
  decide +kernel

/-- V-CRC-2: the exhausted poll makes 255 reads and no more, and leaves no mark. -/
theorem test_crccalc_silent :
    ((after (.crccalc [0x30, 0x04]) ([0x00, 0x02] ++ List.replicate 255 0x00 ++ [0xAA, 0x55])).response,
     (after (.crccalc [0x30, 0x04]) ([0x00, 0x02] ++ List.replicate 255 0x00 ++ [0xAA, 0x55])).answers) =
      (some (.crc 0xAA 0x55), []) := by
  decide +kernel

/-- V-TRX-1. -/
theorem test_transcv :
    observed (.transcv 0x0C [0x26]) [0x00, 0x07, 0x01, 0x87, 0x00, 0x02, 0x00, 0x44, 0x00] =
      expected (.exchange 0 [0x44, 0x00] 16)
        [.write 0x02 0xF7, .write 0x01 0x00, .read 0x0A 0x00, .write 0x0A 0x80, .write 0x09 0x26, .write 0x01 0x0C,
         .read 0x0D 0x07, .write 0x0D 0x87, .read 0x04 0x01, .read 0x0D 0x87, .write 0x0D 0x07, .read 0x06 0x00,
         .read 0x0A 0x02, .read 0x0C 0x00, .read 0x09 0x44, .read 0x09 0x00] := by
  decide +kernel

/-- V-TRX-7: the bit seen at the last permitted read is seen. -/
theorem test_transcv_last_read :
    (after (.transcv 0x0C []) ([0x00, 0x00] ++ List.replicate 1999 0x00 ++ [0x45, 0x80, 0x00, 0x00, 0x00])).response =
      some (.exchange 0 [] 0) := by decide +kernel

/-- V-REQ-1: the received bytes are read and dropped. -/
theorem test_reqpres :
    observed (.reqpres 0x26) [0x00, 0x07, 0x01, 0x87, 0x00, 0x02, 0x00, 0x44, 0x00] =
      expected (.presence 0 16)
        [.write 0x0D 0x07, .write 0x02 0xF7, .write 0x01 0x00, .read 0x0A 0x00, .write 0x0A 0x80, .write 0x09 0x26,
         .write 0x01 0x0C, .read 0x0D 0x07, .write 0x0D 0x87, .read 0x04 0x01, .read 0x0D 0x87, .write 0x0D 0x07,
         .read 0x06 0x00, .read 0x0A 0x02, .read 0x0C 0x00, .read 0x09 0x44, .read 0x09 0x00] := by
  decide +kernel

/-- V-ANT-1. -/
theorem test_anticoll :
    observed .anticoll [0x00, 0x00, 0x01, 0x80, 0x00, 0x05, 0x00, 0x04, 0xA1, 0xB2, 0xC3, 0xD4] =
      expected (.identifier 0 [0x04, 0xA1, 0xB2, 0xC3, 0xD4])
        [.write 0x0D 0x00, .write 0x02 0xF7, .write 0x01 0x00, .read 0x0A 0x00, .write 0x0A 0x80, .write 0x09 0x93,
         .write 0x09 0x20, .write 0x01 0x0C, .read 0x0D 0x00, .write 0x0D 0x80, .read 0x04 0x01, .read 0x0D 0x80,
         .write 0x0D 0x00, .read 0x06 0x00, .read 0x0A 0x05, .read 0x0C 0x00, .read 0x09 0x04, .read 0x09 0xA1,
         .read 0x09 0xB2, .read 0x09 0xC3, .read 0x09 0xD4] := by
  decide +kernel

/-- V-RDP-4: exactly four bytes are a page. -/
theorem test_rdpage :
    observed (.rdpage 0x04)
        [0x00, 0x00, 0x04, 0x26, 0xEE, 0x00, 0x00, 0x01, 0x80, 0x00, 0x04, 0x00, 0xDE, 0xAD, 0xBE, 0xEF] =
      expected (.page 0 [0xDE, 0xAD, 0xBE, 0xEF] (some ⟨0xDE, 0xAD, 0xBE, 0xEF⟩))
        [.read 0x05 0x00, .write 0x05 0x00, .read 0x0A 0x00, .write 0x0A 0x80, .write 0x09 0x30, .write 0x09 0x04,
         .write 0x01 0x03, .read 0x05 0x04, .read 0x22 0x26, .read 0x21 0xEE, .write 0x02 0xF7, .write 0x01 0x00,
         .read 0x0A 0x00, .write 0x0A 0x80, .write 0x09 0x30, .write 0x09 0x04, .write 0x09 0x26, .write 0x09 0xEE,
         .write 0x01 0x0C, .read 0x0D 0x00, .write 0x0D 0x80, .read 0x04 0x01, .read 0x0D 0x80, .write 0x0D 0x00,
         .read 0x06 0x00, .read 0x0A 0x04, .read 0x0C 0x00, .read 0x09 0xDE, .read 0x09 0xAD, .read 0x09 0xBE,
         .read 0x09 0xEF] := by
  decide +kernel

/-- V-RDP-5: exactly three bytes are none. -/
theorem test_rdpage_short :
    (after (.rdpage 0x04)
        [0x00, 0x00, 0x04, 0x26, 0xEE, 0x00, 0x00, 0x01, 0x80, 0x00, 0x03, 0x00, 0xDE, 0xAD, 0xBE]).response =
      some (.page 0 [0xDE, 0xAD, 0xBE] none) := by decide +kernel

/-- V-WRP-1. -/
theorem test_wrpage :
    observed (.wrpage 0x04 0x41 0x42 0x20 0x20)
        [0x04, 0x02, 0x04, 0xC4, 0x29, 0x00, 0x00, 0x01, 0x80, 0x00, 0x01, 0x04, 0x0A] =
      expected .done
        [.read 0x05 0x04, .write 0x05 0x00, .read 0x0A 0x02, .write 0x0A 0x82, .write 0x09 0xA2, .write 0x09 0x04,
         .write 0x09 0x41, .write 0x09 0x42, .write 0x09 0x20, .write 0x09 0x20, .write 0x01 0x03, .read 0x05 0x04,
         .read 0x22 0xC4, .read 0x21 0x29, .write 0x02 0xF7, .write 0x01 0x00, .read 0x0A 0x00, .write 0x0A 0x80,
         .write 0x09 0xA2, .write 0x09 0x04, .write 0x09 0x41, .write 0x09 0x42, .write 0x09 0x20, .write 0x09 0x20,
         .write 0x09 0xC4, .write 0x09 0x29, .write 0x01 0x0C, .read 0x0D 0x00, .write 0x0D 0x80, .read 0x04 0x01,
         .read 0x0D 0x80, .write 0x0D 0x00, .read 0x06 0x00, .read 0x0A 0x01, .read 0x0C 0x04, .read 0x09 0x0A] := by
  decide +kernel

/-- The answers of a passed gate: V-REQ-1 and V-ANT-1. -/
def gateAnswers : List Byte :=
  [0x00, 0x07, 0x01, 0x87, 0x00, 0x02, 0x00, 0x44, 0x00,
   0x00, 0x00, 0x01, 0x80, 0x00, 0x05, 0x00, 0x04, 0xA1, 0xB2, 0xC3, 0xD4]

/-- The answers of a page read of four bytes. -/
def pageAnswers (b : Byte) : List Byte :=
  [0x00, 0x00, 0x04, 0x26, 0xEE, 0x00, 0x00, 0x01, 0x80, 0x00, 0x04, 0x00, b, b, b, b]

/-- The answers of a page read of three bytes, which contributes nothing. -/
def shortPageAnswers : List Byte :=
  [0x00, 0x00, 0x04, 0x26, 0xEE, 0x00, 0x00, 0x01, 0x80, 0x00, 0x03, 0x00, 0xDE, 0xAD, 0xBE]

/-- Rule R166 (b): page 5 fails, the others succeed, in page order and with no gap. -/
theorem test_rdtext :
    (after .rdtext (gateAnswers ++ pageAnswers 0x41 ++ shortPageAnswers ++ pageAnswers 0x43 ++ pageAnswers 0x44)).response =
      some (.text [0x41, 0x41, 0x41, 0x41, 0x43, 0x43, 0x43, 0x43, 0x44, 0x44, 0x44, 0x44]) := by decide +kernel

/-- V-SES-6: REQPRES succeeds and ANTICOLL gets error bit 0x08. -/
theorem test_rdtext_null :
    (after .rdtext [0x00, 0x07, 0x01, 0x87, 0x00, 0x02, 0x00, 0x44, 0x00, 0x00, 0x00, 0x01, 0x80, 0x08]).response =
      some .null := by decide +kernel

/-- V-SES-1, the last page: the bytes the second chunk loads for its CRC. -/
theorem test_wrtext :
    ((after (.wrtext [0x48, 0x45, 0x4C, 0x4C, 0x4F])
        (gateAnswers ++ [0x04, 0x02, 0x04, 0x3D, 0x39, 0x00, 0x00, 0x01, 0x80, 0x00, 0x01, 0x04, 0x0A] ++
          [0x04, 0x02, 0x04, 0x37, 0x3C, 0x00, 0x00, 0x01, 0x80, 0x00, 0x01, 0x04, 0x0A])).response,
     (after (.wrtext [0x48, 0x45, 0x4C, 0x4C, 0x4F])
        (gateAnswers ++ [0x04, 0x02, 0x04, 0x3D, 0x39, 0x00, 0x00, 0x01, 0x80, 0x00, 0x01, 0x04, 0x0A] ++
          [0x04, 0x02, 0x04, 0x37, 0x3C, 0x00, 0x00, 0x01, 0x80, 0x00, 0x01, 0x04, 0x0A])).send) =
      (some (.written 1), [0xA2, 0x05, 0x4F, 0x20, 0x20, 0x20, 0x37, 0x3C]) := by decide +kernel

/-- Rule R167 (a): an empty text is written by no page write. -/
theorem test_wrtext_empty :
    ((after (.wrtext []) gateAnswers).response, (after (.wrtext []) gateAnswers).answers) = (some (.written 1), []) := by
  decide +kernel

/-- The cycle at the grain of one transaction: V-REG-3 takes one acceptance and one transaction. -/
theorem test_cycle :
    cycle Cfg.defaults (cycle Cfg.defaults (present [0x02, 0x06] { State.reset with answers := [0x1B] })) =
      after (.rdreg 0x06) [0x1B] := by decide +kernel

/-! ## A state that meets the hypotheses of each obligation -/

/-- The block right after reset, the chip about to answer `answers`. -/
def idleWith (answers : List Byte) : State := { State.reset with answers := answers }

/-- The block right after reset, `d` presented. -/
def offered (d : List Byte) : State := { State.reset with requests := [d] }

theorem witness_decodeOfEncode : (Instr.wrtext (List.replicate 1008 0x20)).wellFormed = true := by decide +kernel

theorem witness_encodeOfDecode : decode [0x02, 0x06] = .ok (.rdreg 0x06) := by decide

/-- Each clause of rule R91: a reserved opcode at each end of its range, too short, too long; and the empty
descriptor, malformed by the model's deduction (log entry 7). -/
theorem witness_malformed :
    Malformed [] ∧ Malformed [0x0B] ∧ Malformed [0xFF] ∧ Malformed [0x01, 0x0D] ∧ Malformed [0x00, 0x00] ∧
      Malformed [0x0A, 0xF1, 0x03] ∧ ¬ Malformed [0x0A, 0x00, 0x00] := by
  refine ⟨trivial, trivial, trivial, ?_, ?_, ?_, ?_⟩ <;> simp [Malformed]

/-- The text bound of rule R91 alone (V-SES-4 with its text bytes): 1009 bytes follow the length 1009, so the descriptor
is neither too short nor too long, and the bound is what refuses it; 1008 bytes after the length 1008 are well formed. -/
theorem witness_malformed_textBound (text : List Byte) :
    (text.length = 1009 → Malformed (0x0A :: 0xF1 :: 0x03 :: text)) ∧
      (text.length = 1008 → ¬ Malformed (0x0A :: 0xF0 :: 0x03 :: text)) :=
  ⟨fun _ => .inr (.inr (by show 1008 < 1009; decide)), fun h => by simp [Malformed, h]⟩

/-- The same on the descriptor written out. -/
theorem witness_malformed_longText : Malformed (0x0A :: 0xF1 :: 0x03 :: List.replicate 1009 0x41) :=
  (witness_malformed_textBound _).1 List.length_replicate

/-- StepRunsTheDecodedRequest, AcceptanceLatchesTheOperands, SequencerReachesTheMeaning. -/
theorem witness_request :
    (offered [0x03, 0x02, 0x30, 0x04]).busy = false ∧
      (offered [0x03, 0x02, 0x30, 0x04]).requests = [0x03, 0x02, 0x30, 0x04] :: [] ∧
      decode [0x03, 0x02, 0x30, 0x04] = .ok (.crccalc [0x30, 0x04]) ∧
      (Instr.crccalc [0x30, 0x04]).wellFormed = true := by decide

/-- MalformedRequestIsRefused. -/
theorem witness_malformedRequest :
    (offered [0x0B]).busy = false ∧ (offered [0x0B]).requests = [0x0B] :: [] ∧ Malformed [0x0B] := ⟨rfl, rfl, trivial⟩

/-- A read session whose page 5 is about to be read: the operation is in flight. -/
def midRead : State :=
  { State.reset with busy := true, opc := 0x09, phase := .crc .load, page := 5, send := [0x30, 0x05], idx := 1,
                     out := [0x41, 0x42, 0x43, 0x44] }

/-- A write session at its last page, 255, with the longest text. -/
def midWrite : State :=
  { State.reset with busy := true, opc := 0x0A, phase := .trx .page .poll, page := 255, status := statusErr,
                     pollT := 1999, text := List.replicate 1008 0x20 }

/-- BusyBlockAcceptsNoRequest and StepInFlightIsOneTransaction. -/
theorem witness_inFlight : midRead.busy = true ∧ midRead.phase ≠ .idle := by decide

/-- IdleBlockWaits. -/
theorem witness_idle : State.reset.busy = false ∧ State.reset.requests = [] := by decide

/-- EveryOperationAnswers, and the other statements about a well-formed operation and an idle block: the longest
operands. -/
theorem witness_operation :
    (Instr.crccalc (List.replicate 255 0)).wellFormed = true ∧ (Instr.transcv 0 (List.replicate 255 0)).wellFormed = true ∧
      (Instr.wrtext (List.replicate 1008 0)).wellFormed = true ∧ (List.replicate 255 (0 : Byte)).length ≤ 255 ∧
      (List.replicate 1008 (0 : Byte)).length ≤ 1008 ∧ State.reset.busy = false := by decide +kernel

theorem idleWith_zeros (n k : Nat) (h : k < n) : (idleWith (List.replicate n 0)).answer k = 0 := by
  simp [State.answer, answerOf, idleWith, h]

/-- CrcTimeOutIsSilent: the done bit is never set, whatever it is. -/
theorem witness_crcTimeOut : (idleWith (List.replicate 259 0)).busy = false ∧
    ∀ j, j < 255 → (idleWith (List.replicate 259 0)).answer (2 + j) &&& Config.cfg.mCrcDone.byte = 0 :=
  ⟨rfl, fun j h => by rw [idleWith_zeros 259 (2 + j) (by omega)]; exact BitVec.zero_and⟩

/-- TransceiveTimesOut and SessionsWithoutATagAnswerNull: bit 0 is never set. -/
theorem witness_noTag : (idleWith (List.replicate 2003 0)).busy = false ∧
    ∀ j, j < 2000 → (idleWith (List.replicate 2003 0)).answer (2 + j) &&& 0x01#8 = 0 :=
  ⟨rfl, fun j h => by rw [idleWith_zeros 2003 (2 + j) (by omega)]; exact BitVec.zero_and⟩

/-- TransceiveReportsAChipError: the first read shows the bit, and the error register the bit 0x10. -/
theorem witness_chipError :
    PollEnds 2000 0x01#8 (fun j => (idleWith [0, 0, 1, 0, 0x10]).answer (2 + j)) 1 ∧
      (idleWith [0, 0, 1, 0, 0x10]).answer (1 + 1) &&& 0x01#8 ≠ 0 ∧
      (idleWith [0, 0, 1, 0, 0x10]).answer (3 + 1) &&& 0x1B#8 ≠ 0 :=
  ⟨.first (by decide) (by decide), by decide, by decide⟩

/-- TransceiveSucceeds: the second read shows the bit, the error register a bit outside 0x1B, and the level exceeds 16. -/
theorem witness_success :
    PollEnds 2000 0x01#8 (fun j => (idleWith [0, 0, 0xFE, 0xFF, 0, 0xE4, 20, 3]).answer (2 + j)) 2 ∧
      (idleWith [0, 0, 0xFE, 0xFF, 0, 0xE4, 20, 3]).answer (1 + 2) &&& 0x01#8 ≠ 0 ∧
      (idleWith [0, 0, 0xFE, 0xFF, 0, 0xE4, 20, 3]).answer (3 + 2) &&& 0x1B#8 = 0 :=
  ⟨⟨by decide, by decide, fun j h => by obtain rfl : j = 0 := by omega
                                        decide, .inr (by decide)⟩, by decide, by decide⟩

/-- The clauses of ReadSessionIsGateThenFourPages and WriteSessionIsGateThenPageWrites: REQPRES fails; it succeeds and
ANTICOLL fails; both succeed. -/
theorem witness_gate_presenceFails :
    (operate Config.cfg (.reqpres 0x26) (idleWith [0, 0, 1, 0, 0x08])).response = some (.presence 2 0) := by
  decide +kernel
theorem witness_gate_anticollFails :
    (operate Config.cfg .anticoll
      (operate Config.cfg (.reqpres 0x26) (idleWith [0, 0, 1, 0, 0, 0, 0, 0, 0, 1, 0, 0x08]))).response =
      some (.identifier 2 []) := by decide +kernel
theorem witness_gate_passes :
    (operate Config.cfg .anticoll
      (operate Config.cfg (.reqpres 0x26) (idleWith [0, 0, 1, 0, 0, 0, 0, 0, 0, 1, 0, 0, 1, 0, 0x04]))).response =
      some (.identifier 0 [0x04]) := by decide +kernel

/-- OperationsReadNoEarlierState: two idle states that differ in their registers and agree on the answers. -/
theorem witness_twoStates :
    State.reset.busy = false ∧ ({ State.reset with tmp := 0x55, send := [1, 2, 3], status := 2 } : State).busy = false ∧
      State.reset ≠ { State.reset with tmp := 0x55, send := [1, 2, 3], status := 2 } ∧
      ∀ k, State.reset.answer k = ({ State.reset with tmp := 0x55, send := [1, 2, 3], status := 2 } : State).answer k :=
  ⟨rfl, rfl, by decide, fun _ => rfl⟩

/-- OnlyListedAccesses: an operation that is neither WRREG nor RDREG. -/
theorem witness_builtOperation :
    Instr.anticoll.wellFormed = true ∧ (∀ a v, Instr.anticoll ≠ .wrreg a v) ∧ ∀ a, Instr.anticoll ≠ .rdreg a :=
  ⟨rfl, nofun, nofun⟩

/-- BusCarriesOnlyRegisterTransactions: a step from an idle block and one from a block in flight. -/
theorem witness_step : (∃ t, step (offered [0x00]) = .next t) ∧ ∃ t, step midRead = .next t := ⟨⟨_, rfl⟩, ⟨_, rfl⟩⟩

/-- StepKeepsTheInvariant: a read session and a write session in flight. -/
theorem witness_invariant_read : BlockInv midRead where
  csReleased := rfl
  busyPhase := by decide
  phaseOwner := rfl
  phaseNeeds := by show (1 : Nat) < 2; decide
  statusRange := .inl rfl
  failedEmpty := by decide
  vbcRange := by decide
  pollRange := by decide
  sendFits := by decide
  recvFits := by decide
  outFits := by decide
  textFits := by decide
  frameHead := fun _ _ => by decide
  readWindow := fun _ _ => by decide
  writeWindow := by decide
theorem witness_invariant_write : BlockInv midWrite where
  csReleased := rfl
  busyPhase := by decide
  phaseOwner := rfl
  phaseNeeds := ⟨rfl, rfl, rfl, rfl, by decide⟩
  statusRange := .inr rfl
  failedEmpty := fun _ => ⟨rfl, rfl⟩
  vbcRange := by decide
  pollRange := by decide
  sendFits := by decide
  recvFits := by decide
  outFits := by decide
  textFits := by decide +kernel
  frameHead := fun ⟨_, h⟩ => nomatch h
  readWindow := by decide
  writeWindow := fun _ _ => by decide +kernel

/-- The frames: every operation answers a next state from reset. -/
theorem witness_frames (i : Instr) : ∃ t, exec i State.reset = .next t := ⟨_, exec_idle rfl i⟩

end Sys2Proof.Tests
end

section
/-!
PROOFS. A step in flight is one transaction (R10), an operation depends on its operands and the chip's answers alone
(R11), and the sequencer's transactions lead to the meaning within the bounds of rule R227.
-/

namespace Sys2Proof.Machine

/-! ## Register changes around transactions -/

theorem Did.after_local {c s t u xs k} (h : Did c s t xs k) (g : LocalChange t u) : Did c s u xs k :=
  h.local_ g.bus g.answers g.drawn

theorem Did.before_local {c s t u xs k} (h : Did c t u xs k) (g : LocalChange s t) : Did c s u xs k :=
  h.from_ g.bus g.answers g.drawn

theorem LocalChange.symm {s t} (h : LocalChange s t) : LocalChange t s :=
  ⟨h.bus.symm, h.answers.symm, h.drawn.symm, h.requests.symm⟩

theorem LocalChange.answer {s t} (h : LocalChange s t) : t.answer = s.answer :=
  funext (answer_congr h.answers h.drawn)

theorem accept_local (i : Instr) (s : State) : LocalChange s (accept i s) := by
  cases i <;> exact ⟨rfl, rfl, rfl, rfl⟩

theorem startOp_local (i : Instr) (s : State) : LocalChange s (startOp i s) := by
  cases i <;> exact ⟨rfl, rfl, rfl, rfl⟩

theorem finish_local (r : Response) (s : State) : LocalChange s (finish r s) := ⟨rfl, rfl, rfl, rfl⟩

theorem appendCrc_local (s : State) : LocalChange s (appendCrc s) := ⟨rfl, rfl, rfl, rfl⟩

theorem appendPage_local (s : State) : LocalChange s (appendPage s) := ⟨rfl, rfl, rfl, rfl⟩

theorem nextPage_local (s : State) : LocalChange s (nextPage s) := ⟨rfl, rfl, rfl, rfl⟩

theorem clearOut_local (s : State) : LocalChange s (clearOut s) := ⟨rfl, rfl, rfl, rfl⟩

theorem beginChunks_local (s : State) : LocalChange s (beginChunks s) := ⟨rfl, rfl, rfl, rfl⟩

theorem chunkFrame_local (s : State) : LocalChange s (chunkFrame s) := ⟨rfl, rfl, rfl, rfl⟩

theorem readFrame_local (p : Byte) (s : State) : LocalChange s (readFrame p s) := ⟨rfl, rfl, rfl, rfl⟩

theorem requestFrame_local (mode : Byte) (s : State) : LocalChange s (requestFrame mode s) := ⟨rfl, rfl, rfl, rfl⟩

theorem anticollFrame_local (s : State) : LocalChange s (anticollFrame s) := ⟨rfl, rfl, rfl, rfl⟩

theorem writeFrame_local (p : Byte) (d : PageData) (s : State) : LocalChange s (writeFrame p d s) :=
  ⟨rfl, rfl, rfl, rfl⟩

theorem setPage_local (p : Byte) (s : State) : LocalChange s { s with page := p } := ⟨rfl, rfl, rfl, rfl⟩

/-! ## A step of an operation in flight (rules R10, R28 and R70) -/

/-- Settles O37: the step is a tick, and a tick is one transaction. -/
theorem stepInFlightIsOneTransaction : Obligations.StepInFlightIsOneTransaction := by
  intro s hb hp
  have hstep : step s = .next (tick Config.cfg s) := by simp [step, cycle, hb]
  obtain ⟨-, ⟨a, v, d⟩ | ⟨a, d⟩⟩ := tick_oneXact Config.cfg s hp
  · exact ⟨_, .write a v, hstep, by simpa using d.bus, .inl ⟨a, v, rfl, fun k => by simpa using d.answer k⟩⟩
  · exact ⟨_, .read a (s.answer 0), hstep, by simpa using d.bus,
      .inr ⟨a, rfl, fun k => by simpa [Nat.add_comm] using d.answer k⟩⟩

/-! ## Two states side by side (rule R11) -/

/-- The same is done outside from `a` to `a'` as from `b` to `b'`. -/
def Abreast (c : Cfg) (a b a' b' : State) : Prop := ∃ xs k, Did c a a' xs k ∧ Did c b b' xs k

section
variable {c : Cfg} {a b a' b' : State}

theorem Abreast.refl (c : Cfg) (a b : State) : Abreast c a b a b := ⟨[], 0, .refl c a, .refl c b⟩

theorem Abreast.trans {a'' b''} (h : Abreast c a b a' b') (g : Abreast c a' b' a'' b'') : Abreast c a b a'' b'' := by
  obtain ⟨xs, k, ha, hb⟩ := h
  obtain ⟨ys, l, ga, gb⟩ := g
  exact ⟨_, _, ha.trans ga, hb.trans gb⟩

theorem Abreast.after {a'' b''} (h : Abreast c a b a' b') (ga : LocalChange a' a'') (gb : LocalChange b' b'') :
    Abreast c a b a'' b'' := by
  obtain ⟨xs, k, ha, hb⟩ := h
  exact ⟨xs, k, ha.after_local ga, hb.after_local gb⟩

theorem Abreast.before {a0 b0} (h : Abreast c a b a' b') (ga : LocalChange a0 a) (gb : LocalChange b0 b) :
    Abreast c a0 b0 a' b' := by
  obtain ⟨xs, k, ha, hb⟩ := h
  exact ⟨xs, k, ha.before_local ga, hb.before_local gb⟩

theorem Abreast.answer (h : Abreast c a b a' b') (hab : a.answer = b.answer) : a'.answer = b'.answer := by
  obtain ⟨xs, k, ha, hb⟩ := h
  exact ha.answer_eq hb hab

/-- Registers changed before an exchange do not show outside. -/
theorem Alike.before_local {a0 b0} (h : Alike c a b a' b') (ga : LocalChange a0 a) (gb : LocalChange b0 b) :
    Alike c a0 b0 a' b' := h.before ((Did.refl c a0).after_local ga) ((Did.refl c b0).after_local gb)
end

/-! The records made from equal results of an exchange are equal. -/

section
variable {c : Cfg} {a b a' b' : State} (h : Alike c a b a' b')
include h

theorem Alike.exchangeResponse_eq : exchangeResponse a' = exchangeResponse b' := by
  simp only [exchangeResponse, h.status, h.recv, h.vbc]

theorem Alike.presenceResponse_eq : presenceResponse a' = presenceResponse b' := by
  simp only [presenceResponse, h.status, h.vbc]

theorem Alike.identifierResponse_eq : identifierResponse a' = identifierResponse b' := by
  simp only [identifierResponse, h.status, h.recv]

theorem Alike.pageResponse_eq : pageResponse a' = pageResponse b' := by
  simp only [pageResponse, h.status, h.recv]
end

/-- The gate depends on the answers alone. -/
theorem gate_alike (c : Cfg) (a b : State) (hab : a.answer = b.answer) : Alike c a b (gate c a) (gate c b) := by
  have hr := reqPres_alike c airReqIdle a b hab
  obtain ⟨xs, k, da, db⟩ := hr.did
  simp only [gate, hr.status]
  split
  · exact (antiColl_alike c _ _ (hr.answer hab)).before da db
  · exact hr

/-- RDPAGE depends on the page and the answers alone. -/
theorem rdPage_alike (c : Cfg) (p : Byte) (a b : State) (hab : a.answer = b.answer) :
    Alike c a b (rdPage c p a) (rdPage c p b) :=
  (sendWithCrc_alike c (readFrame p a) (readFrame p b) rfl (by simp) hab).before_local
    (readFrame_local p a) (readFrame_local p b)

/-- WRPAGE depends on the page, the four bytes and the answers alone. -/
theorem wrPage_alike (c : Cfg) (p : Byte) (d : PageData) (a b : State) (hab : a.answer = b.answer) :
    Alike c a b (wrPage c p d a) (wrPage c p d b) :=
  (sendWithCrc_alike c (writeFrame p d a) (writeFrame p d b) rfl (by simp) hab).before_local
    (writeFrame_local p d a) (writeFrame_local p d b)

/-- The page loop of RDTEXT depends on the text gathered so far and the answers alone. -/
theorem readPages_abreast (c : Cfg) (ps : List Byte) (a b : State) (hab : a.answer = b.answer) (ho : a.out = b.out) :
    Abreast c a b (readPages c ps a) (readPages c ps b) ∧ (readPages c ps a).out = (readPages c ps b).out := by
  induction ps generalizing a b with
  | nil => exact ⟨.refl c a b, ho⟩
  | cons p ps ih =>
    have hp := (rdPage_alike c p { a with page := p } { b with page := p } hab).before_local
      (setPage_local p a) (setPage_local p b)
    have hpage := Abreast.after hp.did (appendPage_local _) (appendPage_local _)
    have hout : (appendPage (rdPage c p { a with page := p })).out =
        (appendPage (rdPage c p { b with page := p })).out := by
      simp only [appendPage_out, rdPage_out, hp.status, hp.recv]
      rw [ho]
    obtain ⟨hrest, hend⟩ := ih _ _ (hpage.answer hab) hout
    exact ⟨hpage.trans hrest, hend⟩

/-- The chunk loop of WRTEXT depends on the text, the page and the answers alone. -/
theorem writeChunks_abreast (c : Cfg) (k : Nat) (a b : State) (hab : a.answer = b.answer) (ht : a.text = b.text)
    (hp : a.page = b.page) : Abreast c a b (writeChunks c k a) (writeChunks c k b) := by
  induction k generalizing a b with
  | zero => exact .refl c a b
  | succ k ih =>
    have hf : (chunkFrame a).send = (chunkFrame b).send := by simp [chunkIndex, ht, hp]
    have hchunk := (sendWithCrc_alike c (chunkFrame a) (chunkFrame b) hf (by simp) hab).before_local
      (chunkFrame_local a) (chunkFrame_local b)
    have hnext := Abreast.after hchunk.did (nextPage_local _) (nextPage_local _)
    exact hnext.trans (ih _ _ (hnext.answer hab) (by simpa [writeChunk] using ht) (by simp [hp]))

/-- A session depends on what its pages depend on, which is entered after a passed gate. -/
theorem session_abreast (c : Cfg) (pages : State → State) (a b : State) (hab : a.answer = b.answer)
    (hp : (gate c a).answer = (gate c b).answer →
      Abreast c (gate c a) (gate c b) (pages (gate c a)) (pages (gate c b)) ∧
        (pages (gate c a)).response = (pages (gate c b)).response) :
    Abreast c a b (session c pages a) (session c pages b) ∧
      (session c pages a).response = (session c pages b).response := by
  have hg := gate_alike c a b hab
  simp only [session, hg.status]
  split
  · obtain ⟨hpages, hresp⟩ := hp (hg.answer hab)
    exact ⟨Abreast.trans hg.did hpages, hresp⟩
  · exact ⟨Abreast.after hg.did (finish_local _ _) (finish_local _ _), by rw [finish_response, finish_response]⟩

theorem readWindow_abreast (c : Cfg) (a b : State) (hab : a.answer = b.answer) :
    Abreast c a b (readWindow c a) (readWindow c b) ∧ (readWindow c a).response = (readWindow c b).response := by
  obtain ⟨hpages, hout⟩ := readPages_abreast c [4#8, 5#8, 6#8, 7#8] (clearOut a) (clearOut b) hab rfl
  exact ⟨(hpages.after (finish_local _ _) (finish_local _ _)).before (clearOut_local a) (clearOut_local b),
    by simp [readWindow, hout]⟩

theorem writeText_abreast (c : Cfg) (a b : State) (hab : a.answer = b.answer) (ht : a.text = b.text) :
    Abreast c a b (writeText c a) (writeText c b) ∧ (writeText c a).response = (writeText c b).response := by
  have htext : (beginChunks a).text = (beginChunks b).text := by simp [ht]
  have hchunks := writeChunks_abreast c ((beginChunks b).text.length / pageBytes) (beginChunks a) (beginChunks b)
    hab htext rfl
  simp only [writeText, htext]
  exact ⟨(hchunks.after (finish_local _ _) (finish_local _ _)).before (beginChunks_local a) (beginChunks_local b),
    by rw [finish_response, finish_response]⟩

/-- The data bytes of WRPAGE stand where its meaning takes them from, whatever `SEND` held (rule R78). -/
theorem operandPage_accept_wrpage (p b0 b1 b2 b3 : Byte) (s : State) :
    operandPage (accept (.wrpage p b0 b1 b2 b3) s) = ⟨b0, b1, b2, b3⟩ := by
  rcases h : s.send with _ | ⟨x, _ | ⟨y, ys⟩⟩ <;> simp [operandPage, accept, landOperands, pageAt, h]

/-- What is alike from the acceptance on, and is answered alike, is alike from the request on. -/
theorem Abreast.answered {c : Cfg} {i : Instr} {a b a' b' : State} {r r' : Response}
    (h : Abreast c (accept i a) (accept i b) a' b') (hr : r = r') :
    Abreast c a b (finish r a') (finish r' b') ∧ (finish r a').response = (finish r' b').response :=
  ⟨(h.after (finish_local r a') (finish_local r' b')).before (accept_local i a) (accept_local i b),
    congrArg some hr⟩

/-- An operation depends on its operands and the answers alone (rule R11). -/
theorem operate_abreast (c : Cfg) (i : Instr) (a b : State) (hw : i.wellFormed = true) (hab : a.answer = b.answer) :
    Abreast c a b (operate c i a) (operate c i b) ∧ (operate c i a).response = (operate c i b).response := by
  have la := accept_local i a
  have lb := accept_local i b
  have hacc : (accept i a).answer = (accept i b).answer := by rw [la.answer, lb.answer, hab]
  cases i with
  | init => exact Abreast.answered ⟨_, _, wrReg_did c _ _ _, wrReg_did c _ _ _⟩ rfl
  | wrreg addr value => exact Abreast.answered ⟨_, _, wrReg_did c addr value _, wrReg_did c addr value _⟩ rfl
  | rdreg addr =>
    have db := rdReg_did c addr (accept (.rdreg addr) b)
    rw [← hacc] at db
    exact Abreast.answered ⟨_, _, rdReg_did c addr _, db⟩ (congrArg Response.value (congrFun hacc 0))
  | crccalc data =>
    simp only [Instr.wellFormed, decide_eq_true_eq] at hw
    obtain ⟨hd, hl, hh⟩ := crcCalc_alike c (accept (.crccalc data) a) (accept (.crccalc data) b) rfl hw hacc
    exact Abreast.answered hd (by simp only [crcResponse, hl, hh])
  | transcv cmd frame =>
    simp only [Instr.wellFormed, decide_eq_true_eq] at hw
    have h := transceive_alike c cmd (accept (.transcv cmd frame) a) (accept (.transcv cmd frame) b) rfl hw hacc
    exact Abreast.answered h.did h.exchangeResponse_eq
  | reqpres mode =>
    have h := reqPres_alike c mode _ _ hacc
    exact Abreast.answered h.did h.presenceResponse_eq
  | anticoll =>
    have h := antiColl_alike c _ _ hacc
    exact Abreast.answered h.did h.identifierResponse_eq
  | rdpage page =>
    have h := rdPage_alike c page _ _ hacc
    exact Abreast.answered h.did h.pageResponse_eq
  | wrpage page b0 b1 b2 b3 =>
    have h := wrPage_alike c page ⟨b0, b1, b2, b3⟩ _ _ hacc
    simp only [operate, runWrpage, operandPage_accept_wrpage]
    exact Abreast.answered h.did rfl
  | rdtext =>
    obtain ⟨h, hr⟩ := session_abreast c (readWindow c) _ _ hacc (readWindow_abreast c _ _)
    exact ⟨h.before la lb, hr⟩
  | wrtext text =>
    have ht : (gate c (accept (.wrtext text) a)).text = (gate c (accept (.wrtext text) b)).text := by
      simp only [gate_text]; rfl
    obtain ⟨h, hr⟩ := session_abreast c (writeText c) _ _ hacc fun hg => writeText_abreast c _ _ hg ht
    exact ⟨h.before la lb, hr⟩

/-- Settles O33: an operation does the same outside from two idle states with the same answers to come. -/
theorem operationsReadNoEarlierState : Obligations.OperationsReadNoEarlierState := by
  intro i a b hw ha hb hab
  have hans : a.answer = b.answer := funext hab
  obtain ⟨hout, hresp⟩ := operate_abreast Config.cfg i a b hw hans
  have hend := hout.answer hans
  obtain ⟨xs, k, da, db⟩ := hout
  exact ⟨_, _, xs, exec_idle ha i, exec_idle hb i, hresp, da.bus, db.bus, congrFun hend⟩

/-! ## Counting transactions (rule R227) -/

/-- From `s` to `t` at least `lo` and at most `hi` transactions are made. -/
def XactsWithin (c : Cfg) (s t : State) (lo hi : Nat) : Prop :=
  ∃ xs k, Did c s t xs k ∧ lo ≤ xs.length ∧ xs.length ≤ hi

section
variable {c : Cfg} {s t u : State} {lo hi lo' hi' : Nat}

theorem XactsWithin.refl (c : Cfg) (s : State) : XactsWithin c s s 0 0 := ⟨[], 0, .refl c s, le_rfl, le_rfl⟩

theorem XactsWithin.trans (h : XactsWithin c s t lo hi) (g : XactsWithin c t u lo' hi') :
    XactsWithin c s u (lo + lo') (hi + hi') := by
  obtain ⟨xs, k, d, h1, h2⟩ := h
  obtain ⟨ys, l, e, g1, g2⟩ := g
  exact ⟨_, _, d.trans e, by rw [List.length_append]; omega, by rw [List.length_append]; omega⟩

theorem XactsWithin.mono (h : XactsWithin c s t lo hi) (h1 : lo' ≤ lo) (h2 : hi ≤ hi') :
    XactsWithin c s t lo' hi' := by
  obtain ⟨xs, k, d, g1, g2⟩ := h
  exact ⟨xs, k, d, h1.trans g1, g2.trans h2⟩

theorem XactsWithin.after (h : XactsWithin c s t lo hi) (g : LocalChange t u) : XactsWithin c s u lo hi := by
  obtain ⟨xs, k, d, hx⟩ := h
  exact ⟨xs, k, d.after_local g, hx⟩

theorem XactsWithin.before (h : XactsWithin c t u lo hi) (g : LocalChange s t) : XactsWithin c s u lo hi := by
  obtain ⟨xs, k, d, hx⟩ := h
  exact ⟨xs, k, d.before_local g, hx⟩

/-- The ticks of a run are as many as the transactions made. -/
theorem XactsWithin.ticks {n} (h : XactsWithin c s t lo hi) (g : Runs c s t n) : lo ≤ n ∧ n ≤ hi := by
  obtain ⟨xs, k, d, h1, h2⟩ := h
  obtain ⟨ys, hy, rfl⟩ := g.transactions
  have hlen := congrArg List.length (List.append_cancel_left (d.bus.symm.trans hy))
  simp only [wires_length] at hlen
  omega
end

theorem wrReg_within (c : Cfg) (a v : Byte) (s : State) : XactsWithin c s (wrReg c a v s) 1 1 :=
  ⟨_, _, wrReg_did c a v s, le_rfl, le_rfl⟩

theorem rdReg_within (c : Cfg) (a : Byte) (s : State) : XactsWithin c s (rdReg c a s).2 1 1 :=
  ⟨_, _, rdReg_did c a s, le_rfl, le_rfl⟩

theorem crcTrace_length (c : Cfg) (data : List Byte) (f : Nat → Byte) (p : Nat) :
    (crcTrace c data f p).length = data.length + 7 + p := by
  simp [crcTrace, loadTrace, readTrace]; omega

theorem exchangeTrace_length (c : Cfg) (cmd : Byte) (frame : List Byte) (f : Nat → Byte) (p : Nat) :
    (exchangeTrace c cmd frame f p).length = frame.length + 9 + p := by
  simp [exchangeTrace, loadTrace, readTrace]; omega

theorem receiveTrace_length (c : Cfg) (f : Nat → Byte) : (receiveTrace c f).length = 2 + min (f 0).toNat 16 := by
  simp [receiveTrace, readTrace]; omega

theorem crcCalc_within (c : Cfg) {n : Nat} (s : State) (hn : s.send.length = n) (hs : n ≤ sendCap) :
    XactsWithin c s (crcCalc c s) (n + 8) (n + 262) := by
  obtain ⟨p, hp, hd, -⟩ := crcCalc_spec c s (hn ▸ hs)
  have h1 := hp.atLeastOnce
  have h2 : p ≤ 255 := hp.atMost
  exact ⟨_, _, hd, by rw [crcTrace_length]; omega, by rw [crcTrace_length]; omega⟩

/-- TRANSCV: the least is a chip error at the first read, the most a success at the last read with a full harvest; a
time-out takes all the reads of the poll. -/
theorem transceive_within (c : Cfg) (cmd : Byte) {n : Nat} (s : State) (hn : s.send.length = n) (hs : n ≤ sendCap) :
    XactsWithin c s (transceive c cmd s) (n + 11) (n + 2028) := by
  obtain ⟨p, hp, hout⟩ := transceive_spec c cmd s (hn ▸ hs)
  have h1 := hp.atLeastOnce
  have h2 : p ≤ 2000 := hp.atMost
  rcases hout with ⟨hx, hd, -⟩ | ⟨-, -, hd, -⟩ | ⟨-, -, hd, -⟩
  · have hfull : p = 2000 := hp.stops.resolve_right (by
      rw [show 2 + (p - 1) = 1 + p by omega]; exact absurd hx)
    exact ⟨_, _, hd, by rw [exchangeTrace_length]; omega, by rw [exchangeTrace_length]; omega⟩
  all_goals
    refine ⟨_, _, hd, ?_, ?_⟩ <;>
      simp only [List.length_append, List.length_cons, List.length_nil, exchangeTrace_length, receiveTrace_length] <;>
      omega

/-- A page access with a frame head of `n` bytes, which the CRC makes two longer. -/
theorem sendWithCrc_within (c : Cfg) {n : Nat} (s : State) (hn : s.send.length = n) (hs : n + 2 ≤ sendCap) :
    XactsWithin c s (sendWithCrc c s) ((n + 8) + (n + 2 + 11)) ((n + 262) + (n + 2 + 2028)) :=
  ((crcCalc_within c s hn (by omega)).after (appendCrc_local _)).trans
    (transceive_within c c.cmdTransceive _ (by simp [hn]) hs)

theorem rdPage_within (c : Cfg) (p : Byte) (s : State) : XactsWithin c s (rdPage c p s) 25 2296 :=
  (sendWithCrc_within c (n := 2) (readFrame p s) rfl (by decide)).before (readFrame_local p s)

theorem wrPage_within (c : Cfg) (p : Byte) (d : PageData) (s : State) : XactsWithin c s (wrPage c p d s) 33 2304 :=
  (sendWithCrc_within c (n := 6) (writeFrame p d s) rfl (by decide)).before (writeFrame_local p d s)

theorem writeChunk_within (c : Cfg) (s : State) : XactsWithin c s (writeChunk c s) 33 2304 :=
  (sendWithCrc_within c (n := 6) (chunkFrame s) rfl (by decide)).before (chunkFrame_local s)

theorem reqPres_within (c : Cfg) (mode : Byte) (s : State) : XactsWithin c s (reqPres c mode s) 13 2030 :=
  ((wrReg_within c c.aBitFraming vFrame7 s).after (requestFrame_local mode _)).trans
    (transceive_within c c.cmdTransceive (n := 1) _ (by simp) (by decide))

theorem antiColl_within (c : Cfg) (s : State) : XactsWithin c s (antiColl c s) 14 2031 :=
  ((wrReg_within c c.aBitFraming vFrame8 s).after (anticollFrame_local _)).trans
    (transceive_within c c.cmdTransceive (n := 2) _ (by simp) (by decide))

/-- The least of a gate is a failed REQPRES. -/
theorem gate_within (c : Cfg) (s : State) : XactsWithin c s (gate c s) 13 4061 := by
  have hr := reqPres_within c airReqIdle s
  unfold gate
  dsimp only
  split
  · exact (hr.trans (antiColl_within c _)).mono (by decide) le_rfl
  · exact hr.mono le_rfl (by decide)

theorem readPages_within (c : Cfg) (ps : List Byte) (s : State) :
    XactsWithin c s (readPages c ps s) 0 (2296 * ps.length) := by
  induction ps generalizing s with
  | nil => exact .refl c s
  | cons p ps ih =>
    have hp := ((rdPage_within c p { s with page := p }).before (setPage_local p s)).after (appendPage_local _)
    exact (hp.trans (ih _)).mono (Nat.zero_le _) (by rw [List.length_cons]; omega)

theorem writeChunks_within (c : Cfg) (k : Nat) (s : State) : XactsWithin c s (writeChunks c k s) 0 (2304 * k) := by
  induction k generalizing s with
  | zero => exact .refl c s
  | succ k ih =>
    exact (((writeChunk_within c s).after (nextPage_local _)).trans (ih _)).mono (Nat.zero_le _) (by omega)

theorem readWindow_within (c : Cfg) (s : State) : XactsWithin c s (readWindow c s) 0 9184 :=
  ((readPages_within c [4#8, 5#8, 6#8, 7#8] (clearOut s)).before (clearOut_local s)).after (finish_local _ _)

/-- A padded text has at most 252 chunks. -/
theorem writeText_within (c : Cfg) (s : State) (hs : s.text.length ≤ textMax) :
    XactsWithin c s (writeText c s) 0 580608 := by
  have hchunks : (beginChunks s).text.length / pageBytes ≤ 252 := by
    obtain ⟨hmod, -, hlt⟩ := padText_length s.text
    simp only [textMax] at hs
    simp only [beginChunks_text, pageBytes]
    omega
  exact (((writeChunks_within c _ (beginChunks s)).before (beginChunks_local s)).after (finish_local _ _)).mono
    le_rfl (by omega)

theorem session_within (c : Cfg) (pages : State → State) (s : State) (hi : Nat)
    (hp : XactsWithin c (gate c s) (pages (gate c s)) 0 hi) : XactsWithin c s (session c pages s) 13 (4061 + hi) := by
  have hg := gate_within c s
  unfold session
  dsimp only
  split
  · exact hg.trans hp
  · exact (hg.after (finish_local _ _)).mono le_rfl (by omega)

/-- The acceptance and the answer make no transaction. -/
theorem XactsWithin.answered {c : Cfg} {i : Instr} {s t : State} {lo hi : Nat} {r : Response}
    (h : XactsWithin c (accept i s) t lo hi) : XactsWithin c s (finish r t) lo hi :=
  (h.after (finish_local r t)).before (accept_local i s)

/-- Every operation is within the bounds of rule R227. -/
theorem operate_within (c : Cfg) (i : Instr) (s : State) (hw : i.wellFormed = true) :
    XactsWithin c s (operate c i s) (leastXacts i) (mostXacts i) := by
  cases i with
  | init => exact (wrReg_within c _ _ _).answered
  | wrreg addr value => exact (wrReg_within c _ _ _).answered
  | rdreg addr => exact (rdReg_within c _ _).answered
  | crccalc data =>
    simp only [Instr.wellFormed, decide_eq_true_eq] at hw
    exact (crcCalc_within c (accept (.crccalc data) s) rfl hw).answered
  | transcv cmd frame =>
    simp only [Instr.wellFormed, decide_eq_true_eq] at hw
    exact (transceive_within c cmd (accept (.transcv cmd frame) s) rfl hw).answered
  | reqpres mode => exact (reqPres_within c _ _).answered
  | anticoll => exact (antiColl_within c _).answered
  | rdpage page => exact (rdPage_within c _ _).answered
  | wrpage page b0 b1 b2 b3 => exact (wrPage_within c _ _ _).answered
  | rdtext => exact (session_within c _ _ _ (readWindow_within c _)).before (accept_local _ s)
  | wrtext text =>
    simp only [Instr.wellFormed, decide_eq_true_eq] at hw
    have ht : (gate c (accept (.wrtext text) s)).text.length ≤ textMax := by rw [gate_text]; exact hw
    exact (session_within c _ _ _ (writeText_within c _ ht)).before (accept_local _ s)

/-! ## From a request to the end of its operation (rules R27 to R29) -/

theorem session_busy (c : Cfg) (pages : State → State) (hp : ∀ g, (pages g).busy = false) (s : State) :
    (session c pages s).busy = false := by
  unfold session
  dsimp only
  split
  · exact hp _
  · rfl

/-- An operation ends with `BUSY` = 0 (rule R29). -/
theorem operate_busy (c : Cfg) (i : Instr) (s : State) : (operate c i s).busy = false := by
  cases i with
  | rdtext => exact session_busy c _ (fun _ => rfl) _
  | wrtext text => exact session_busy c _ (fun _ => rfl) _
  | _ => rfl

/-- What the decoder accepts is well formed: a length byte is at most 255, and a longer text is refused. -/
theorem wellFormed_of_decode {d : List Byte} {i : Instr} (h : decode d = .ok i) : i.wellFormed = true := by
  cases d with
  | nil => simp [decode] at h
  | cons op rest =>
    simp only [decode, decodeOperands] at h
    repeat' split at h
    all_goals cases h
    all_goals simp only [Instr.wellFormed, decide_eq_true_eq]
    -- what is left of CRCCALC and TRANSCV, whose length is a byte, and of WRTEXT
    · next len _ hlen => exact hlen.le.trans (Nat.le_of_lt_succ len.isLt)
    · next len _ hlen => exact hlen.le.trans (Nat.le_of_lt_succ len.isLt)
    · next hmax hlen => omega

section
variable {s : State} {d : List Byte} {rest : List (List Byte)} {i : Instr}

theorem step_of_request (hb : s.busy = false) (hr : s.requests = d :: rest) (hd : decode d = .ok i) :
    step s = exec i (takeRequest s) := by
  simp [step, hb, hr, hd]

theorem cycle_of_request (c : Cfg) (hb : s.busy = false) (hr : s.requests = d :: rest) (hd : decode d = .ok i) :
    cycle c s = startOp i (takeRequest s) := by
  simp [cycle, hb, hr, hd]
end

/-- Settles O38: after the acceptance the ticks of `runs_operate` lead to the end, one transaction each. -/
theorem sequencerReachesTheMeaning : Obligations.SequencerReachesTheMeaning := by
  intro s d rest i hb hr hd
  have hw := wellFormed_of_decode hd
  have hacc := cycle_of_request Config.cfg hb hr hd
  obtain ⟨n, hruns⟩ := runs_operate Config.cfg i (takeRequest s) hw
  obtain ⟨hend, hbusy⟩ := hruns.cycles
  have hwithin := (operate_within Config.cfg i (takeRequest s) hw).before (startOp_local i (takeRequest s)).symm
  obtain ⟨hleast, hmost⟩ := hwithin.ticks hruns
  refine ⟨_, n, (step_of_request hb hr hd).trans (exec_idle (s := takeRequest s) hb i), ?_, operate_busy _ i _, hleast,
    hmost, ?_⟩
  · rw [Function.iterate_succ_apply, hacc, hend]
  · intro k h1 hk
    obtain ⟨j, rfl⟩ : ∃ j, k = j + 1 := ⟨k - 1, by omega⟩
    rw [Function.iterate_succ_apply, hacc]
    exact hbusy j hk

end Sys2Proof.Machine
end

section
/-!
PROOFS. The state of the block (10_state.md): reset and the idle block (R36), the invariant every step keeps (R20 to
R28), the answer of every operation (R29, R79), and the accesses an operation makes (R31, R34).
-/

namespace Sys2Proof.Machine

/-! ## The invariant of the block (rules R20 to R28) -/

/-- The invariant speaks of no part of the host port. -/
theorem BlockInv.hostPort {s : State} (h : BlockInv s) (r : Option Response) (qs : List (List Byte)) :
    BlockInv { s with response := r, requests := qs } :=
  ⟨h.csReleased, h.busyPhase, h.phaseOwner, h.phaseNeeds, h.statusRange, h.failedEmpty, h.vbcRange, h.pollRange,
    h.sendFits, h.recvFits, h.outFits, h.textFits, h.frameHead, h.readWindow, h.writeWindow⟩

/-- Ticks in a row keep the invariant. -/
theorem Runs.inv {c s t n} (h : Runs c s t n) (hs : BlockInv s) : BlockInv t := by
  induction h with
  | nil s => exact hs
  | cons hb hp h ih => exact ih (tick_inv c _ hs hb)

/-- An operation keeps the invariant: it is an acceptance and the ticks after it. -/
theorem operate_inv (c : Cfg) (i : Instr) (s : State) (hs : BlockInv s) (hw : i.wellFormed = true) :
    BlockInv (operate c i s) := by
  obtain ⟨n, hruns⟩ := runs_operate c i s hw
  exact hruns.inv (startOp_inv i s hs hw)

/-- What a step can do: one tick of the operation in flight, nothing without a request, or the request presented is
run to its end or refused (rules R77, R92 and R221). -/
theorem step_cases (s : State) :
    (s.busy = true ∧ step s = .next (tick Config.cfg s)) ∨
    (s.busy = false ∧ s.requests = [] ∧ step s = .next s) ∨
    (∃ d rest i, s.busy = false ∧ s.requests = d :: rest ∧ decode d = .ok i ∧
      step s = .next (operate Config.cfg i (takeRequest s))) ∨
    (∃ d rest e, s.busy = false ∧ s.requests = d :: rest ∧ decode d = .error e ∧
      step s = .next (refuse (takeRequest s))) := by
  cases hb : s.busy with
  | true => exact .inl ⟨rfl, by simp [step, cycle, hb]⟩
  | false =>
    cases hr : s.requests with
    | nil => exact .inr (.inl ⟨rfl, rfl, by simp [step, hb, hr]⟩)
    | cons d rest =>
      cases hd : decode d with
      | ok i =>
        exact .inr (.inr (.inl ⟨d, rest, i, rfl, rfl, hd, (step_of_request hb hr hd).trans
          (exec_idle (s := takeRequest s) hb i)⟩))
      | error e => exact .inr (.inr (.inr ⟨d, rest, e, rfl, rfl, hd, by simp [step, hb, hr, hd]⟩))

/-- Settles O40: a tick keeps the invariant, and so does each thing an idle block can do with a request. -/
theorem stepKeepsTheInvariant : Obligations.StepKeepsTheInvariant := by
  intro s t hs hst
  have htaken : BlockInv (takeRequest s) := hs.hostPort s.response s.requests.tail
  obtain ⟨hb, h⟩ | ⟨-, -, h⟩ | ⟨d, rest, i, -, -, hd, h⟩ | ⟨d, rest, e, -, -, -, h⟩ := step_cases s <;>
    cases h.symm.trans hst
  · exact tick_inv Config.cfg s hs hb
  · exact hs
  · exact operate_inv Config.cfg i (takeRequest s) htaken (wellFormed_of_decode hd)
  · exact htaken.hostPort (some .refused) s.requests.tail

/-- Settles O39: the reset values of log entry 4 are in the ranges of the invariant, and no operation is in flight. -/
theorem resetMeetsTheInvariant : Obligations.ResetMeetsTheInvariant where
  csReleased := rfl
  busyPhase := by decide
  phaseOwner := rfl
  phaseNeeds := trivial
  statusRange := .inl rfl
  failedEmpty := by decide
  vbcRange := vbc_zero_range
  pollRange := by decide
  sendFits := by decide
  recvFits := by decide
  outFits := by decide
  textFits := by decide
  frameHead := fun ⟨_, h⟩ => nomatch h
  readWindow := by decide
  writeWindow := by decide

/-! ## The idle block (rule R36) -/

/-- Settles O9: of the cases of a step, only the one without a request is left. -/
theorem idleBlockWaits : Obligations.IdleBlockWaits := by
  intro s hb hr
  obtain ⟨h, -⟩ | ⟨-, -, h⟩ | ⟨d, rest, i, -, h, -⟩ | ⟨d, rest, e, -, h, -⟩ := step_cases s
  · simp [hb] at h
  · exact h
  · simp [hr] at h
  · simp [hr] at h

/-- Settles O10: reset holds no request, so the step after it is that of an idle block. -/
theorem resetLeavesTheBlockIdle : Obligations.ResetLeavesTheBlockIdle :=
  ⟨rfl, rfl, rfl, rfl, idleBlockWaits State.reset rfl rfl⟩

/-! ## The results of an exchange (rules R22, R24 and R26) -/

/-- What TRANSCV leaves in its result registers, whatever the outcome. -/
structure ExchangeResult (s : State) : Prop where
  statusRange : s.status = 0 ∨ s.status = 2
  failedEmpty : s.status = 2 → s.recv = [] ∧ s.vbc = 0
  recvFits : s.recv.length ≤ 16
  vbcRange : -7 ≤ s.vbc.toInt ∧ s.vbc.toInt ≤ 2040

/-- The results of a time-out and of a chip error. -/
theorem ExchangeResult.failed {s : State} (hst : s.status = statusErr) (hr : s.recv = []) (hv : s.vbc = 0) :
    ExchangeResult s :=
  ⟨.inr hst, fun _ => ⟨hr, hv⟩, by simp [hr], by rw [hv]; exact vbc_zero_range⟩

theorem transceive_result (c : Cfg) (cmd : Byte) (s : State) (hs : s.send.length ≤ sendCap) :
    ExchangeResult (transceive c cmd s) := by
  obtain ⟨p, -, ⟨-, -, hst, hr, hv⟩ | ⟨-, -, -, hst, hr, hv⟩ | ⟨-, -, -, hst, hr, hv⟩⟩ := transceive_spec c cmd s hs
  · exact .failed hst hr hv
  · exact .failed hst hr hv
  · exact
      { statusRange := .inl hst
        failedEmpty := fun h => absurd (hst.symm.trans h) (by decide)
        recvFits := by rw [hr, List.length_map, List.length_range]; exact Nat.min_le_right _ _
        vbcRange := by
          have hrange := validBitCount_range (s.answer (4 + p)) (s.answer (5 + p))
          rwa [hv, vbc_toInt _ hrange] }

theorem reqPres_result (c : Cfg) (mode : Byte) (s : State) : ExchangeResult (reqPres c mode s) :=
  transceive_result c _ _ (by simp)

theorem antiColl_result (c : Cfg) (s : State) : ExchangeResult (antiColl c s) :=
  transceive_result c _ _ (by simp [sendCap])

theorem rdPage_result (c : Cfg) (page : Byte) (s : State) : ExchangeResult (rdPage c page s) :=
  transceive_result c _ _ (by simp [sendCap])

/-- Settles O24: TRANSCV answers with its result registers. -/
theorem transceiveResultIsConsistent : Obligations.TransceiveResultIsConsistent := by
  intro cmd frame s hf hb
  have hres := transceive_result Config.cfg cmd (accept (.transcv cmd frame) s) hf
  refine ⟨_, _, _, _, exec_idle hb _, rfl, rfl, rfl, rfl, hres.statusRange, fun h => ?_⟩
  obtain ⟨hr, hv⟩ := hres.failedEmpty h
  exact ⟨hr, congrArg BitVec.toInt hv⟩

/-! ## Chip-select after an operation (rules R65 and R82) -/

@[simp] theorem crcCalc_cs (c : Cfg) (s : State) : (crcCalc c s).cs = false := rfl

theorem harvestLoop_cs (c : Cfg) (k : Nat) (s : State) (h : s.cs = false) : (harvestLoop c k s).cs = false := by
  induction k generalizing s with
  | zero => exact h
  | succ k ih => exact ih _ rfl

theorem resolve_cs (c : Cfg) (s : State) (h : s.cs = false) : (resolve c s).cs = false := by
  unfold resolve
  dsimp only
  split
  · split
    · rfl
    · exact harvestLoop_cs c _ _ rfl
  · exact h

@[simp] theorem transceive_cs (c : Cfg) (cmd : Byte) (s : State) : (transceive c cmd s).cs = false :=
  resolve_cs c _ rfl

@[simp] theorem sendWithCrc_cs (c : Cfg) (s : State) : (sendWithCrc c s).cs = false := transceive_cs c _ _

@[simp] theorem gate_cs (c : Cfg) (s : State) : (gate c s).cs = false := by
  unfold gate
  dsimp only
  split <;> exact transceive_cs c _ _

theorem readPages_cs (c : Cfg) (ps : List Byte) (s : State) (h : s.cs = false) : (readPages c ps s).cs = false := by
  induction ps generalizing s with
  | nil => exact h
  | cons p ps ih => exact ih _ (sendWithCrc_cs c _)

theorem writeChunks_cs (c : Cfg) (k : Nat) (s : State) (h : s.cs = false) : (writeChunks c k s).cs = false := by
  induction k generalizing s with
  | zero => exact h
  | succ k ih => exact ih _ (sendWithCrc_cs c _)

/-! ## The answer of an operation (rules R29 and R79) -/

/-- Each page read adds a page's four bytes to the text, or none. -/
theorem readPages_out_length (c : Cfg) (ps : List Byte) (s : State) :
    (readPages c ps s).out.length % 4 = s.out.length % 4 ∧
      (readPages c ps s).out.length ≤ s.out.length + 4 * ps.length := by
  induction ps generalizing s with
  | nil => exact ⟨rfl, le_rfl⟩
  | cons p ps ih =>
    obtain ⟨hmod, hle⟩ := ih (appendPage (rdPage c p { s with page := p }))
    have hbytes := pageBytes_length (rdPage c p { s with page := p }).status (rdPage c p { s with page := p }).recv
    simp only [appendPage_out, rdPage_out, List.length_append] at hmod hle
    rw [readPages, List.length_cons]
    omega

/-- `t` is the end of an operation of instruction `i`: chip-select is released and the response written is one that
rule R79 gives `i`. -/
def Answered (i : Instr) (t : State) : Prop := ∃ r u, t = finish r u ∧ ResponseFits i r ∧ u.cs = false

theorem readWindow_answered (c : Cfg) (s : State) (h : s.cs = false) : Answered .rdtext (readWindow c s) := by
  obtain ⟨hmod, hle⟩ := readPages_out_length c [4#8, 5#8, 6#8, 7#8] (clearOut s)
  exact ⟨_, _, rfl, .inr ⟨_, rfl, hmod, hle⟩, readPages_cs c _ _ h⟩

theorem writeText_answered (c : Cfg) (text : List Byte) (s : State) (h : s.cs = false) :
    Answered (.wrtext text) (writeText c s) :=
  ⟨_, _, rfl, .inr rfl, writeChunks_cs c _ _ h⟩

theorem session_answered (c : Cfg) (i : Instr) (pages : State → State) (s : State) (hn : ResponseFits i .null)
    (hp : Answered i (pages (gate c s))) : Answered i (session c pages s) := by
  unfold session
  dsimp only
  split
  · exact hp
  · exact ⟨_, _, rfl, hn, gate_cs c s⟩

/-- Every operation ends in an answer of its row. -/
theorem operate_answered (c : Cfg) (i : Instr) (s : State) (hw : i.wellFormed = true) : Answered i (operate c i s) := by
  cases i with
  | init => exact ⟨_, _, rfl, rfl, rfl⟩
  | wrreg addr value => exact ⟨_, _, rfl, rfl, rfl⟩
  | rdreg addr => exact ⟨_, _, rfl, ⟨_, rfl⟩, rfl⟩
  | crccalc data => exact ⟨_, _, rfl, ⟨_, _, rfl⟩, crcCalc_cs c _⟩
  | transcv cmd frame =>
    simp only [Instr.wellFormed, decide_eq_true_eq] at hw
    have h := transceive_result c cmd (accept (.transcv cmd frame) s) hw
    exact ⟨_, _, rfl, ⟨_, _, _, rfl, h.statusRange, h.recvFits, h.vbcRange⟩, transceive_cs c _ _⟩
  | reqpres mode => exact ⟨_, _, rfl, ⟨_, _, rfl, (reqPres_result c _ _).statusRange⟩, transceive_cs c _ _⟩
  | anticoll =>
    have h := antiColl_result c (accept .anticoll s)
    exact ⟨_, _, rfl, ⟨_, _, rfl, h.statusRange, h.recvFits⟩, transceive_cs c _ _⟩
  | rdpage page =>
    have h := rdPage_result c page (accept (.rdpage page) s)
    exact ⟨_, _, rfl, ⟨_, _, _, rfl, h.statusRange, h.recvFits⟩, transceive_cs c _ _⟩
  | wrpage page b0 b1 b2 b3 => exact ⟨_, _, rfl, rfl, transceive_cs c _ _⟩
  | rdtext => exact session_answered c _ _ _ (.inl rfl) (readWindow_answered c _ (gate_cs c _))
  | wrtext text => exact session_answered c _ _ _ (.inl rfl) (writeText_answered c text _ (gate_cs c _))

/-- Ticks in a row leave the requests that wait alone (rule R77). -/
theorem Runs.requests {c s t n} (h : Runs c s t n) : t.requests = s.requests := by
  induction h with
  | nil s => rfl
  | cons hb hp h ih => exact ih.trans (tick_oneXact c _ hp).1

theorem operate_requests (c : Cfg) (i : Instr) (s : State) (hw : i.wellFormed = true) :
    (operate c i s).requests = s.requests := by
  obtain ⟨n, hruns⟩ := runs_operate c i s hw
  exact hruns.requests.trans (startOp_local i s).requests

/-- Settles O12: an accepted operation runs to its end, where the response of its row is written. -/
theorem everyOperationAnswers : Obligations.EveryOperationAnswers := by
  intro i s hw hb
  obtain ⟨r, u, hend, hfits, hcs⟩ := operate_answered Config.cfg i s hw
  have hreq := operate_requests Config.cfg i s hw
  rw [hend] at hreq
  exact ⟨finish r u, r, hend ▸ exec_idle hb i, rfl, rfl, hcs, rfl, hfits, hreq⟩

/-! ## The accesses rule R31 lists -/

section
variable (c : Cfg) {cmds : List Byte} (v : Byte)

/-- The registers that may be read. -/
@[simp] theorem accessListed_read (a : Byte) :
    AccessListed c cmds (.read a v) ↔ a = c.aComIrq ∨ a = c.aDivIrq ∨ a = c.aError ∨ a = c.aFifoData ∨
      a = c.aFifoLevel ∨ a = c.aControl ∨ a = c.aBitFraming ∨ a = c.aCrcResultL ∨ a = c.aCrcResultH := by
  simp [AccessListed]

theorem accessListed_command {cmd : Byte} (h : cmd ∈ cmds) : AccessListed c cmds (.write c.aCommand cmd) :=
  .inl ⟨cmd, h, rfl⟩

@[simp] theorem accessListed_enable : AccessListed c cmds (.write c.aComIEn c.vIrqEn) := by simp [AccessListed]

@[simp] theorem accessListed_load : AccessListed c cmds (.write c.aFifoData v) := by simp [AccessListed]

@[simp] theorem accessListed_clearDone : AccessListed c cmds (.write c.aDivIrq (v &&& ~~~c.mCrcDone.byte)) := by
  unfold AccessListed; tauto

@[simp] theorem accessListed_flush : AccessListed c cmds (.write c.aFifoLevel (v ||| c.mFlush.byte)) := by
  unfold AccessListed; tauto

@[simp] theorem accessListed_frame7 : AccessListed c cmds (.write c.aBitFraming vFrame7) := by simp [AccessListed]

@[simp] theorem accessListed_frame8 : AccessListed c cmds (.write c.aBitFraming vFrame8) := by simp [AccessListed]

@[simp] theorem accessListed_start : AccessListed c cmds (.write c.aBitFraming (v ||| 0x80#8)) := by
  unfold AccessListed; tauto

@[simp] theorem accessListed_stop : AccessListed c cmds (.write c.aBitFraming (v &&& 0x7F#8)) := by
  unfold AccessListed; tauto
end

theorem AccessListed.mono {c : Cfg} {cmds cmds' : List Byte} {x : Xact} (h : AccessListed c cmds x)
    (hs : cmds ⊆ cmds') : AccessListed c cmds' x :=
  h.imp_left fun ⟨cmd, hm, hx⟩ => ⟨cmd, hs hm, hx⟩

section
variable (c : Cfg) {cmds : List Byte}

theorem loadTrace_listed (bytes : List Byte) : ∀ x ∈ loadTrace c bytes, AccessListed c cmds x := by
  simp [loadTrace]

theorem readTrace_listed {a : Byte} (ha : ∀ v, AccessListed c cmds (.read a v)) (f : Nat → Byte) (k : Nat) :
    ∀ x ∈ readTrace a f k, AccessListed c cmds x := by
  simp only [readTrace, List.forall_mem_map]
  exact fun _ _ => ha _

/-- CRCCALC, whatever the poll and the answers are. -/
theorem crcTrace_listed (data : List Byte) (f : Nat → Byte) (p : Nat) :
    ∀ x ∈ crcTrace c data f p, AccessListed c [c.cmdCalcCrc] x := by
  simp only [crcTrace, List.forall_mem_append]
  refine ⟨⟨⟨⟨?_, loadTrace_listed c data⟩, ?_⟩, readTrace_listed c (by simp) _ p⟩, ?_⟩
  · simp
  · simp [accessListed_command]
  · simp

/-- Steps S1 to S8 of TRANSCV. -/
theorem exchangeTrace_listed (cmd : Byte) (frame : List Byte) (f : Nat → Byte) (p : Nat) :
    ∀ x ∈ exchangeTrace c cmd frame f p, AccessListed c [c.cmdIdle, cmd] x := by
  simp only [exchangeTrace, List.forall_mem_append]
  refine ⟨⟨⟨⟨?_, loadTrace_listed c frame⟩, ?_⟩, readTrace_listed c (by simp) _ p⟩, ?_⟩
  · simp [accessListed_command]
  · simp [accessListed_command]
  · simp

/-- Steps S12 and S13 of TRANSCV. -/
theorem receiveTrace_listed (f : Nat → Byte) : ∀ x ∈ receiveTrace c f, AccessListed c cmds x := by
  simp only [receiveTrace, List.forall_mem_append]
  exact ⟨by simp, readTrace_listed c (by simp) _ _⟩
end

/-! ## The accesses of an operation (rules R31 and R34) -/

/-- From `s` to `t` only listed accesses are made, with command codes of `cmds`. -/
def Listed (c : Cfg) (cmds : List Byte) (s t : State) : Prop :=
  ∃ xs, t.bus = s.bus ++ wires c xs ∧ ∀ x ∈ xs, AccessListed c cmds x

section
variable {c : Cfg} {cmds cmds' : List Byte} {s t u : State}

theorem Did.listed {xs k} (h : Did c s t xs k) (hx : ∀ x ∈ xs, AccessListed c cmds x) : Listed c cmds s t :=
  ⟨xs, h.bus, hx⟩

theorem Listed.refl (c : Cfg) (cmds : List Byte) (s : State) : Listed c cmds s s := (Did.refl c s).listed (by simp)

theorem Listed.trans (h : Listed c cmds s t) (g : Listed c cmds t u) : Listed c cmds s u := by
  obtain ⟨xs, hb, hx⟩ := h
  obtain ⟨ys, gb, gy⟩ := g
  exact ⟨xs ++ ys, by rw [gb, hb, wires_append, List.append_assoc], List.forall_mem_append.2 ⟨hx, gy⟩⟩

theorem Listed.mono (h : Listed c cmds s t) (hs : cmds ⊆ cmds') : Listed c cmds' s t := by
  obtain ⟨xs, hb, hx⟩ := h
  exact ⟨xs, hb, fun x hm => (hx x hm).mono hs⟩

theorem Listed.after (h : Listed c cmds s t) (g : LocalChange t u) : Listed c cmds s u := by
  obtain ⟨xs, hb, hx⟩ := h
  exact ⟨xs, g.bus.trans hb, hx⟩

theorem Listed.before (h : Listed c cmds t u) (g : LocalChange s t) : Listed c cmds s u := by
  obtain ⟨xs, hb, hx⟩ := h
  exact ⟨xs, g.bus ▸ hb, hx⟩

/-- The acceptance and the answer make no access. -/
theorem Listed.answered {i : Instr} {r : Response} (h : Listed c cmds (accept i s) t) : Listed c cmds s (finish r t) :=
  (h.after (finish_local r t)).before (accept_local i s)
end

/-- The command codes of a page access: those of CRCCALC and of an exchange. -/
def pageCodes (c : Cfg) : List Byte := [c.cmdCalcCrc, c.cmdIdle, c.cmdTransceive]

section
variable (c : Cfg)

theorem exchangeCodes_subset : [c.cmdIdle, c.cmdTransceive] ⊆ pageCodes c := List.subset_cons_self _ _

theorem wrReg_listed {cmds : List Byte} {a v : Byte} (h : AccessListed c cmds (.write a v)) (s : State) :
    Listed c cmds s (wrReg c a v s) :=
  (wrReg_did c a v s).listed (by simpa using h)

theorem crcCalc_listed (s : State) (hs : s.send.length ≤ sendCap) : Listed c [c.cmdCalcCrc] s (crcCalc c s) := by
  obtain ⟨p, -, hd, -⟩ := crcCalc_spec c s hs
  exact hd.listed (crcTrace_listed c _ _ p)

/-- TRANSCV: each of its three outcomes reads listed registers only after the exchange. -/
theorem transceive_listed (cmd : Byte) (s : State) (hs : s.send.length ≤ sendCap) :
    Listed c [c.cmdIdle, cmd] s (transceive c cmd s) := by
  obtain ⟨p, -, ⟨-, hd, -⟩ | ⟨-, -, hd, -⟩ | ⟨-, -, hd, -⟩⟩ := transceive_spec c cmd s hs <;> refine hd.listed ?_
  · exact exchangeTrace_listed c cmd _ _ p
  · exact List.forall_mem_append.2 ⟨exchangeTrace_listed c cmd _ _ p, by simp⟩
  · exact List.forall_mem_append.2
      ⟨exchangeTrace_listed c cmd _ _ p, List.forall_mem_cons.2 ⟨by simp, receiveTrace_listed c _⟩⟩

theorem sendWithCrc_listed (s : State) (hs : s.send.length ≤ 6) : Listed c (pageCodes c) s (sendWithCrc c s) := by
  have hcrc := (crcCalc_listed c s (hs.trans (by decide))).mono (cmds' := pageCodes c) (by simp [pageCodes])
  have htrx := transceive_listed c c.cmdTransceive (appendCrc (crcCalc c s)) (by simp [sendCap]; omega)
  exact (hcrc.after (appendCrc_local _)).trans (htrx.mono (exchangeCodes_subset c))

theorem rdPage_listed (page : Byte) (s : State) : Listed c (pageCodes c) s (rdPage c page s) :=
  (sendWithCrc_listed c (readFrame page s) (by simp)).before (readFrame_local page s)

theorem wrPage_listed (page : Byte) (d : PageData) (s : State) : Listed c (pageCodes c) s (wrPage c page d s) :=
  (sendWithCrc_listed c (writeFrame page d s) (by simp)).before (writeFrame_local page d s)

theorem writeChunk_listed (s : State) : Listed c (pageCodes c) s (writeChunk c s) :=
  (sendWithCrc_listed c (chunkFrame s) (by simp)).before (chunkFrame_local s)

theorem reqPres_listed (mode : Byte) (s : State) : Listed c [c.cmdIdle, c.cmdTransceive] s (reqPres c mode s) :=
  ((wrReg_listed c (accessListed_frame7 c) s).after (requestFrame_local mode _)).trans
    (transceive_listed c _ _ (by simp))

theorem antiColl_listed (s : State) : Listed c [c.cmdIdle, c.cmdTransceive] s (antiColl c s) :=
  ((wrReg_listed c (accessListed_frame8 c) s).after (anticollFrame_local _)).trans
    (transceive_listed c _ _ (by simp [sendCap]))

theorem gate_listed (s : State) : Listed c (pageCodes c) s (gate c s) := by
  refine Listed.mono ?_ (exchangeCodes_subset c)
  have hr := reqPres_listed c airReqIdle s
  unfold gate
  dsimp only
  split
  · exact hr.trans (antiColl_listed c _)
  · exact hr

theorem readPages_listed (ps : List Byte) (s : State) : Listed c (pageCodes c) s (readPages c ps s) := by
  induction ps generalizing s with
  | nil => exact .refl c _ s
  | cons p ps ih =>
    have hp := ((rdPage_listed c p { s with page := p }).before (setPage_local p s)).after (appendPage_local _)
    exact hp.trans (ih _)

theorem writeChunks_listed (k : Nat) (s : State) : Listed c (pageCodes c) s (writeChunks c k s) := by
  induction k generalizing s with
  | zero => exact .refl c _ s
  | succ k ih => exact ((writeChunk_listed c s).after (nextPage_local _)).trans (ih _)

theorem readWindow_listed (s : State) : Listed c (pageCodes c) s (readWindow c s) :=
  ((readPages_listed c _ (clearOut s)).before (clearOut_local s)).after (finish_local _ _)

theorem writeText_listed (s : State) : Listed c (pageCodes c) s (writeText c s) :=
  ((writeChunks_listed c _ (beginChunks s)).before (beginChunks_local s)).after (finish_local _ _)

theorem session_listed (pages : State → State) (hp : ∀ g, Listed c (pageCodes c) g (pages g)) (s : State) :
    Listed c (pageCodes c) s (session c pages s) := by
  have hg := gate_listed c s
  unfold session
  dsimp only
  split
  · exact hg.trans (hp _)
  · exact hg.after (finish_local _ _)

/-- Every operation but the two register accesses of the host makes listed accesses only. -/
theorem operate_listed (i : Instr) (s : State) (hw : i.wellFormed = true) (hwr : ∀ a v, i ≠ .wrreg a v)
    (hrd : ∀ a, i ≠ .rdreg a) : Listed c (commandCodes c i) s (operate c i s) := by
  cases i with
  | init => exact (wrReg_listed c (accessListed_command c (by simp [commandCodes])) _).answered
  | wrreg addr value => exact absurd rfl (hwr addr value)
  | rdreg addr => exact absurd rfl (hrd addr)
  | crccalc data =>
    simp only [Instr.wellFormed, decide_eq_true_eq] at hw
    exact (crcCalc_listed c (accept (.crccalc data) s) hw).answered
  | transcv cmd frame =>
    simp only [Instr.wellFormed, decide_eq_true_eq] at hw
    exact (transceive_listed c cmd (accept (.transcv cmd frame) s) hw).answered
  | reqpres mode => exact (reqPres_listed c _ _).answered
  | anticoll => exact (antiColl_listed c _).answered
  | rdpage page => exact (rdPage_listed c _ _).answered
  | wrpage page b0 b1 b2 b3 => exact (wrPage_listed c _ _ _).answered
  | rdtext => exact (session_listed c _ (readWindow_listed c) _).before (accept_local _ s)
  | wrtext text => exact (session_listed c _ (writeText_listed c) _).before (accept_local _ s)
end

/-- Settles O36: the accesses of an operation are those of the traces it is built of. -/
theorem onlyListedAccesses : Obligations.OnlyListedAccesses := by
  intro i s hw hb hwr hrd
  obtain ⟨xs, hbus, hlisted⟩ := operate_listed Config.cfg i s hw hwr hrd
  exact ⟨_, xs, exec_idle hb i, hbus, hlisted⟩

end Sys2Proof.Machine
end

section
/-!
PROOFS. The encoding of requests (30_encoding.md): decoder and encoder are inverse (R78, R80, R81), what the decoder
refuses (R91), and what the host port does with a request (R77, R92, R95).
-/

namespace Sys2Proof.Machine

/-! ## Length fields (rules R78 and R80) -/

/-- A length byte reads back as the length. -/
theorem lengthByte_toNat {n : Nat} (h : n ≤ 255) : (BitVec.ofNat 8 n).toNat = n :=
  Nat.mod_eq_of_lt (Nat.lt_succ_of_le h)

/-- The two little-endian length bytes of a text read back as its length. -/
theorem textLengthBytes_toNat {n : Nat} (h : n ≤ 1008) :
    (BitVec.ofNat 8 (n % 256)).toNat + 256 * (BitVec.ofNat 8 (n / 256)).toNat = n := by
  simp only [BitVec.toNat_ofNat]
  omega

/-! ## The round trips (rules R78 and R81) -/

/-- The rows without a length field decode by their shape, the others because their length field reads back. -/
theorem decode_encode (i : Instr) (hw : i.wellFormed = true) : decode (encode i) = .ok i := by
  cases i with
  | crccalc data => exact if_pos (lengthByte_toNat (of_decide_eq_true hw)).symm
  | transcv cmd frame => exact if_pos (lengthByte_toNat (of_decide_eq_true hw)).symm
  | wrtext text =>
    have hmax : text.length ≤ textMax := of_decide_eq_true hw
    have hlen := textLengthBytes_toNat hmax
    exact (if_neg (hlen.trans_le hmax).not_gt).trans (if_pos hlen.symm)
  | _ => rfl

/-- Settles O1: the round trip of every row. -/
theorem decodeOfEncodeIsIdentity : Obligations.DecodeOfEncodeIsIdentity := decode_encode

/-- Each accepting branch of the decoder has fixed the opcode byte, and the length field where the row has one. -/
theorem encode_of_decode {d : List Byte} {i : Instr} (h : decode d = .ok i) : encode i = d := by
  cases d with
  | nil => simp [decode] at h
  | cons op rest =>
    simp only [decode, decodeOperands] at h
    repeat' split at h
    all_goals cases h
    all_goals simp [encode, Instr.opcode, Instr.operandBytes, ← BitVec.toNat_inj, *]
    -- what is left are the two length bytes of WRTEXT
    omega

/-- Settles O2: an accepted descriptor is well formed, and is the encoding of what it decodes to. -/
theorem encodeOfDecodeIsIdentity : Obligations.EncodeOfDecodeIsIdentity :=
  fun _ _ h => ⟨wellFormed_of_decode h, encode_of_decode h⟩

/-! ## Malformed descriptors (rule R91) -/

/-- A list that has not the shape of two bytes and more is shorter than two. -/
theorem length_lt_two_of_shape {l : List Byte} (h : ∀ x y t, l = x :: y :: t → False) : l.length < 2 := by
  match l with
  | [] => decide
  | [_] => exact Nat.one_lt_two
  | x :: y :: t => exact (h x y t rfl).elim

theorem length_ne_five_of_shape {l : List Byte} (h : ∀ p a b c d, l = [p, a, b, c, d] → False) : l.length ≠ 5 := by
  intro hlen
  match l with
  | [p, a, b, c, d] => exact h p a b c d rfl

/-- Each refusing branch of the decoder is a clause of rule R91. -/
theorem malformed_of_decode_error {d : List Byte} {e : DecodeError} (h : decode d = .error e) : Malformed d := by
  cases d with
  | nil => trivial
  | cons op rest =>
    simp only [decode, decodeOperands] at h
    repeat' split at h
    all_goals cases h
    all_goals simp only [Malformed, *]
    -- INIT, WRREG and RDREG
    · next hshape => exact fun hlen => hshape (List.eq_nil_of_length_eq_zero hlen)
    · next hshape => simpa [List.length_eq_two] using hshape
    · next hshape => simpa [List.length_eq_one_iff] using hshape
    -- CRCCALC and TRANSCV, each with another length than its length byte says, and without a length byte
    · next hlen => simp; omega
    · next hshort =>
      match rest with
      | [] => exact .inl Nat.one_pos
      | len :: data => exact (hshort len data rfl).elim
    · next hlen => simp; omega
    · next hshort => exact .inl (length_lt_two_of_shape hshort)
    -- REQPRES, ANTICOLL, RDPAGE, WRPAGE and RDTEXT
    · next hshape => simpa [List.length_eq_one_iff] using hshape
    · next hshape => exact fun hlen => hshape (List.eq_nil_of_length_eq_zero hlen)
    · next hshape => simpa [List.length_eq_one_iff] using hshape
    · next hshape => exact length_ne_five_of_shape hshape
    · next hshape => exact fun hlen => hshape (List.eq_nil_of_length_eq_zero hlen)
    -- WRTEXT: too long a text, another length than the two length bytes say, and without both of them
    · next hmax => exact .inr (.inr hmax)
    · next hlen => simp; omega
    · next hshort => exact .inl (length_lt_two_of_shape hshort)

/-- The encoding of a well-formed instruction has the length its length field says, and is no clause of rule R91. -/
theorem not_malformed_encode (i : Instr) (hw : i.wellFormed = true) : ¬ Malformed (encode i) := by
  cases i with
  | crccalc data =>
    have hmax : data.length ≤ 255 := of_decide_eq_true hw
    simp [Malformed, encode, Instr.opcode, Instr.operandBytes]
    omega
  | transcv cmd frame =>
    have hmax : frame.length ≤ 255 := of_decide_eq_true hw
    simp [Malformed, encode, Instr.opcode, Instr.operandBytes]
    omega
  | wrtext text =>
    have hmax : text.length ≤ 1008 := of_decide_eq_true hw
    simp [Malformed, encode, Instr.opcode, Instr.operandBytes]
    omega
  | _ => simp [Malformed, encode, Instr.opcode, Instr.operandBytes]

theorem decode_error_of_malformed {d : List Byte} (h : Malformed d) : ∃ e, decode d = .error e := by
  cases hd : decode d with
  | error e => exact ⟨e, rfl⟩
  | ok i => exact absurd (encode_of_decode hd ▸ h) (not_malformed_encode i (wellFormed_of_decode hd))

/-- Settles O3: a refusal is a clause of rule R91, and no encoding, which is all the decoder accepts, is one. -/
theorem decoderRefusesExactlyTheMalformed : Obligations.DecoderRefusesExactlyTheMalformed :=
  fun _ => ⟨fun ⟨_, h⟩ => malformed_of_decode_error h, decode_error_of_malformed⟩

/-- Settles O4: the decoder evaluated on the descriptors written out. -/
theorem vectorDescriptorsDecode : Obligations.VectorDescriptorsDecode := by
  unfold Obligations.VectorDescriptorsDecode
  decide

/-! ## The host port (rules R77 and R92) -/

theorem tick_requests (c : Cfg) (s : State) : (tick c s).requests = s.requests := by
  by_cases hp : s.phase = .idle
  · simp [tick, hp]
  · exact (tick_oneXact c s hp).1

/-- Settles O7: the step of a busy block is a tick, and `exec` does nothing. -/
theorem busyBlockAcceptsNoRequest : Obligations.BusyBlockAcceptsNoRequest := by
  intro s hb
  exact ⟨⟨tick Config.cfg s, by simp [step, cycle, hb], tick_requests Config.cfg s⟩, exec_busy hb⟩

section
variable {s : State} {d : List Byte} {rest : List (List Byte)}

theorem takeRequest_of_request (hr : s.requests = d :: rest) : takeRequest s = { s with requests := rest } := by
  simp [takeRequest, hr]

theorem step_of_malformed (hb : s.busy = false) (hr : s.requests = d :: rest) (hm : Malformed d) :
    step s = .next (refuse (takeRequest s)) := by
  obtain ⟨e, hd⟩ := decode_error_of_malformed hm
  simp [step, hb, hr, hd]
end

/-- Settles O6: the decoder refuses the descriptor, and the step answers REFUSED. -/
theorem malformedRequestIsRefused : Obligations.MalformedRequestIsRefused := by
  intro s d rest hb hr hm
  rw [step_of_malformed hb hr hm, takeRequest_of_request hr]
  rfl

/-- Settles O5: the request presented leaves the port and is run. -/
theorem stepRunsTheDecodedRequest : Obligations.StepRunsTheDecodedRequest := by
  intro s d rest i hb hr hd _
  rw [step_of_request hb hr hd, takeRequest_of_request hr]

/-! ## Acceptance (rules R77 and R78) -/

@[simp] theorem accept_busy (i : Instr) (s : State) : (accept i s).busy = true := by cases i <;> rfl

@[simp] theorem accept_opc (i : Instr) (s : State) : (accept i s).opc = i.opcode := by cases i <;> rfl

theorem beginSteps_busy (i : Instr) (s : State) : (beginSteps i s).busy = s.busy := by cases i <;> rfl

theorem beginSteps_opc (i : Instr) (s : State) : (beginSteps i s).opc = s.opc := by cases i <;> rfl

/-- The data bytes of WRPAGE land after the two places kept of `SEND` (log entry 11). -/
theorem accept_operandsLanded (i : Instr) (s : State) : OperandsLanded i (accept i s) := by
  cases i with
  | init => trivial
  | wrreg addr value => exact ⟨rfl, rfl⟩
  | transcv cmd frame => exact ⟨rfl, rfl⟩
  | anticoll => trivial
  | wrpage page b0 b1 b2 b3 => exact ⟨rfl, List.drop_left' (by simp)⟩
  | rdtext => trivial
  | _ => rfl

/-- Settles O8: the acceptance writes registers alone, and no step before the first transaction writes `BUSY` or `OPC`. -/
theorem acceptanceLatchesTheOperands : Obligations.AcceptanceLatchesTheOperands := by
  intro s d rest i hb hr hd
  have hopc : i.opcode = d.headD 0 := by rw [← encode_of_decode hd]; rfl
  have htaken := takeRequest_of_request hr
  have hacc := accept_local i { s with requests := rest }
  have hstart := startOp_local i { s with requests := rest }
  rw [cycle_of_request Config.cfg hb hr hd, htaken]
  exact ⟨_, rfl, accept_busy i _, (accept_opc i _).trans hopc, accept_operandsLanded i _, hacc.requests, hacc.bus,
    beginSteps_opc i _, (beginSteps_busy i _).trans (accept_busy i _), hstart.bus, hstart.requests⟩

/-! ## SOFTRESET (rule R95) -/

/-- Settles O18: both make the one write of `softReset` and answer DONE. -/
theorem softResetIsInit : Obligations.SoftResetIsInit :=
  fun _ hb => ⟨_, _, exec_idle hb .init, exec_idle hb (.softReset Config.cfg), rfl, rfl, fun _ => rfl⟩

end Sys2Proof.Machine
end

section
/-!
PROOFS. The register transport (40_register_transport.md): the transport carries whole register transactions alone
(R105), and what WRREG, RDREG, SETBITS and CLRBITS do (R100 to R103), INIT's frame among them (R165).
-/

namespace Sys2Proof.Machine

/-! ## The trace is a list of register transactions (rule R105) -/

/-- A tick makes one register transaction, or none where no operation is in flight. -/
theorem tick_bus (c : Cfg) (s : State) : ∃ xs, (tick c s).bus = s.bus ++ wires c xs := by
  by_cases hp : s.phase = .idle
  · exact ⟨[], by simp [tick, hp]⟩
  · obtain ⟨a, v, hwrite⟩ | ⟨a, hread⟩ := (tick_oneXact c s hp).2
    · exact ⟨_, hwrite.bus⟩
    · exact ⟨_, hread.bus⟩

/-- An operation makes register transactions alone. -/
theorem operate_bus (c : Cfg) (i : Instr) (s : State) (hw : i.wellFormed = true) :
    ∃ xs, (operate c i s).bus = s.bus ++ wires c xs := by
  obtain ⟨xs, k, hdid, -⟩ := operate_within c i s hw
  exact ⟨xs, hdid.bus⟩

/-- Settles O35: a tick and an operation make register transactions, and the other steps leave the transport alone. -/
theorem busCarriesOnlyRegisterTransactions : Obligations.BusCarriesOnlyRegisterTransactions := by
  intro s t hst
  obtain ⟨-, h⟩ | ⟨-, -, h⟩ | ⟨d, rest, i, -, -, hd, h⟩ | ⟨d, rest, e, -, -, -, h⟩ := step_cases s <;>
    cases h.symm.trans hst
  · exact tick_bus Config.cfg s
  · exact ⟨[], by simp⟩
  · exact operate_bus Config.cfg i (takeRequest s) (wellFormed_of_decode hd)
  · exact ⟨[], by simp⟩

/-! ## The transactions as updates of the whole state (rules R82, R100 and R101) -/

/-- A write transaction changes the transport alone, and releases chip-select. -/
theorem wrReg_eq (c : Cfg) (a v : Byte) (s : State) :
    wrReg c a v s = { s with cs := false, bus := s.bus ++ (Xact.write a v).wire c } := by
  rw [← wrReg_bus]; rfl

/-- A read transaction takes the chip's next answer besides. -/
theorem rdReg_eq (c : Cfg) (a : Byte) (s : State) :
    (rdReg c a s).2 = { s.afterAnswers 1 with cs := false, bus := s.bus ++ (Xact.read a (s.answer 0)).wire c } := by
  rw [← rdReg_bus]; rfl

theorem operate_init_eq (c : Cfg) (s : State) :
    operate c .init s = { s with
      busy := false, phase := .idle, opc := 0x00, response := some .done, cs := false,
      bus := s.bus ++ (Xact.write c.aCommand cmdSoftReset).wire c } :=
  congrArg (finish .done) (wrReg_eq c _ _ (accept .init s))

theorem operate_wrreg_eq (c : Cfg) (addr value : Byte) (s : State) :
    operate c (.wrreg addr value) s = { s with
      busy := false, phase := .idle, opc := 0x01, argA := addr, argV := value, response := some .done, cs := false,
      bus := s.bus ++ (Xact.write addr value).wire c } :=
  congrArg (finish .done) (wrReg_eq c _ _ (accept (.wrreg addr value) s))

theorem operate_rdreg_eq (c : Cfg) (addr : Byte) (s : State) :
    operate c (.rdreg addr) s = { s.afterAnswers 1 with
      busy := false, phase := .idle, opc := 0x02, argA := addr, response := some (.value (s.answer 0)), cs := false,
      bus := s.bus ++ (Xact.read addr (s.answer 0)).wire c } :=
  congrArg₂ (fun v u => finish (.value v) u) (rdReg_value c _ _) (rdReg_eq c _ (accept (.rdreg addr) s))

/-- After one read the chip's answers are one further on. -/
theorem Did.answer_succ {c : Cfg} {s t : State} {xs : List Xact} (h : Did c s t xs 1) (k : Nat) :
    t.answer k = s.answer (k + 1) := by
  rw [h.answer, Nat.add_comm]

/-! ## WRREG and RDREG (rules R100 and R101) -/

/-- Settles O14: the request runs, and its one write is the four events of rule R82. -/
theorem wrregSendsOneWriteTransaction : Obligations.WrregSendsOneWriteTransaction := by
  intro addr value s hb
  rw [exec_idle hb, operate_wrreg_eq]; rfl

/-- RDREG makes one read, which takes one answer of the chip. -/
theorem operate_rdreg_did (c : Cfg) (addr : Byte) (s : State) :
    Did c s (operate c (.rdreg addr) s) [.read addr (s.answer 0)] 1 :=
  finish_did (r := .value _) ((rdReg_did c addr (accept (.rdreg addr) s)).before_local (accept_local _ s))

/-- Settles O15: the request runs, its one read is the four events of rule R82, and it takes one answer. -/
theorem rdregReturnsTheChipsAnswer : Obligations.RdregReturnsTheChipsAnswer := by
  intro addr s hb
  refine ⟨_, exec_idle hb _, ?_, (operate_rdreg_did Config.cfg addr s).answer_succ⟩
  rw [operate_rdreg_eq]; rfl

/-! ## SETBITS and CLRBITS (rules R102 and R103) -/

/-- A micro-operation leaves in `TMP` the byte it read: the write after the read changes no register. -/
@[simp] theorem setBits_tmp (c : Cfg) (a m : Byte) (s : State) : (setBits c a m s).tmp = s.answer 0 := by
  simp [setBits, writeSet]

@[simp] theorem clrBits_tmp (c : Cfg) (a m : Byte) (s : State) : (clrBits c a m s).tmp = s.answer 0 := by
  simp [clrBits, writeClear]

/-- Settles O16: the read takes one answer, which `TMP` holds for the write. -/
theorem setBitsReadsThenWrites : Obligations.SetBitsReadsThenWrites := by
  intro c a m s
  have hdid := setBits_did c a m s
  exact ⟨hdid.bus, setBits_tmp c a m s, hdid.answer_succ⟩

/-- Settles O17: the read takes one answer, which `TMP` holds for the write. -/
theorem clrBitsReadsThenWrites : Obligations.ClrBitsReadsThenWrites := by
  intro c a m s
  have hdid := clrBits_did c a m s
  exact ⟨hdid.bus, clrBits_tmp c a m s, hdid.answer_succ⟩

/-! ## The frames of INIT, WRREG and RDREG -/

/-- A request leaves a busy block as it is, and runs to its end in an idle one (rules R77 and R29). -/
theorem exec_cases {i : Instr} {s t : State} (h : exec i s = .next t) :
    t = s ∨ s.busy = false ∧ t = operate Config.cfg i s := by
  cases hb : s.busy with
  | true => exact .inl (by simpa [exec_busy hb] using h.symm)
  | false => exact .inr ⟨rfl, by simpa [exec_idle hb] using h.symm⟩

/-- Settles O41: a busy block is left as it is, and the equation of the operation lists what it changes in an idle one. -/
theorem transportOperationsFrame : Obligations.TransportOperationsFrame := by
  refine ⟨fun s t h => ?_, fun addr value s t h => ?_, fun addr s t h => ?_⟩
  · obtain rfl | ⟨hb, rfl⟩ := exec_cases h
    · rfl
    · rw [operate_init_eq, ← hb]
  · obtain rfl | ⟨hb, rfl⟩ := exec_cases h
    · rfl
    · rw [operate_wrreg_eq, ← hb]
  · obtain rfl | ⟨hb, rfl⟩ := exec_cases h
    · rfl
    · rw [operate_rdreg_eq, ← hb]; rfl

end Sys2Proof.Machine
end

section
/-!
PROOFS. CRCCALC (41_crc.md): it drives the chip's CRC unit and returns its two bytes (R110 to R113), also after an
exhausted poll (R114 and R117); and what it leaves unchanged.
-/

namespace Sys2Proof.Machine

/-! ## What CRCCALC does (rules R110 to R113) -/

/-- CRCCALC from its acceptance to its end: the poll, the trace, the two bytes read back and the response they make. -/
theorem operate_crccalc_spec (c : Cfg) (data : List Byte) (s : State) (hlen : data.length ≤ sendCap) :
    ∃ p, PollEnds nCrcPoll c.mCrcDone.byte (fun j => s.answer (2 + j)) p ∧
      Did c s (operate c (.crccalc data) s) (crcTrace c data s.answer p) (4 + p) ∧
      (operate c (.crccalc data) s).crcLo = s.answer (2 + p) ∧
      (operate c (.crccalc data) s).crcHi = s.answer (3 + p) ∧
      (operate c (.crccalc data) s).pollC.toNat = p ∧
      (operate c (.crccalc data) s).response = some (.crc (s.answer (2 + p)) (s.answer (3 + p))) := by
  have hacc := accept_local (.crccalc data) s
  obtain ⟨p, hp, hdid, hlo, hhi, hcount⟩ := crcCalc_spec c (accept (.crccalc data) s) hlen
  rw [hacc.answer] at hp hdid hlo hhi
  have hresp : some (crcResponse (crcCalc c (accept (.crccalc data) s))) =
      some (.crc (s.answer (2 + p)) (s.answer (3 + p))) := by rw [crcResponse, hlo, hhi]
  exact ⟨p, hp, finish_did (hdid.before_local hacc) _, hlo, hhi, hcount, hresp⟩

/-- Settles O19: the request runs in an idle block, and its trace determines the transport and the answers left. -/
theorem crccalcDrivesTheCrcUnit : Obligations.CrccalcDrivesTheCrcUnit := by
  intro data s hlen hb
  obtain ⟨p, hp, hdid, hlo, hhi, hcount, hresp⟩ := operate_crccalc_spec Config.cfg data s hlen
  exact ⟨p, _, hp, exec_idle hb _, hresp, hlo, hhi, hcount, hdid.bus, hdid.answer⟩

/-! ## The exhausted poll (rules R114 and R117) -/

/-- A poll loop whose answers never show a bit of the mask makes all its reads. -/
theorem PollEnds.eq_ceiling {n m f p} (h : PollEnds n m f p) (hzero : ∀ j, j < n → f j &&& m = 0) : p = n := by
  obtain rfl | hseen := h.stops
  · rfl
  · exact absurd (hzero (p - 1) (by have := h.atLeastOnce; have := h.atMost; omega)) hseen

/-- Settles O20: CRCCALC with a poll of 255 reads, whose trace then has 262 transactions besides the load. -/
theorem crcTimeOutIsSilent : Obligations.CrcTimeOutIsSilent := by
  intro data s hlen hb hzero
  obtain ⟨p, t, hp, hexec, hresp, -, -, -, hbus, -⟩ := crccalcDrivesTheCrcUnit data s hlen hb
  obtain rfl := hp.eq_ceiling hzero
  exact ⟨t, hexec, hresp, hbus, by rw [crcTrace_length]; omega⟩

/-! ## The frame of CRCCALC -/

/-- Settles O42: a busy block is left as it is; in an idle one acceptance, the CRC calculation and the end of the
operation each leave the other fields, so the states agree field by field. -/
theorem crccalcFrame : Obligations.CrccalcFrame := by
  intro data s t h
  obtain rfl | ⟨hb, ht⟩ := exec_cases h
  · rfl
  · refine (State.mk.injEq ..).mpr ?_
    subst ht
    simp [operate, runCrccalc, accept, landOperands, hb]

end Sys2Proof.Machine
end

section
/-!
PROOFS. TRANSCV (42_transceive.md): its time-out (R126), the chip error (R127) and the success (R128 to R130); and what
TRANSCV, REQPRES and ANTICOLL leave unchanged.
-/

namespace Sys2Proof.Machine

/-! ## The outcomes of TRANSCV as a request (rules R120 to R131) -/

section
variable {c : Cfg} {cmd : Byte} {frame : List Byte} {s : State} {p : Nat}

/-- The acceptance and the answer of TRANSCV do nothing outside. -/
theorem operate_transcv_did {xs : List Xact} {k : Nat}
    (h : Did c (accept (.transcv cmd frame) s) (transceive c cmd (accept (.transcv cmd frame) s)) xs k) :
    Did c s (operate c (.transcv cmd frame) s) xs k :=
  finish_did (h.before_local (accept_local _ s)) _

variable (hlen : frame.length ≤ sendCap) (hp : PollEnds nTrxPoll mRxDone (fun j => s.answer (2 + j)) p)
include hlen hp

/-- The latches after a poll of `p` reads. -/
theorem operate_transcv_latches :
    (operate c (.transcv cmd frame) s).pollT.toNat = p ∧
      (operate c (.transcv cmd frame) s).seen = rxDone (s.answer (1 + p)) ∧
      (s.answer (1 + p) &&& mRxDone ≠ 0 → (operate c (.transcv cmd frame) s).err = s.answer (3 + p)) ∧
      (s.answer (1 + p) &&& mRxDone ≠ 0 → s.answer (3 + p) &&& mErr = 0 →
        (operate c (.transcv cmd frame) s).n = s.answer (4 + p) ∧
          (operate c (.transcv cmd frame) s).rem = lastBits (s.answer (5 + p))) := by
  obtain ⟨q, hq, hlatch⟩ := transceive_latches c cmd (accept (.transcv cmd frame) s) hlen
  rw [(accept_local _ s).answer] at hq hlatch
  obtain rfl := hp.unique hq
  exact hlatch

/-- A poll that never shows the bit: the exchange ends with the stop (rule R126). -/
theorem operate_transcv_timedOut (hdone : s.answer (1 + p) &&& mRxDone = 0) :
    Did c s (operate c (.transcv cmd frame) s) (exchangeTrace c cmd frame s.answer p) (3 + p) ∧
      (operate c (.transcv cmd frame) s).status = statusErr ∧ (operate c (.transcv cmd frame) s).recv = [] ∧
      (operate c (.transcv cmd frame) s).vbc = 0 := by
  obtain ⟨q, hq, hout⟩ := transceive_spec c cmd (accept (.transcv cmd frame) s) hlen
  rw [(accept_local _ s).answer] at hq hout
  obtain rfl := hp.unique hq
  obtain ⟨-, hdid, hres⟩ | ⟨hdone', -⟩ | ⟨hdone', -⟩ := hout
  · exact ⟨operate_transcv_did hdid, hres⟩
  · exact absurd hdone hdone'
  · exact absurd hdone hdone'

/-- The error byte is read, and shows an error: the exchange ends with that read (rule R127). -/
theorem operate_transcv_chipError (hdone : s.answer (1 + p) &&& mRxDone ≠ 0)
    (herr : s.answer (3 + p) &&& mErr ≠ 0) :
    Did c s (operate c (.transcv cmd frame) s)
        (exchangeTrace c cmd frame s.answer p ++ [.read c.aError (s.answer (3 + p))]) (4 + p) ∧
      (operate c (.transcv cmd frame) s).status = statusErr ∧ (operate c (.transcv cmd frame) s).recv = [] ∧
      (operate c (.transcv cmd frame) s).vbc = 0 := by
  obtain ⟨q, hq, hout⟩ := transceive_spec c cmd (accept (.transcv cmd frame) s) hlen
  rw [(accept_local _ s).answer] at hq hout
  obtain rfl := hp.unique hq
  obtain ⟨hdone', -⟩ | ⟨-, -, hdid, hres⟩ | ⟨-, herr', -⟩ := hout
  · exact absurd hdone' hdone
  · exact ⟨operate_transcv_did hdid, hres⟩
  · exact absurd herr' herr

/-- The error byte shows no error: the level, the control register and the FIFO are read (rules R128 to R130). -/
theorem operate_transcv_success (hdone : s.answer (1 + p) &&& mRxDone ≠ 0) (hok : s.answer (3 + p) &&& mErr = 0) :
    Did c s (operate c (.transcv cmd frame) s)
        (exchangeTrace c cmd frame s.answer p ++ .read c.aError (s.answer (3 + p)) ::
          receiveTrace c (fun k => s.answer (4 + p + k)))
        (6 + p + min (s.answer (4 + p)).toNat 16) ∧
      (operate c (.transcv cmd frame) s).status = statusOk ∧
      (operate c (.transcv cmd frame) s).recv =
        (List.range (min (s.answer (4 + p)).toNat 16)).map (fun k => s.answer (6 + p + k)) ∧
      (operate c (.transcv cmd frame) s).vbc =
        BitVec.ofInt 12 (validBitCount (s.answer (4 + p)) (s.answer (5 + p))) := by
  obtain ⟨q, hq, hout⟩ := transceive_spec c cmd (accept (.transcv cmd frame) s) hlen
  rw [(accept_local _ s).answer] at hq hout
  obtain rfl := hp.unique hq
  obtain ⟨hdone', -⟩ | ⟨-, herr, -⟩ | ⟨-, -, hdid, hres⟩ := hout
  · exact absurd hdone' hdone
  · exact absurd hok herr
  · exact ⟨operate_transcv_did hdid, hres⟩
end

/-- The record of an exchange that failed is `(2, [], 0)` (rules R126 and R127). -/
theorem exchangeResponse_of_failed {s : State} (hst : s.status = statusErr) (hr : s.recv = []) (hv : s.vbc = 0) :
    exchangeResponse s = .exchange 2 [] 0 := by
  rw [exchangeResponse, hst, hr, hv]; rfl

/-- The record of an exchange that succeeded carries the bytes and the count received (rules R79 and R128). -/
theorem exchangeResponse_of_ok {s : State} (hst : s.status = statusOk) :
    exchangeResponse s = .exchange 0 s.recv s.vbc.toInt := by
  rw [exchangeResponse, hst]; rfl

theorem rxDone_of_ne_zero {b : Byte} (h : b &&& mRxDone ≠ 0) : rxDone b = true := bne_iff_ne.mpr h

theorem rxDone_of_eq_zero {b : Byte} (h : b &&& mRxDone = 0) : rxDone b = false := bne_eq_false_iff_eq.mpr h

/-! ## The time-out (rule R126) -/

/-- A poll loop whose answers never show a bit of the mask makes as many reads as it may. -/
theorem PollEnds.exhausted {n : Nat} {m : Byte} {f : Nat → Byte} (hn : 1 ≤ n)
    (hzero : ∀ j, j < n → f j &&& m = 0) : PollEnds n m f n where
  atLeastOnce := hn
  atMost := le_rfl
  notBefore j hj := hzero j (by omega)
  stops := .inl rfl

/-- Settles O21: the poll makes all its 2000 reads, and the last does not show the bit. -/
theorem transceiveTimesOut : Obligations.TransceiveTimesOut := by
  intro cmd frame s hlen hb hzero
  have hp : PollEnds nTrxPoll mRxDone (fun j => s.answer (2 + j)) 2000 := .exhausted (by decide) hzero
  have hdone : s.answer (1 + 2000) &&& mRxDone = 0 := hzero 1999 (by decide)
  obtain ⟨hdid, hst, hr, hv⟩ := operate_transcv_timedOut (c := Config.cfg) (cmd := cmd) hlen hp hdone
  obtain ⟨hcount, hseen, -⟩ := operate_transcv_latches (c := Config.cfg) (cmd := cmd) hlen hp
  exact ⟨_, exec_idle hb _, congrArg some (exchangeResponse_of_failed hst hr hv), hst, hr, hv,
    BitVec.eq_of_toNat_eq hcount, hseen.trans (rxDone_of_eq_zero hdone), hdid.bus, hdid.answer⟩

/-! ## The chip error (rule R127) -/

/-- Settles O22: after the error-status register nothing more is read, and the results are those of a failure. -/
theorem transceiveReportsAChipError : Obligations.TransceiveReportsAChipError := by
  intro cmd frame p s hlen hb hp hdone herr
  obtain ⟨hdid, hst, hr, hv⟩ := operate_transcv_chipError (c := Config.cfg) (cmd := cmd) hlen hp hdone herr
  obtain ⟨hcount, hseen, hlatch, -⟩ := operate_transcv_latches (c := Config.cfg) (cmd := cmd) hlen hp
  exact ⟨_, exec_idle hb _, congrArg some (exchangeResponse_of_failed hst hr hv), hst, hr, hv, hcount,
    hseen.trans (rxDone_of_ne_zero hdone), hlatch hdone, hdid.bus, hdid.answer⟩

/-! ## The success (rules R128 to R130) -/

/-- The low 3 bits of the control byte as a number (rule R129). -/
theorem lastBits_toNat (b : Byte) : (lastBits b).toNat = b.toNat % 8 := by
  have hmask : mLastBits.toNat = 2 ^ 3 - 1 := rfl
  rw [lastBits, BitVec.toNat_setWidth, BitVec.toNat_and, hmask, Nat.and_two_pow_sub_one_eq_mod, Nat.mod_mod]

/-- Settles O23: 12 bits hold the whole valid-bit count, so `VBC` reads back as the integer of rule R129. -/
theorem transceiveSucceeds : Obligations.TransceiveSucceeds := by
  intro cmd frame p s hlen hb hp hdone hok
  obtain ⟨hdid, hst, hr, hv⟩ := operate_transcv_success (c := Config.cfg) (cmd := cmd) hlen hp hdone hok
  obtain ⟨hcount, hseen, herr, hlevel⟩ := operate_transcv_latches (c := Config.cfg) (cmd := cmd) hlen hp
  obtain ⟨hn, hrem⟩ := hlevel hdone hok
  have hvbc : (operate Config.cfg (.transcv cmd frame) s).vbc.toInt =
      validBitCount (s.answer (4 + p)) (s.answer (5 + p)) := by
    rw [hv, vbc_toInt _ (validBitCount_range _ _)]
  refine ⟨_, exec_idle hb _, hr, hvbc, hst, congrArg some (exchangeResponse_of_ok hst), hcount,
    hseen.trans (rxDone_of_ne_zero hdone), herr hdone, hn, ?_, hdid.bus, hdid.answer⟩
  rw [hrem, lastBits_toNat]

/-! ## The frames of TRANSCV, REQPRES and ANTICOLL -/

/-- The registers, buffers and requests that no exchange writes, nor the acceptance of TRANSCV, REQPRES or ANTICOLL. -/
structure ExchangeKeeps (s t : State) : Prop where
  argV : t.argV = s.argV
  pollC : t.pollC = s.pollC
  crcLo : t.crcLo = s.crcLo
  crcHi : t.crcHi = s.crcHi
  page : t.page = s.page
  out : t.out = s.out
  text : t.text = s.text
  requests : t.requests = s.requests

/-- An exchange and the answer after it keep what was kept before. -/
theorem ExchangeKeeps.answered {s a : State} (h : ExchangeKeeps s a) (c : Cfg) (cmd : Byte) (r : Response) :
    ExchangeKeeps s (finish r (transceive c cmd a)) where
  argV := (transceive_argV c cmd a).trans h.argV
  pollC := (transceive_pollC c cmd a).trans h.pollC
  crcLo := (transceive_crcLo c cmd a).trans h.crcLo
  crcHi := (transceive_crcHi c cmd a).trans h.crcHi
  page := (transceive_page c cmd a).trans h.page
  out := (transceive_out c cmd a).trans h.out
  text := (transceive_text c cmd a).trans h.text
  requests := (transceive_requests c cmd a).trans h.requests

/-- What is kept, and `BUSY`, said of the whole state. -/
theorem ExchangeKeeps.frame {s t : State} (h : ExchangeKeeps s t) (hb : t.busy = s.busy) :
    t = { s with opc := t.opc, argA := t.argA, send := t.send, tmp := t.tmp, pollT := t.pollT, seen := t.seen,
                 status := t.status, err := t.err, n := t.n, rem := t.rem, vbc := t.vbc, idx := t.idx, recv := t.recv,
                 phase := t.phase, response := t.response, cs := t.cs, bus := t.bus, answers := t.answers,
                 drawn := t.drawn } := by
  rw [← hb, ← h.argV, ← h.pollC, ← h.crcLo, ← h.crcHi, ← h.page, ← h.out, ← h.text, ← h.requests]

section
variable (c : Cfg) (s : State)

theorem operate_transcv_keeps (cmd : Byte) (frame : List Byte) :
    ExchangeKeeps s (operate c (.transcv cmd frame) s) :=
  .answered (s := s) (a := accept (.transcv cmd frame) s) ⟨rfl, rfl, rfl, rfl, rfl, rfl, rfl, rfl⟩ ..

theorem operate_reqpres_keeps (mode : Byte) : ExchangeKeeps s (operate c (.reqpres mode) s) :=
  .answered (s := s) (a := requestFrame mode (wrReg c c.aBitFraming vFrame7 (accept (.reqpres mode) s)))
    ⟨rfl, rfl, rfl, rfl, rfl, rfl, rfl, rfl⟩ ..

theorem operate_anticoll_keeps : ExchangeKeeps s (operate c .anticoll s) :=
  .answered (s := s) (a := anticollFrame (wrReg c c.aBitFraming vFrame8 (accept .anticoll s)))
    ⟨rfl, rfl, rfl, rfl, rfl, rfl, rfl, rfl⟩ ..

/-- ANTICOLL has no operand (rule R78). -/
theorem operate_anticoll_argA : (operate c .anticoll s).argA = s.argA := antiColl_argA c (accept .anticoll s)
end

/-- Settles O43: a busy block is left as it is; in an idle one each of the three is an acceptance and one exchange. -/
theorem exchangeOperationsFrame : Obligations.ExchangeOperationsFrame := by
  refine ⟨fun cmd frame s t h => ?_, fun mode s t h => ?_, fun s t h => ?_⟩
  · obtain rfl | ⟨hb, rfl⟩ := exec_cases h
    · rfl
    · exact (operate_transcv_keeps Config.cfg s cmd frame).frame hb.symm
  · obtain rfl | ⟨hb, rfl⟩ := exec_cases h
    · rfl
    · exact (operate_reqpres_keeps Config.cfg s mode).frame hb.symm
  · obtain rfl | ⟨hb, rfl⟩ := exec_cases h
    · rfl
    · exact ((operate_anticoll_keeps Config.cfg s).frame hb.symm).trans (by rw [operate_anticoll_argA])

end Sys2Proof.Machine
end

section
/-!
PROOFS. REQPRES and ANTICOLL (43_presence_anticollision.md): each does and receives what the direct write of the
framing byte and one exchange of its fixed frame do and receive (R140 and R142).
-/

namespace Sys2Proof.Machine

/-! ## Requests one after the other (rule R73) -/

/-- An idle block runs the first request to its end, and the next ones follow. -/
theorem execAll_cons {s : State} (hb : s.busy = false) (i : Instr) (is : List Instr) :
    execAll (i :: is) s = execAll is (operate Config.cfg i s) := by
  rw [execAll, exec_idle hb]

/-- The block is idle again after the first request, so the second runs too. -/
theorem execAll_pair {s : State} (hb : s.busy = false) (i j : Instr) :
    execAll [i, j] s = .next (operate Config.cfg j (operate Config.cfg i s)) := by
  rw [execAll_cons hb, execAll_cons (operate_busy _ i s), execAll]

/-! ## A framing write and an exchange (rules R140 and R142) -/

/-- After the same has been done from one state, the outside cannot tell the two ends apart. -/
theorem Abreast.sameOutside {c : Cfg} {s t u : State} (h : Abreast c s s t u) : SameOutside t u := by
  have hans := h.answer rfl
  obtain ⟨xs, k, ht, hu⟩ := h
  exact ⟨ht.bus.trans hu.bus.symm, congrFun hans⟩

/-- WRREG makes one write, which takes no answer of the chip. -/
theorem operate_wrreg_did (c : Cfg) (a v : Byte) (s : State) : Did c s (operate c (.wrreg a v) s) [.write a v] 0 :=
  finish_did ((wrReg_did c a v (accept (.wrreg a v) s)).before_local (accept_local _ s)) .done

/-- An exchange begun in `g`, which is one write after `s`, is WRREG of that write and TRANSCV of the frame in `g`. -/
theorem framedExchange_alike {c : Cfg} {a v : Byte} {s g : State} (hg : Did c s g [.write a v] 0)
    (hlen : g.send.length ≤ sendCap) (cmd : Byte) (r : Response) :
    Alike c s s (finish r (transceive c cmd g)) (operate c (.transcv cmd g.send) (operate c (.wrreg a v) s)) := by
  have hw := (operate_wrreg_did c a v s).after_local (accept_local (.transcv cmd g.send) _)
  obtain ⟨hdid, hst, hr, hv⟩ :=
    (transceive_alike c cmd g (accept (.transcv cmd g.send) _) rfl hlen (hg.answer_eq hw rfl)).before hg hw
  exact ⟨Abreast.after hdid (finish_local _ _) (finish_local _ _), hst, hr, hv⟩

theorem operate_reqpres_alike (c : Cfg) (mode : Byte) (s : State) :
    Alike c s s (operate c (.reqpres mode) s)
      (operate c (.transcv c.cmdTransceive [mode]) (operate c (.wrreg c.aBitFraming vFrame7) s)) :=
  framedExchange_alike (g := requestFrame mode (wrReg c c.aBitFraming vFrame7 (accept (.reqpres mode) s)))
    (((wrReg_did c _ _ _).before_local (accept_local _ s)).local_ rfl rfl rfl) (by simp) _ _

theorem operate_anticoll_alike (c : Cfg) (s : State) :
    Alike c s s (operate c .anticoll s)
      (operate c (.transcv c.cmdTransceive airAnticoll) (operate c (.wrreg c.aBitFraming vFrame8) s)) :=
  framedExchange_alike (g := anticollFrame (wrReg c c.aBitFraming vFrame8 (accept .anticoll s)))
    (((wrReg_did c _ _ _).before_local (accept_local _ s)).local_ rfl rfl rfl) (by simp [sendCap]) _ _

/-- Settles O25: REQPRES and the two requests are alike, and its record leaves out the bytes of the exchange. -/
theorem reqpresIsAFramedTransceive : Obligations.ReqpresIsAFramedTransceive := by
  intro mode s hb
  have h := operate_reqpres_alike Config.cfg mode s
  exact ⟨_, _, _, _, _, exec_idle hb _, congrArg some h.presenceResponse_eq, execAll_pair hb _ _, rfl,
    Abreast.sameOutside h.did⟩

/-- Settles O26: ANTICOLL and the two requests are alike, and its record leaves out the count of the exchange. -/
theorem anticollIsAFramedTransceive : Obligations.AnticollIsAFramedTransceive := by
  intro s hb
  have h := operate_anticoll_alike Config.cfg s
  exact ⟨_, _, _, _, _, exec_idle hb _, congrArg some h.identifierResponse_eq, execAll_pair hb _ _, rfl,
    Abreast.sameOutside h.did⟩

end Sys2Proof.Machine
end

section
/-!
PROOFS. RDPAGE and WRPAGE (44_page.md): each does and receives what CRCCALC of its frame head and one exchange of the
head with the two CRC bytes do and receive (R150 and R152); the data of a page read (R151); and what the two operations
leave unchanged.
-/

namespace Sys2Proof.Machine

/-! ## A frame head, its CRC and an exchange (rules R150 and R152) -/

/-- The frame that is `head` with the two bytes CRCCALC of it returns (rule R88). -/
def crcFrame (c : Cfg) (head : List Byte) (s : State) : List Byte :=
  head ++ [(operate c (.crccalc head) s).crcLo, (operate c (.crccalc head) s).crcHi]

/-- Two requests one after the other: CRCCALC over `head`, and TRANSCV of `head` with the two bytes returned. -/
def crcThenExchange (c : Cfg) (head : List Byte) (s : State) : State :=
  operate c (.transcv c.cmdTransceive (crcFrame c head s)) (operate c (.crccalc head) s)

/-- CRCCALC leaves the block idle, so the second of the two requests runs too. -/
theorem exec_crcThenExchange (head : List Byte) (s : State) :
    exec (.transcv Config.cfg.cmdTransceive (crcFrame Config.cfg head s)) (operate Config.cfg (.crccalc head) s) =
      .next (crcThenExchange Config.cfg head s) :=
  exec_idle (operate_busy _ _ s) _

section
variable {c : Cfg} {s g : State} (hg : LocalChange s g) (hlen : g.send.length ≤ 6)
include hg hlen

/-- The CRC of the head in `g`, where only registers differ from `s`, is CRCCALC of that head. -/
theorem crcCalc_abreast_request : Abreast c s s (appendCrc (crcCalc c g)) (operate c (.crccalc g.send) s) ∧
    (appendCrc (crcCalc c g)).send = crcFrame c g.send s := by
  have hacc := accept_local (.crccalc g.send) s
  obtain ⟨hcalc, hlo, hhi⟩ := crcCalc_alike c g (accept (.crccalc g.send) s) rfl (hlen.trans (by decide))
    (hg.answer.trans hacc.answer.symm)
  refine ⟨(Abreast.after hcalc (appendCrc_local _) (finish_local _ _)).before hg hacc, ?_⟩
  rw [appendCrc_send, crcCalc_send, hlo, hhi]; rfl

/-- The exchange of that head with its CRC, and its answer `r`, are the two requests. -/
theorem sendWithCrc_alike_requests (r : Response) :
    Alike c s s (finish r (sendWithCrc c g)) (crcThenExchange c g.send s) := by
  obtain ⟨⟨xs, k, hhead, hcrc⟩, hsend⟩ := crcCalc_abreast_request (c := c) hg hlen
  have hframe := hcrc.after_local (accept_local (.transcv c.cmdTransceive (crcFrame c g.send s)) _)
  have hcap : (appendCrc (crcCalc c g)).send.length ≤ sendCap := by
    simp only [appendCrc_send, crcCalc_send, List.length_append, List.length_cons, List.length_nil, sendCap]
    omega
  obtain ⟨hdid, hst, hr, hv⟩ :=
    (transceive_alike c c.cmdTransceive _ _ hsend hcap (hhead.answer_eq hframe rfl)).before hhead hframe
  exact ⟨Abreast.after hdid (finish_local _ _) (finish_local _ _), hst, hr, hv⟩
end

theorem operate_rdpage_alike (c : Cfg) (page : Byte) (s : State) :
    Alike c s s (operate c (.rdpage page) s) (crcThenExchange c [airRead, page] s) :=
  sendWithCrc_alike_requests (g := readFrame page (accept (.rdpage page) s))
    ((accept_local _ s).trans (readFrame_local page _)) (by simp) _

theorem operate_wrpage_alike (c : Cfg) (page b0 b1 b2 b3 : Byte) (s : State) :
    Alike c s s (operate c (.wrpage page b0 b1 b2 b3) s) (crcThenExchange c [airWrite, page, b0, b1, b2, b3] s) := by
  simp only [operate, runWrpage, operandPage_accept_wrpage]
  exact sendWithCrc_alike_requests (g := writeFrame page ⟨b0, b1, b2, b3⟩ (accept (.wrpage page b0 b1 b2 b3) s))
    ((accept_local _ s).trans (writeFrame_local page _ _)) (by simp) _

/-! ## The data of a page read (rule R151) -/

/-- Bytes received are fewer than a page, or a page and the rest that is ignored. -/
theorem short_or_page (recv : List Byte) :
    recv.length < 4 ∨ ∃ b0 b1 b2 b3 rest, recv = b0 :: b1 :: b2 :: b3 :: rest :=
  match recv with
  | [] | [_] | [_, _] | [_, _, _] => .inl (by simp)
  | b0 :: b1 :: b2 :: b3 :: rest => .inr ⟨b0, b1, b2, b3, rest, rfl⟩

theorem pageData_of_short {recv : List Byte} (h : recv.length < 4) (status : BitVec 2) :
    pageData status recv = none := by
  unfold pageData
  split
  · simp only [List.length_cons] at h; omega
  · rfl

theorem pageData_of_page (status : BitVec 2) (b0 b1 b2 b3 : Byte) (rest : List Byte) :
    pageData status (b0 :: b1 :: b2 :: b3 :: rest) = if status = 0 then some ⟨b0, b1, b2, b3⟩ else none := rfl

theorem pageData_eq_some_iff (status : BitVec 2) (recv : List Byte) (d : PageData) :
    pageData status recv = some d ↔ status = 0 ∧ recv.take 4 = [d.b0, d.b1, d.b2, d.b3] := by
  obtain hshort | ⟨b0, b1, b2, b3, rest, rfl⟩ := short_or_page recv
  · have htake : recv.take 4 ≠ [d.b0, d.b1, d.b2, d.b3] :=
      ne_of_apply_ne List.length (by rw [List.length_take]; exact ((Nat.min_le_right ..).trans_lt hshort).ne)
    simp [pageData_of_short hshort, htake]
  · cases d
    simp [pageData_of_page]

theorem pageData_eq_none_iff (status : BitVec 2) (recv : List Byte) :
    pageData status recv = none ↔ status ≠ 0 ∨ recv.length < 4 := by
  obtain hshort | ⟨b0, b1, b2, b3, rest, rfl⟩ := short_or_page recv
  · simp [pageData_of_short hshort, hshort]
  · simp [pageData_of_page]

/-! ## RDPAGE and WRPAGE as two requests -/

/-- Settles O27: RDPAGE and the two requests are alike, and its record is made from their status and bytes. -/
theorem rdpageIsCrccalcThenTransceive : Obligations.RdpageIsCrccalcThenTransceive := by
  intro page s hb
  have h := operate_rdpage_alike Config.cfg page s
  exact ⟨_, _, _, _, _, _, _, _, _, exec_idle hb _, rfl, exec_crcThenExchange _ s, rfl, exec_idle hb _,
    congrArg some h.pageResponse_eq, Abreast.sameOutside h.did, pageData_eq_some_iff _ _, pageData_eq_none_iff _ _⟩

/-- Settles O28: WRPAGE and the two requests are alike, and its record holds nothing of them. -/
theorem wrpageIsCrccalcThenTransceive : Obligations.WrpageIsCrccalcThenTransceive := by
  intro page b0 b1 b2 b3 s hb
  have h := operate_wrpage_alike Config.cfg page b0 b1 b2 b3 s
  exact ⟨_, _, _, _, _, exec_idle hb _, rfl, exec_crcThenExchange _ s, exec_idle hb _, rfl, Abreast.sameOutside h.did⟩

/-! ## The frames of RDPAGE and WRPAGE -/

/-- The exchange of a head with its CRC, and the answer after it, keep what an exchange keeps, but for the registers of
CRCCALC. -/
theorem sendWithCrc_keeps {s g : State} (h : ExchangeKeeps s g) (c : Cfg) (r : Response) :
    ExchangeKeeps { s with pollC := (sendWithCrc c g).pollC, crcLo := (sendWithCrc c g).crcLo,
                           crcHi := (sendWithCrc c g).crcHi } (finish r (sendWithCrc c g)) where
  argV := (sendWithCrc_argV c g).trans h.argV
  pollC := rfl
  crcLo := rfl
  crcHi := rfl
  page := (sendWithCrc_page c g).trans h.page
  out := (sendWithCrc_out c g).trans h.out
  text := (sendWithCrc_text c g).trans h.text
  requests := (sendWithCrc_requests c g).trans h.requests

/-- Settles O44: a busy block is left as it is; in an idle one acceptance and the frame head write nothing an exchange
keeps, and the rest is the exchange of the head with its CRC. -/
theorem pageOperationsFrame : Obligations.PageOperationsFrame := by
  refine ⟨fun page s t h => ?_, fun page b0 b1 b2 b3 s t h => ?_⟩
  · obtain rfl | ⟨hb, rfl⟩ := exec_cases h
    · rfl
    · have hhead : ExchangeKeeps s (readFrame page (accept (.rdpage page) s)) := ⟨rfl, rfl, rfl, rfl, rfl, rfl, rfl, rfl⟩
      exact (sendWithCrc_keeps hhead ..).frame hb.symm
  · obtain rfl | ⟨hb, rfl⟩ := exec_cases h
    · rfl
    · have hhead : ExchangeKeeps s (writeFrame page (operandPage (accept (.wrpage page b0 b1 b2 b3) s))
          (accept (.wrpage page b0 b1 b2 b3) s)) := ⟨rfl, rfl, rfl, rfl, rfl, rfl, rfl, rfl⟩
      exact (sendWithCrc_keeps hhead ..).frame hb.symm

end Sys2Proof.Machine
end

section
/-!
PROOFS. The sessions (45_session.md): RDTEXT and WRTEXT do and receive what the requests of their gate and of their page
accesses do and receive (R160 to R164), and end after REQPRES where no tag is present (R126 and R221); the padding
(R162); INIT (R165); and what the two sessions leave unchanged.
-/

namespace Sys2Proof.Machine

/-! ## INIT (rule R165) -/

/-- Settles O13: the equation of INIT, with its one write as a trace. -/
theorem initWritesTheSoftReset : Obligations.InitWritesTheSoftReset := by
  intro s hb
  rw [exec_idle hb, operate_init_eq]; rfl

/-! ## The padding (rule R162) -/

/-- Settles O32: what follows the text is copies of the pad byte, too few to make one more chunk. -/
theorem paddingIsToTheLeastMultipleOfFour : Obligations.PaddingIsToTheLeastMultipleOfFour := by
  intro text
  obtain ⟨hmod, hle, hlt⟩ := padText_length text
  refine ⟨hmod, hle, hlt, List.take_left, fun b hb => ?_⟩
  rw [padText, List.drop_left] at hb
  exact List.eq_of_mem_replicate hb

/-- The model pads as the statement of rule R162 does. -/
theorem padText_eq_paddedText (text : List Byte) : padText text = paddedText text := by
  have hcount : padCount text.length = (text.length + 3) / 4 * 4 - text.length := by
    simp only [padCount, pageBytes]
    omega
  rw [padText, paddedText, hcount]

/-! ## A gate passed or failed (rule R160) -/

section
variable {c : Cfg} {s : State}

theorem gate_of_present (h : (reqPres c airReqIdle s).status = statusOk) :
    gate c s = antiColl c (reqPres c airReqIdle s) := if_pos h

theorem gate_of_absent (h : (reqPres c airReqIdle s).status ≠ statusOk) : gate c s = reqPres c airReqIdle s := if_neg h

theorem session_of_passed (pages : State → State) (h : (gate c s).status = statusOk) :
    session c pages s = pages (gate c s) := if_pos h

theorem session_of_failed (pages : State → State) (h : (gate c s).status ≠ statusOk) :
    session c pages s = finish .null (gate c s) := if_neg h
end

/-! ## An operation used in a session and the request of that operation (rules R73 and R160) -/

section
variable {c : Cfg} {s a u : State}

/-- An operation used in a session at `a` is the request presented in `u`, when from `s` the same has been done up to
`a` and `u`, and the operation depends on the answers alone. -/
theorem Abreast.nested {i : Instr} {r : Response} {a' u' : State} (h : Abreast c s s a u)
    (hstep : a.answer = (accept i u).answer → Alike c a (accept i u) a' u') : Alike c s s a' (finish r u') := by
  obtain ⟨xs, k, ha, hu⟩ := h
  have hacc := hu.after_local (accept_local i u)
  obtain ⟨hdid, hst, hr, hv⟩ := (hstep (ha.answer_eq hacc rfl)).before ha hacc
  exact ⟨Abreast.after hdid (.refl _) (finish_local r u'), hst, hr, hv⟩

theorem reqPres_alike_request (h : Abreast c s s a u) (mode : Byte) :
    Alike c s s (reqPres c mode a) (operate c (.reqpres mode) u) :=
  h.nested (reqPres_alike c mode a _)

theorem antiColl_alike_request (h : Abreast c s s a u) : Alike c s s (antiColl c a) (operate c .anticoll u) :=
  h.nested (antiColl_alike c a _)

theorem rdPage_alike_request (h : Abreast c s s a u) (page : Byte) :
    Alike c s s (rdPage c page a) (operate c (.rdpage page) u) :=
  h.nested (rdPage_alike c page a _)

/-- WRPAGE of the chunk of `PAGE` is the request whose frame head it puts in `SEND`. -/
theorem writeChunk_alike_request {page b0 b1 b2 b3 : Byte} (h : Abreast c s s a u)
    (hsend : (chunkFrame a).send = [airWrite, page, b0, b1, b2, b3]) :
    Alike c s s (writeChunk c a) (operate c (.wrpage page b0 b1 b2 b3) u) := by
  simp only [operate, runWrpage, operandPage_accept_wrpage]
  exact h.nested fun hans =>
    (sendWithCrc_alike c (chunkFrame a) (writeFrame page ⟨b0, b1, b2, b3⟩ (accept (.wrpage page b0 b1 b2 b3) u))
      hsend (by simp) hans).before_local (chunkFrame_local a) (writeFrame_local page _ _)
end

/-! ## A session as requests (rule R160) -/

/-- The session `i` requested in `s` ends in `t`: REQPRES and ANTICOLL are requested until one fails, and `t` then
answers NULL with nothing more done; where both pass, `P` says what the pages did after the second. -/
def GateThen (i : Instr) (s t : State) (P : State → Prop) : Prop :=
  ∃ u status vbc, exec i s = .next t ∧ exec (.reqpres 0x26#8) s = .next u ∧
    u.response = some (.presence status vbc) ∧
    (status ≠ 0 → t.response = some .null ∧ SameOutside t u) ∧
    (status = 0 → ∃ v status' recv, exec .anticoll u = .next v ∧ v.response = some (.identifier status' recv) ∧
      (status' ≠ 0 → t.response = some .null ∧ SameOutside t v) ∧ (status' = 0 → P v))

/-- A session that failed ends where its gate ended, and answers NULL. -/
theorem failed_session_answers_null {c : Cfg} {s a u : State} (pages : State → State)
    (h : Alike c s s (gate c a) u) (hu : u.status ≠ statusOk) :
    (session c pages a).response = some .null ∧ SameOutside (session c pages a) u := by
  rw [session_of_failed pages (h.status.trans_ne hu)]
  exact ⟨rfl, Abreast.sameOutside (Abreast.after h.did (finish_local .null _) (.refl u))⟩

/-- The gate of a session is the two requests, whatever `pages` does after it. -/
theorem session_gateThen {i : Instr} {s : State} {pages : State → State} {P : State → Prop} (hb : s.busy = false)
    (hrun : operate Config.cfg i s = session Config.cfg pages (accept i s))
    (hpages : ∀ v, v.busy = false → Abreast Config.cfg s s (gate Config.cfg (accept i s)) v →
      operate Config.cfg i s = pages (gate Config.cfg (accept i s)) → P v) :
    GateThen i s (operate Config.cfg i s) P := by
  have hbegin : Abreast Config.cfg s s (accept i s) s := (Abreast.refl _ s s).after (accept_local i s) (.refl s)
  have hreq := reqPres_alike_request hbegin airReqIdle
  have hanti := antiColl_alike_request hreq.did
  refine ⟨_, _, _, exec_idle hb i, exec_idle hb _, rfl, fun habsent => ?_, fun hpresent =>
    ⟨_, _, _, exec_idle (operate_busy ..) _, rfl, fun hfail => ?_, fun hpass => ?_⟩⟩
  · rw [← gate_of_absent (hreq.status.trans_ne habsent)] at hreq
    exact hrun ▸ failed_session_answers_null pages hreq habsent
  · rw [← gate_of_present (hreq.status.trans hpresent)] at hanti
    exact hrun ▸ failed_session_answers_null pages hanti hfail
  · rw [← gate_of_present (hreq.status.trans hpresent)] at hanti
    exact hpages _ (operate_busy ..) hanti.did (hrun.trans (session_of_passed pages (hanti.status.trans hpass)))

/-! ## The pages of RDTEXT (rule R161) -/

/-- The record of RDPAGE carries the data a session takes from the status and the bytes received. -/
theorem pageText_rdpage (c : Cfg) (page : Byte) (s : State) :
    pageText (operate c (.rdpage page) s) =
      PageData.bytes (pageData (operate c (.rdpage page) s).status (operate c (.rdpage page) s).recv) := by
  simp only [pageText, operate, runRdpage, finish_response, finish_status, finish_recv, pageResponse]
  cases pageData (rdPage c (accept (.rdpage page) s).argA (accept (.rdpage page) s)).status
    (rdPage c (accept (.rdpage page) s).argA (accept (.rdpage page) s)).recv <;> rfl

/-- One iteration of the page loop of RDTEXT. -/
def readOnePage (c : Cfg) (page : Byte) (s : State) : State := appendPage (rdPage c page { s with page := page })

theorem readPages_cons (c : Cfg) (p : Byte) (ps : List Byte) (s : State) :
    readPages c (p :: ps) s = readPages c ps (readOnePage c p s) := rfl

/-- An iteration is the request RDPAGE, and appends the data of that request. -/
theorem readOnePage_rdpage {c : Cfg} {s a v : State} (h : Abreast c s s a v) (page : Byte) :
    Abreast c s s (readOnePage c page a) (operate c (.rdpage page) v) ∧
      (readOnePage c page a).out = a.out ++ pageText (operate c (.rdpage page) v) := by
  have hpage := rdPage_alike_request (h.after (setPage_local page a) (.refl v)) page
  refine ⟨Abreast.after hpage.did (appendPage_local _) (.refl _), ?_⟩
  rw [readOnePage, appendPage_out, rdPage_out, hpage.status, hpage.recv, pageText_rdpage]

/-- The pages of RDTEXT are the four page reads, one after the other. -/
theorem readWindow_pageReads {s a v : State} (h : Abreast Config.cfg s s a v) (hv : v.busy = false) :
    ∃ w4 w5 w6 w7, exec (.rdpage 4#8) v = .next w4 ∧ exec (.rdpage 5#8) w4 = .next w5 ∧
      exec (.rdpage 6#8) w5 = .next w6 ∧ exec (.rdpage 7#8) w6 = .next w7 ∧
      (readWindow Config.cfg a).out = pageText w4 ++ pageText w5 ++ pageText w6 ++ pageText w7 ∧
      (readWindow Config.cfg a).response = some (.text (readWindow Config.cfg a).out) ∧
      (readWindow Config.cfg a).page = 7 ∧ SameOutside (readWindow Config.cfg a) w7 := by
  obtain ⟨h4, ho4⟩ := readOnePage_rdpage (h.after (clearOut_local a) (.refl v)) 4#8
  obtain ⟨h5, ho5⟩ := readOnePage_rdpage h4 5#8
  obtain ⟨h6, ho6⟩ := readOnePage_rdpage h5 6#8
  obtain ⟨h7, ho7⟩ := readOnePage_rdpage h6 7#8
  rw [ho6, ho5, ho4, clearOut_out, List.nil_append] at ho7
  exact ⟨_, _, _, _, exec_idle hv _, exec_idle (operate_busy ..) _, exec_idle (operate_busy ..) _,
    exec_idle (operate_busy ..) _, ho7, rfl, rdPage_page .., (h7.after (finish_local _ _) (.refl _)).sameOutside⟩

/-- Settles O29: the gate is the two requests, and the page loop after it is the page reads. -/
theorem readSessionIsGateThenFourPages : Obligations.ReadSessionIsGateThenFourPages := by
  intro s hb
  refine ⟨_, session_gateThen (i := .rdtext) hb rfl fun v hv hgate hpassed => ?_⟩
  rw [hpassed]
  exact readWindow_pageReads hgate hv

/-! ## The chunks of WRTEXT (rules R163 and R164) -/

/-- The request that writes chunk `k` of `text` to page `4 + k`. -/
def chunkWrite (text : List Byte) (k : Nat) : Instr :=
  .wrpage (BitVec.ofNat 8 (4 + k)) (text.getD (4 * k) 0) (text.getD (4 * k + 1) 0) (text.getD (4 * k + 2) 0)
    (text.getD (4 * k + 3) 0)

theorem pageWrites_eq (text : List Byte) :
    pageWrites text = (List.range' 0 ((paddedText text).length / 4)).map (chunkWrite (paddedText text)) := by
  rw [← List.range_eq_range']; rfl

/-- At page `4 + j`, which 8 bits hold, the chunk is the `j`-th. -/
theorem chunkIndex_of_page {a : State} {j : Nat} (hp : a.page = BitVec.ofNat 8 (4 + j)) (hj : 4 + j < 256) :
    chunkIndex a = 4 * j := by
  have hpage : a.page.toNat = 4 + j := by rw [hp, BitVec.toNat_ofNat, Nat.mod_eq_of_lt hj]
  rw [chunkIndex, hpage]
  exact congrArg (4 * ·) (Nat.add_sub_cancel_left 4 j)

/-- The chunk loop from page `4 + j` on is the requests of the chunks from the `j`-th on, one after the other. -/
theorem writeChunks_pageWrites {s a v : State} (n j : Nat) (h : Abreast Config.cfg s s a v) (hv : v.busy = false)
    (hp : a.page = BitVec.ofNat 8 (4 + j)) (hj : 4 + j + n ≤ 256) :
    ∃ w, execAll ((List.range' j n).map (chunkWrite a.text)) v = .next w ∧
      Abreast Config.cfg s s (writeChunks Config.cfg n a) w := by
  induction n generalizing j a v with
  | zero => exact ⟨v, rfl, h⟩
  | succ n ih =>
    have hsend : (chunkFrame a).send = [airWrite, BitVec.ofNat 8 (4 + j), a.text.getD (4 * j) 0,
        a.text.getD (4 * j + 1) 0, a.text.getD (4 * j + 2) 0, a.text.getD (4 * j + 3) 0] := by
      rw [chunkFrame_send, chunkIndex_of_page hp (by omega), hp]; rfl
    have hchunk := Abreast.after (writeChunk_alike_request h hsend).did (nextPage_local _) (.refl _)
    have hnext : (nextPage (writeChunk Config.cfg a)).page = BitVec.ofNat 8 (4 + (j + 1)) := by
      rw [nextPage_page, writeChunk_page, hp, ← Nat.add_assoc, BitVec.ofNat_add (4 + j) 1]; rfl
    obtain ⟨w, hw, hend⟩ := ih (j + 1) hchunk (operate_busy ..) hnext (by omega)
    rw [nextPage_text, writeChunk_text] at hw
    exact ⟨w, (execAll_cons hv _ _).trans hw, hend⟩

/-- The chunks of a text of at most 1008 bytes go to the pages 4 to 255. -/
theorem paddedText_chunks_le {text : List Byte} (h : text.length ≤ 1008) : (paddedText text).length / 4 ≤ 252 := by
  obtain ⟨hmod, -, hlt⟩ := padText_length text
  rw [padText_eq_paddedText] at hmod hlt
  omega

/-- The pages of WRTEXT are the page writes of the padded text, one after the other. -/
theorem writeText_pageWrites {s a v : State} {text : List Byte} (h : Abreast Config.cfg s s a v) (hv : v.busy = false)
    (ht : a.text = text) (hlen : text.length ≤ 1008) :
    ∃ w, execAll (pageWrites text) v = .next w ∧ (writeText Config.cfg a).response = some (.written 1) ∧
      (writeText Config.cfg a).text = paddedText text ∧
      (writeText Config.cfg a).page = 4 + BitVec.ofNat 8 ((paddedText text).length / 4) ∧
      SameOutside (writeText Config.cfg a) w := by
  have htext : (beginChunks a).text = paddedText text := by rw [beginChunks_text, ht, padText_eq_paddedText]
  have hchunks := paddedText_chunks_le hlen
  obtain ⟨w, hw, hend⟩ := writeChunks_pageWrites ((paddedText text).length / 4) 0
    (h.after (beginChunks_local a) (.refl v)) hv rfl (by omega)
  rw [htext, ← pageWrites_eq] at hw
  simp only [writeText, htext]
  exact ⟨w, hw, rfl, (writeChunks_text ..).trans htext, writeChunks_page ..,
    (hend.after (finish_local _ _) (.refl w)).sameOutside⟩

/-- Settles O30: the gate is the two requests, and the chunk loop after it is the page writes. -/
theorem writeSessionIsGateThenPageWrites : Obligations.WriteSessionIsGateThenPageWrites := by
  intro text s hlen hb
  refine ⟨_, session_gateThen (i := .wrtext text) hb rfl fun v hv hgate hpassed => ?_⟩
  rw [hpassed]
  exact writeText_pageWrites hgate hv (gate_text ..) hlen

/-! ## No tag (rules R126 and R221) -/

/-- An exchange when bit 0 is never set: the poll makes all its reads, and nothing is read after it. -/
theorem transceive_timedOut (c : Cfg) (cmd : Byte) {s : State} (hlen : s.send.length ≤ sendCap)
    (hzero : ∀ j, j < 2000 → s.answer (2 + j) &&& mRxDone = 0) :
    Did c s (transceive c cmd s) (exchangeTrace c cmd s.send s.answer 2000) 2003 ∧
      (transceive c cmd s).status = statusErr := by
  have hlast : s.answer (1 + 2000) &&& mRxDone = 0 := hzero 1999 (by decide)
  obtain ⟨p, hp, hout⟩ := transceive_spec c cmd s hlen
  obtain rfl := hp.eq_ceiling hzero
  obtain ⟨-, hdid, hst, -⟩ | ⟨hdone, -⟩ | ⟨hdone, -⟩ := hout
  · exact ⟨hdid, hst⟩
  · exact absurd hlast hdone
  · exact absurd hlast hdone

/-- REQPRES when bit 0 is never set: the framing write and that exchange. -/
theorem reqPres_timedOut (c : Cfg) (mode : Byte) (s : State)
    (hzero : ∀ j, j < 2000 → s.answer (2 + j) &&& mRxDone = 0) :
    Did c s (reqPres c mode s)
        (.write c.aBitFraming vFrame7 :: exchangeTrace c c.cmdTransceive [mode] s.answer 2000) 2003 ∧
      (reqPres c mode s).status = statusErr := by
  have hframe := (wrReg_did c c.aBitFraming vFrame7 s).after_local (requestFrame_local mode _)
  have hans : _ = s.answer := funext fun k => (hframe.answer k).trans (by rw [Nat.zero_add])
  rw [← hans] at hzero ⊢
  obtain ⟨hdid, hst⟩ := transceive_timedOut c c.cmdTransceive (by simp) hzero
  exact ⟨hframe.trans hdid, hst⟩

/-- A session without a tag makes the transactions of REQPRES and no more, and answers NULL. -/
theorem session_noTag (c : Cfg) (i : Instr) (pages : State → State) (s : State)
    (hzero : ∀ j, j < 2000 → s.answer (2 + j) &&& mRxDone = 0) :
    (session c pages (accept i s)).response = some .null ∧
      Did c s (session c pages (accept i s))
        (.write c.aBitFraming vFrame7 :: exchangeTrace c c.cmdTransceive [airReqIdle] s.answer 2000) 2003 := by
  have hacc := accept_local i s
  rw [← hacc.answer] at hzero ⊢
  obtain ⟨hdid, hst⟩ := reqPres_timedOut c airReqIdle (accept i s) hzero
  have hfail : (reqPres c airReqIdle (accept i s)).status ≠ statusOk := hst.trans_ne (by decide)
  rw [← gate_of_absent hfail] at hdid hfail
  rw [session_of_failed pages hfail]
  exact ⟨rfl, finish_did (hdid.before_local hacc) .null⟩

/-- Settles O31: neither session comes to its pages, so they do the same; 2000 of the transactions are the poll. -/
theorem sessionsWithoutATagAnswerNull : Obligations.SessionsWithoutATagAnswerNull := by
  intro text s _ hb hzero
  obtain ⟨hread, hdid⟩ := session_noTag Config.cfg .rdtext (readWindow Config.cfg) s hzero
  obtain ⟨hwrite, hdid'⟩ := session_noTag Config.cfg (.wrtext text) (writeText Config.cfg) s hzero
  exact ⟨_, _, _, exec_idle hb _, exec_idle hb _, hread, hwrite, hdid.bus, hdid'.bus.trans hdid.bus.symm,
    congrArg (· + 1) (exchangeTrace_length ..), rfl⟩

/-! ## The frames of RDTEXT and WRTEXT -/

/-- What neither session writes: the operand registers and the requests that wait. -/
structure SessionKeeps (s t : State) : Prop where
  argA : t.argA = s.argA
  argV : t.argV = s.argV
  requests : t.requests = s.requests

/-- What is kept, and `BUSY`, said of the whole state. -/
theorem SessionKeeps.frame {s t : State} (h : SessionKeeps s t) (hb : t.busy = s.busy) :
    t = { s with opc := t.opc, send := t.send, tmp := t.tmp, pollC := t.pollC, pollT := t.pollT, seen := t.seen,
                 crcLo := t.crcLo, crcHi := t.crcHi, status := t.status, err := t.err, n := t.n, rem := t.rem,
                 vbc := t.vbc, idx := t.idx, recv := t.recv, page := t.page, out := t.out, text := t.text,
                 phase := t.phase, response := t.response, cs := t.cs, bus := t.bus, answers := t.answers,
                 drawn := t.drawn } := by
  rw [← hb, ← h.argA, ← h.argV, ← h.requests]

/-- The page loop of RDTEXT leaves the text of a write session too. -/
theorem readPages_keeps (c : Cfg) (ps : List Byte) (s : State) :
    SessionKeeps s (readPages c ps s) ∧ (readPages c ps s).text = s.text := by
  induction ps generalizing s with
  | nil => exact ⟨⟨rfl, rfl, rfl⟩, rfl⟩
  | cons p ps ih =>
    obtain ⟨⟨hA, hV, hreq⟩, htext⟩ := ih (readOnePage c p s)
    refine ⟨⟨hA.trans ?_, hV.trans ?_, hreq.trans ?_⟩, htext.trans ?_⟩ <;> simp [readOnePage]

/-- A session ends with its pages, or with its gate and the answer NULL. -/
theorem session_cases (c : Cfg) (pages : State → State) (s : State) :
    session c pages s = pages (gate c s) ∨ session c pages s = finish .null (gate c s) :=
  (em _).imp (session_of_passed pages) (session_of_failed pages)

theorem operate_rdtext_keeps (c : Cfg) (s : State) :
    SessionKeeps s (operate c .rdtext s) ∧ (operate c .rdtext s).text = s.text := by
  obtain h | h := session_cases c (readWindow c) (accept .rdtext s) <;> rw [operate, runRdtext, h]
  · obtain ⟨⟨hA, hV, hreq⟩, htext⟩ := readPages_keeps c [4#8, 5#8, 6#8, 7#8] (clearOut (gate c (accept .rdtext s)))
    refine ⟨⟨hA.trans ?_, hV.trans ?_, hreq.trans ?_⟩, htext.trans ?_⟩ <;> simp [accept, landOperands]
  · refine ⟨⟨?_, ?_, ?_⟩, ?_⟩ <;> simp [accept, landOperands]

theorem operate_wrtext_keeps (c : Cfg) (text : List Byte) (s : State) :
    SessionKeeps s (operate c (.wrtext text) s) ∧ (operate c (.wrtext text) s).out = s.out := by
  obtain h | h := session_cases c (writeText c) (accept (.wrtext text) s) <;> rw [operate, runWrtext, h]
  · refine ⟨⟨?_, ?_, ?_⟩, ?_⟩ <;> simp [writeText, accept, landOperands]
  · refine ⟨⟨?_, ?_, ?_⟩, ?_⟩ <;> simp [accept, landOperands]

/-- Settles O45: a busy block is left as it is; in an idle one the gate leaves the buffers of a session, and its pages
the operand registers, RDTEXT's also the text and WRTEXT's the bytes read. -/
theorem sessionsFrame : Obligations.SessionsFrame := by
  refine ⟨fun s t h => ?_, fun text s t h => ?_⟩
  · obtain rfl | ⟨hb, rfl⟩ := exec_cases h
    · rfl
    · obtain ⟨hkeeps, htext⟩ := operate_rdtext_keeps Config.cfg s
      exact (hkeeps.frame ((operate_busy ..).trans hb.symm)).trans (by rw [htext])
  · obtain rfl | ⟨hb, rfl⟩ := exec_cases h
    · rfl
    · obtain ⟨hkeeps, hout⟩ := operate_wrtext_keeps Config.cfg text s
      exact (hkeeps.frame ((operate_busy ..).trans hb.symm)).trans (by rw [hout])

end Sys2Proof.Machine
end

section
/-!
PROOFS. The exceptions (60_exceptions.md): the block raises nothing, so every operation and every step has a next state
(R180).
-/

namespace Sys2Proof.Machine

/-! ## Nothing is raised (rule R180) -/

/-- A busy block leaves the operation aside and an idle one runs it. -/
theorem exec_answers (i : Instr) (s : State) : ∃ t, exec i s = .next t := by
  cases hb : s.busy with
  | true => exact ⟨s, exec_busy hb i⟩
  | false => exact ⟨operate Config.cfg i s, exec_idle hb i⟩

/-- A malformed request is answered too, by the state that refuses it (rule R92). -/
theorem step_answers (s : State) : ∃ t, step s = .next t := by
  obtain ⟨-, h⟩ | ⟨-, -, h⟩ | ⟨d, rest, i, -, -, -, h⟩ | ⟨d, rest, e, -, -, -, h⟩ := step_cases s
  · exact ⟨tick Config.cfg s, h⟩
  · exact ⟨s, h⟩
  · exact ⟨operate Config.cfg i (takeRequest s), h⟩
  · exact ⟨refuse (takeRequest s), h⟩

/-- Settles O11: each case of a step, and each of an operation, names the next state. -/
theorem nothingIsRaised : Obligations.NothingIsRaised :=
  ⟨step_answers, exec_answers⟩

end Sys2Proof.Machine
end

section
/-!
PROOFS. Termination (70_reset_and_hazards.md): every operation ends within the bounds of its row (R227).
-/

namespace Sys2Proof.Machine

/-! ## Every operation ends within its bounds (rule R227) -/

/-- Settles O34: the request runs, within the bounds of its row; SETBITS and CLRBITS make one read and one write. -/
theorem transactionsAreBounded : Obligations.TransactionsAreBounded := by
  refine ⟨fun i s hw hb => ?_, fun c a m s => ⟨?_, ?_⟩⟩
  · obtain ⟨xs, k, hdid, hleast, hmost⟩ := operate_within Config.cfg i s hw
    exact ⟨_, xs, exec_idle hb i, hdid.bus, hleast, hmost⟩
  · exact ⟨_, (setBits_did c a m s).bus, rfl⟩
  · exact ⟨_, (clrBits_did c a m s).bus, rfl⟩

end Sys2Proof.Machine
end

section
/-!
PROOFS. The default address bytes (30_encoding.md section 3, 20_memory.md section 1): what the scheme of rules R51 and
R82 keeps of an address.
-/

namespace Sys2Proof.Machine

/-! ## The default address bytes (rules R51 and R82) -/

/-- A write's byte carries the address's six low bits, one place up. -/
theorem defaults_waddr_eq (a : Byte) : Cfg.defaults.waddr a = (a &&& 0x3F#8) <<< 1 :=
  (BitVec.shiftLeft_and_distrib a 0x3F#8 1).symm

/-- A read's byte is the write's with bit 7 set. -/
theorem defaults_raddr_eq (a : Byte) : Cfg.defaults.raddr a = Cfg.defaults.waddr a ||| 0x80#8 := rfl

theorem defaults_waddr_bit_seven (a : Byte) : (Cfg.defaults.waddr a).getLsbD 7 = false := by
  simp [defaults_waddr_eq]

theorem defaults_waddr_bit_zero (a : Byte) : (Cfg.defaults.waddr a).getLsbD 0 = false := by
  simp [defaults_waddr_eq]

theorem defaults_raddr_bit_seven (a : Byte) : (Cfg.defaults.raddr a).getLsbD 7 = true := by
  simp [defaults_raddr_eq]

theorem defaults_raddr_bit_zero (a : Byte) : (Cfg.defaults.raddr a).getLsbD 0 = false := by
  rw [defaults_raddr_eq, BitVec.getLsbD_or, defaults_waddr_bit_zero]
  rfl

/-- The six low bits of the address come back from a write's byte: the shift loses none of them. -/
theorem defaults_waddr_ushiftRight (a : Byte) : Cfg.defaults.waddr a >>> 1 = a &&& 0x3F#8 := by
  have small : a &&& 0x3F#8 ≤ 0x3F#8 := Nat.and_le_right
  rw [defaults_waddr_eq]
  bv_omega

/-- The mask of bits 6:1 gives the write's byte back from a read's. -/
theorem defaults_raddr_and (a : Byte) : Cfg.defaults.raddr a &&& 0x7E#8 = Cfg.defaults.waddr a := by
  rw [defaults_raddr_eq, defaults_waddr_eq, BitVec.shiftLeft_and_distrib]
  simp [BitVec.and_or_distrib_right, BitVec.and_assoc]

theorem defaults_waddr_eq_iff (a b : Byte) :
    a &&& 0x3F#8 = b &&& 0x3F#8 ↔ Cfg.defaults.waddr a = Cfg.defaults.waddr b := by
  constructor <;> intro h
  · rw [defaults_waddr_eq, defaults_waddr_eq, h]
  · rw [← defaults_waddr_ushiftRight, h, defaults_waddr_ushiftRight]

theorem defaults_raddr_eq_iff (a b : Byte) :
    a &&& 0x3F#8 = b &&& 0x3F#8 ↔ Cfg.defaults.raddr a = Cfg.defaults.raddr b := by
  rw [defaults_waddr_eq_iff]
  constructor <;> intro h
  · rw [defaults_raddr_eq, defaults_raddr_eq, h]
  · rw [← defaults_raddr_and, h, defaults_raddr_and]

/-- Settles O46: the bits one by one, and each byte gives back the six low bits of its address and no more. -/
theorem defaultAddressBytes : Obligations.DefaultAddressBytes := fun a b =>
  ⟨defaults_waddr_bit_seven a, defaults_raddr_bit_seven a, defaults_waddr_bit_zero a, defaults_raddr_bit_zero a,
    defaults_waddr_eq_iff a b, defaults_raddr_eq_iff a b⟩

end Sys2Proof.Machine
end
